-- ==== Sys2Proof/Word.lean ====
section
/-!
DEFINITION. The words of the machine: 32-bit values, register indices, 64-bit instruction words
(spec/00_scope.md R12, R13, R14; spec/30_encoding.md R110, R114).
-/

namespace Sys2Proof

/-- `Word`: a bit vector of `XLEN` = 32 bits (R12). Its arithmetic is that of `BitVec`: reduced
modulo 2^32 (R14). -/
abbrev Word := BitVec 32

/-- A register index 0..31 naming R0..R31 (R30, R110). -/
abbrev RegIdx := Fin 32

/-- One instruction in the 64-bit packing REC64 (R114). -/
abbrev Rec64 := BitVec 64

end Sys2Proof
end

