-- ==== Sys2Proof/Config.lean ====
section
/-!
DEFINITION. The constants the spec fixes (spec/00_scope.md R10) and the values the model names for the
launch inputs of the reset state (R11). The spec leaves no value undefined after an instruction, so
there is no free value here.
-/

namespace Sys2Proof.Config

/-- `BASE_ADDR`: the address of instruction index 0 (R10). -/
def baseAddr : Nat := 4000

/-- `ISTRIDE`: address units between consecutive instructions (R10). -/
def iStride : Nat := 4

/-- `BRANCH_WAIT`: Decode wait ticks of BZ and BNZ, 3 in this hardware (R10, R356). -/
def branchWait : Nat := 3

/-- `DUMP_WORDS`: data-memory words readable after a run (R10, R64). -/
def dumpWords : Nat := 100

/-- The data-memory size N of the state after reset. DESIGN CHOICE (log entry 7): the spec leaves N
open with N ≥ 100 (R11, D2) and its vectors use 1000 (spec/95_test_vectors.md §0). -/
def resetDmemWords : Nat := 1000

/-- The cycle budget of the state after reset. DESIGN CHOICE (log entry 8): a run argument (R11);
the spec's vectors use 200 (spec/95_test_vectors.md §0). -/
def resetMaxCycles : Nat := 200

end Sys2Proof.Config
end

