-- ==== Sys2Proof/Syntax.lean ====
section
/-!
DEFINITION. The fourteen instructions of APEX-14 (spec/00_scope.md R2, spec/30_encoding.md R112), each
with the operands it uses (R113).
-/

namespace Sys2Proof

/-- A decoded instruction: its opcode and the fields that opcode uses. A field R113 marks unused is not
here, because it has no effect on any state, on readiness or on timing (R111; log entry 10). -/
inductive Instr where
  /-- `MOVC Rd,#imm`: move constant (R230). -/
  | movc (rd : RegIdx) (imm : Word)
  /-- `LOAD Rd,Rs1,#imm`: load word (R260). -/
  | load (rd rs1 : RegIdx) (imm : Word)
  /-- `STORE Rs1,Rs2,#imm`: store the word of `rs1` at base `rs2` plus `imm` (R261). -/
  | store (rs1 rs2 : RegIdx) (imm : Word)
  /-- `ADD Rd,Rs1,Rs2` (R231). -/
  | add (rd rs1 rs2 : RegIdx)
  /-- `SUB Rd,Rs1,Rs2` (R232). -/
  | sub (rd rs1 rs2 : RegIdx)
  /-- `MUL Rd,Rs1,Rs2` (R233). -/
  | mul (rd rs1 rs2 : RegIdx)
  /-- `AND Rd,Rs1,Rs2` (R234). -/
  | and (rd rs1 rs2 : RegIdx)
  /-- `OR Rd,Rs1,Rs2` (R235). -/
  | or (rd rs1 rs2 : RegIdx)
  /-- `XOR Rd,Rs1,Rs2` (R236). -/
  | xor (rd rs1 rs2 : RegIdx)
  /-- `BZ #imm`: branch if the zero flag is set (R280). -/
  | bz (imm : Word)
  /-- `BNZ #imm`: branch if the zero flag is clear (R281). -/
  | bnz (imm : Word)
  /-- `JUMP Rs1,#imm`: register-indirect jump (R282). -/
  | jump (rs1 : RegIdx) (imm : Word)
  /-- `HALT` (R300). -/
  | halt
  /-- `NOP` (R301). -/
  | nop
  deriving DecidableEq, Repr

end Sys2Proof
end

