-- ==== Sys2Proof/WellFormed.lean ====
section
/-!
DEFINITION. The decoded record of spec/30_encoding.md R110, which fields each opcode uses (R113), and
when a record is well formed (spec/60_exceptions.md R317). An `Instr` carries operands that are in range
by their types, so that it is well formed always; the record form is what a loader supplies and what can
be ill formed.
-/

namespace Sys2Proof

/-- The closed set of opcodes (R112), in the order of R115. -/
inductive Opcode where
  | movc | load | store | add | sub | mul | and | or | xor | bz | bnz | jump | halt | nop
  deriving DecidableEq, Repr

/-- The three register fields of a record. -/
inductive RegField where
  | rd | rs1 | rs2
  deriving DecidableEq, Repr

/-- Does the opcode use this register field, as a source or as the destination (R113)? -/
def Opcode.usesReg : Opcode → RegField → Bool
  | .movc, .rd => true
  | .movc, _ => false
  | .load, .rs2 => false
  | .load, _ => true
  | .store, .rd => false
  | .store, _ => true
  | .add, _ | .sub, _ | .mul, _ | .and, _ | .or, _ | .xor, _ => true
  | .jump, .rs1 => true
  | .jump, _ => false
  | .bz, _ | .bnz, _ | .halt, _ | .nop, _ => false

/-- Does the opcode use the immediate (R113)? -/
def Opcode.usesImm : Opcode → Bool
  | .movc | .load | .store | .bz | .bnz | .jump => true
  | .add | .sub | .mul | .and | .or | .xor | .halt | .nop => false

/-- The decoded record `opcode, rd, rs1, rs2, imm` as a loader supplies it: integers (R110). -/
structure Record where
  op : Opcode
  rd : Int
  rs1 : Int
  rs2 : Int
  imm : Int
  deriving DecidableEq, Repr

/-- The value a record gives one of its register fields. -/
def Record.reg (r : Record) : RegField → Int
  | .rd => r.rd
  | .rs1 => r.rs1
  | .rs2 => r.rs2

/-- A register field is in order when the opcode does not use it or its value is in 0..31 (R317). -/
def Record.regOK (r : Record) (f : RegField) : Bool :=
  !r.op.usesReg f || (decide (0 ≤ r.reg f) && decide (r.reg f < 32))

/-- The immediate is in order when the opcode does not use it or its value is in
[-2^(XLEN-1), 2^XLEN) (R317; that an unused immediate goes unchecked is log entry 17). -/
def Record.immOK (r : Record) : Bool :=
  !r.op.usesImm || (decide (-(2 ^ 31) ≤ r.imm) && decide (r.imm < 2 ^ 32))

/-- A record is well formed when every field its opcode uses is in range (R317). -/
def Record.wellFormed (r : Record) : Bool :=
  r.regOK .rd && r.regOK .rs1 && r.regOK .rs2 && r.immOK

/-- The opcode of an instruction. -/
def Instr.op : Instr → Opcode
  | .movc _ _ => .movc
  | .load _ _ _ => .load
  | .store _ _ _ => .store
  | .add _ _ _ => .add
  | .sub _ _ _ => .sub
  | .mul _ _ _ => .mul
  | .and _ _ _ => .and
  | .or _ _ _ => .or
  | .xor _ _ _ => .xor
  | .bz _ => .bz
  | .bnz _ => .bnz
  | .jump _ _ => .jump
  | .halt => .halt
  | .nop => .nop

/-- The `rd` field of an instruction, 0 where its opcode does not use it (R122). -/
def Instr.rdField : Instr → RegIdx
  | .movc rd _ | .load rd _ _ => rd
  | .add rd _ _ | .sub rd _ _ | .mul rd _ _ | .and rd _ _ | .or rd _ _ | .xor rd _ _ => rd
  | .store _ _ _ | .bz _ | .bnz _ | .jump _ _ | .halt | .nop => 0

/-- The `rs1` field of an instruction, 0 where its opcode does not use it (R122). -/
def Instr.rs1Field : Instr → RegIdx
  | .load _ rs1 _ | .store rs1 _ _ | .jump rs1 _ => rs1
  | .add _ rs1 _ | .sub _ rs1 _ | .mul _ rs1 _ | .and _ rs1 _ | .or _ rs1 _ | .xor _ rs1 _ => rs1
  | .movc _ _ | .bz _ | .bnz _ | .halt | .nop => 0

/-- The `rs2` field of an instruction, 0 where its opcode does not use it (R122). -/
def Instr.rs2Field : Instr → RegIdx
  | .store _ rs2 _ => rs2
  | .add _ _ rs2 | .sub _ _ rs2 | .mul _ _ rs2 | .and _ _ rs2 | .or _ _ rs2 | .xor _ _ rs2 => rs2
  | .movc _ _ | .load _ _ _ | .bz _ | .bnz _ | .jump _ _ | .halt | .nop => 0

/-- The `imm` field of an instruction, 0 where its opcode does not use it (R122). -/
def Instr.immField : Instr → Word
  | .movc _ imm | .load _ _ imm | .store _ _ imm | .bz imm | .bnz imm | .jump _ imm => imm
  | .add _ _ _ | .sub _ _ _ | .mul _ _ _ | .and _ _ _ | .or _ _ _ | .xor _ _ _ | .halt | .nop => 0

/-- The record of an instruction, with its unused fields written as 0 (R110, R122). -/
def Instr.record (i : Instr) : Record :=
  { op := i.op, rd := i.rdField.val, rs1 := i.rs1Field.val, rs2 := i.rs2Field.val,
    imm := i.immField.toNat }

/-- An instruction is well formed when its record is. -/
def Instr.wellFormed (i : Instr) : Bool :=
  i.record.wellFormed

end Sys2Proof
end

