-- ==== Sys2Proof/Decode.lean ====
section
/-!
DEFINITION. Decoding a REC64 word (spec/30_encoding.md R114 to R119) and a decoded record
(spec/60_exceptions.md R317, R318), and the encoder into REC64.
-/

namespace Sys2Proof

/-- The op code of R115, bits 50:47. -/
def Opcode.code : Opcode → BitVec 4
  | .movc => 0
  | .load => 1
  | .store => 2
  | .add => 3
  | .sub => 4
  | .mul => 5
  | .and => 6
  | .or => 7
  | .xor => 8
  | .bz => 9
  | .bnz => 10
  | .jump => 11
  | .halt => 12
  | .nop => 13

/-- The opcode of a code; codes 14 and 15 have none (R115, R119). -/
def Opcode.ofCode (c : BitVec 4) : Option Opcode :=
  match c.toNat with
  | 0 => some .movc
  | 1 => some .load
  | 2 => some .store
  | 3 => some .add
  | 4 => some .sub
  | 5 => some .mul
  | 6 => some .and
  | 7 => some .or
  | 8 => some .xor
  | 9 => some .bz
  | 10 => some .bnz
  | 11 => some .jump
  | 12 => some .halt
  | 13 => some .nop
  | _ => none

/-- The `mask` of every row of the opcode table (R115). -/
def opcodeMask : Rec64 := 0xFFFF800000000000

/-- The `match` value of an opcode's row, as the table of R115 writes it. -/
def Opcode.pattern : Opcode → Rec64
  | .movc => 0x0000000000000000
  | .load => 0x0000800000000000
  | .store => 0x0001000000000000
  | .add => 0x0001800000000000
  | .sub => 0x0002000000000000
  | .mul => 0x0002800000000000
  | .and => 0x0003000000000000
  | .or => 0x0003800000000000
  | .xor => 0x0004000000000000
  | .bz => 0x0004800000000000
  | .bnz => 0x0005000000000000
  | .jump => 0x0005800000000000
  | .halt => 0x0006000000000000
  | .nop => 0x0006800000000000

/-- The instruction an opcode makes of the four fields, ignoring those it does not use (R111, R118). -/
def Opcode.build (op : Opcode) (rd rs1 rs2 : RegIdx) (imm : Word) : Instr :=
  match op with
  | .movc => .movc rd imm
  | .load => .load rd rs1 imm
  | .store => .store rs1 rs2 imm
  | .add => .add rd rs1 rs2
  | .sub => .sub rd rs1 rs2
  | .mul => .mul rd rs1 rs2
  | .and => .and rd rs1 rs2
  | .or => .or rd rs1 rs2
  | .xor => .xor rd rs1 rs2
  | .bz => .bz imm
  | .bnz => .bnz imm
  | .jump => .jump rs1 imm
  | .halt => .halt
  | .nop => .nop

/-- Bits 63:51, reserved, must be 0 (R114). -/
def Rec64.reserved (w : Rec64) : BitVec 13 := w.extractLsb' 51 13

/-- Bits 50:47, the op code (R114). -/
def Rec64.code (w : Rec64) : BitVec 4 := w.extractLsb' 47 4

/-- `rd = word[46:42]` (R117). -/
def Rec64.rd (w : Rec64) : RegIdx := (w.extractLsb' 42 5).toFin

/-- `rs1 = word[41:37]` (R117). -/
def Rec64.rs1 (w : Rec64) : RegIdx := (w.extractLsb' 37 5).toFin

/-- `rs2 = word[36:32]` (R117). -/
def Rec64.rs2 (w : Rec64) : RegIdx := (w.extractLsb' 32 5).toFin

/-- `imm = word[31:0]`, neither scaled nor shifted (R116). -/
def Rec64.imm (w : Rec64) : Word := w.extractLsb' 0 32

/-- Why a REC64 word is no instruction (R119). The launch reports either as `UnsupportedOpcode`. -/
inductive DecodeError where
  /-- A bit of 63:51 is not 0. -/
  | reservedBits
  /-- The op code is 14 or 15. -/
  | reservedOpcode (code : BitVec 4)
  deriving DecidableEq, Repr

/-- Decode a REC64 word (R118), refusing the reserved encodings by name (R119). -/
def decode (w : Rec64) : Except DecodeError Instr :=
  if Rec64.reserved w = 0 then
    match Opcode.ofCode (Rec64.code w) with
    | some op => .ok (op.build (Rec64.rd w) (Rec64.rs1 w) (Rec64.rs2 w) (Rec64.imm w))
    | none => .error (.reservedOpcode (Rec64.code w))
  else .error .reservedBits

/-- Pack an op code and the four fields into a REC64 word (R114). -/
def Rec64.pack (code : BitVec 4) (rd rs1 rs2 : RegIdx) (imm : Word) : Rec64 :=
  (0 : BitVec 13) ++ code ++ BitVec.ofFin (w := 5) rd ++ BitVec.ofFin (w := 5) rs1 ++
    BitVec.ofFin (w := 5) rs2 ++ imm

/-- The REC64 word of an instruction, unused fields written as 0 (R114, R115, R122). -/
def encode (i : Instr) : Rec64 :=
  Rec64.pack i.op.code i.rdField i.rs1Field i.rs2Field i.immField

/-- Why a record is refused: a used register field outside 0..31, or an immediate that fits no
`Word` (R317). -/
inductive RecordError where
  | regOutOfRange (field : RegField) (value : Int)
  | immOutOfRange (value : Int)
  deriving DecidableEq, Repr

/-- The instruction of a record, its fields checked in the order rd, rs1, rs2, imm (R317, R318). The
immediate is stored as w(imm) (R317). -/
def Record.toInstr (r : Record) : Except RecordError Instr :=
  if !r.regOK .rd then .error (.regOutOfRange .rd r.rd)
  else if !r.regOK .rs1 then .error (.regOutOfRange .rs1 r.rs1)
  else if !r.regOK .rs2 then .error (.regOutOfRange .rs2 r.rs2)
  else if !r.immOK then .error (.immOutOfRange r.imm)
  else .ok (r.op.build (Fin.ofNat 32 r.rd.toNat) (Fin.ofNat 32 r.rs1.toNat)
    (Fin.ofNat 32 r.rs2.toNat) (BitVec.ofInt 32 r.imm))

/-- The instruction the decoder reads from a REC64 word given as a number, bit 0 the least significant
bit of the word (log entry 21). -/
def decodeTableWord (nbits w : Nat) : Option Instr :=
  if nbits ≤ 64 ∧ w < 2 ^ nbits then
    match decode (BitVec.ofNat 64 w) with
    | .ok i => some i
    | .error _ => none
  else none

end Sys2Proof
end

