-- ==== Sys2Proof/Machine/State.lean ====
section
/-!
DEFINITION. The state of the block as plain data (spec/10_state.md), its error and refusal reasons
(spec/60_exceptions.md R311) and the state after reset (R66).
-/

namespace Sys2Proof.Machine

open Sys2Proof

/-- The run-time errors of R311, codes 5 and 6. The Memory stage raises them. The spec says what state
an error leaves (R314, R315), so a raise is a next state whose `outcome` is `aborted` with one of these;
no step ends in a host fault (log entry 11). Safe: the spec's own error and nothing beyond it. -/
inductive Fault where
  /-- `OperandOutOfRange(data)`, code 5: raised by LOAD and STORE in Memory when the effective address
  `a` fails `DataAddrOK`; `pc` is the instruction's own address (R162, R163, R316). Safe. -/
  | dataOutOfRange (a pc : Word)
  /-- `OperandOutOfRange(instr)`, code 6: raised by a taken BZ, BNZ or JUMP in Memory when the target
  `t` fails `InstrAddrOK`; `pc` is the instruction's own address (R165, R316). Safe. -/
  | instrOutOfRange (t pc : Word)
  deriving DecidableEq, Repr

/-- The reason of an `InitializationError` (R311, R312). -/
inductive InitReason where
  | noProgram | emptyProgram
  deriving DecidableEq, Repr

/-- The launch-time errors of R311, codes 1 to 4. -/
inductive LaunchError where
  /-- `InitializationError`, code 1 (R312). -/
  | initialization (reason : InitReason)
  /-- `UnsupportedOpcode`, code 2: the REC64 word at `index` decodes to no instruction (R313). -/
  | unsupportedOpcode (index : Nat) (word : Rec64)
  /-- `OperandOutOfRange(reg)`, code 3: a used register field of the record at `index` (R317). -/
  | regOutOfRange (index : Nat) (field : RegField) (value : Int)
  /-- `OperandOutOfRange(imm)`, code 4: the immediate of the record at `index` (R317). -/
  | immOutOfRange (index : Nat) (value : Int)
  deriving DecidableEq, Repr

/-- Why a launch or a step is refused. -/
inductive Refusal where
  /-- An arm of `exec` whose instruction has no meaning yet. No arm raises it in this model. Safe. -/
  | notModelled (mnemonic : String)
  /-- `Refused(error, info)` of the launch (R340, R341): raised by `launch` on bad launch inputs, and by
  a step of a machine into which no program has been launched (R312, log entry 13). Safe: the spec
  creates no running block there. -/
  | launchRefused (e : LaunchError)
  deriving DecidableEq, Repr

/-- An in-flight instruction (R46). The fields `op`, `rd`, `rs1`, `rs2` and `imm` of R46 are those of
`instr` (log entry 10). -/
structure Slot where
  /-- Address of this instruction (written by Fetch). -/
  pc : Word
  /-- The instruction: opcode, register fields and immediate (written by Fetch). -/
  instr : Instr
  /-- `rs1_value`, read at issue, 0 if the opcode does not read `rs1` (written by Decode). -/
  v1 : Word
  /-- `rs2_value`, read at issue, 0 if the opcode does not read `rs2` (written by Decode). -/
  v2 : Word
  /-- `buffer`: result, effective address, loaded word or target (written by Execute and Memory). -/
  buf : Word
  /-- A BZ, BNZ or JUMP was resolved taken (written by Execute). -/
  taken : Bool
  deriving DecidableEq, Repr

/-- The content of a stage's latch (R45). A bubble is not a slot that holds a NOP (R47). -/
inductive Latch where
  | bubble
  | slot (s : Slot)
  deriving DecidableEq, Repr

/-- `fstate` (R51). -/
inductive FetchState where
  | normal | holdingPrefetch
  deriving DecidableEq, Repr

/-- `exState` (R53). -/
inductive ExState where
  | idle | mul1
  deriving DecidableEq, Repr

/-- The cause of a stop (R56): the stop flag is `none` or one of these. -/
inductive StopCause where
  | halt | lastInstruction
  deriving DecidableEq, Repr

/-- `outcome` (R56). -/
inductive RunOutcome where
  | running
  | completedNormally (cause : StopCause)
  | cycleBudgetExceeded
  | aborted (error : Fault)
  deriving DecidableEq, Repr

/-- The five stage procedures of a tick (R140). -/
inductive Stage where
  | fetch | decode | execute | memory | writeback
  deriving DecidableEq, Repr

/-- The `mode` argument of `run` (R62); no rule reads it. -/
inductive RunMode where
  | trace | silent
  deriving DecidableEq, Repr

/-- Data memory: the words that are not 0, each with its byte address, addresses strictly rising. An
address that is not listed reads as 0 (log entry 6). The cell is a word: the spec forbids a byte-level
view (R80, R87; log entry 9). -/
abbrev Memory := List (Nat × Word)

/-- The whole state of the block (R30 to R57). `stage` and the rest value of `mulBusy` are the model's
own (log entries 1 and 2). -/
structure State where
  /-- General registers R0..R31 (R30). -/
  x : Vector Word 32
  /-- Validity bitmap V (R34). -/
  valid : Vector Bool 32
  /-- Zero flag Z (R37). -/
  z : Bool
  /-- Fetch program counter (R39). -/
  pc : Word
  /-- Instruction sequence (R42). -/
  prog : List Instr
  /-- Data memory DMEM (R43). -/
  dmem : Memory
  /-- `DMEM_WORDS` = N (R11, R80). -/
  dmemWords : Nat
  /-- Fetch latch F (R45, R48). -/
  latchF : Latch
  /-- Decode latch D (R45). -/
  latchD : Latch
  /-- Execute latch E (R45). -/
  latchE : Latch
  /-- Memory latch M (R45). -/
  latchM : Latch
  /-- Writeback latch W (R45). -/
  latchW : Latch
  /-- Fetch state (R51). -/
  fstate : FetchState
  /-- Branch-wait count, 0 for not waiting (R52). -/
  brWait : Nat
  /-- Multiply sub-state (R53). -/
  exState : ExState
  /-- Speculative fetch stall (R54). -/
  brStall : Bool
  /-- Drain stall (R55). -/
  drain : Bool
  /-- Tick-local signal: Execute performed a MUL cycle in this tick (R57). -/
  mulBusy : Bool
  /-- Ticks run (R56). -/
  cycle : Nat
  /-- Instructions retired (R56). -/
  retired : Nat
  /-- Stop flag with its cause (R56). -/
  stop : Option StopCause
  /-- Run status (R56). -/
  outcome : RunOutcome
  /-- Cycle budget of the run (R11, R61). -/
  maxCycles : Nat
  /-- The stage procedure at work, the model's own (log entry 1). -/
  stage : Stage
  deriving DecidableEq, Repr

/-- The state a launch sets up: the table of R66, with the launch inputs (R340) and the model's own
`stage` and `mulBusy` at rest. -/
def State.launched (prog : List Instr) (rInit : Vector Word 32) (dmemInit : Memory) (dmemWords : Nat)
    (zInit : Bool) (maxCycles : Nat) : State :=
  { x := rInit
    valid := Vector.replicate 32 true
    z := zInit
    pc := BitVec.ofNat 32 Config.baseAddr
    prog := prog
    dmem := dmemInit
    dmemWords := dmemWords
    latchF := .bubble
    latchD := .bubble
    latchE := .bubble
    latchM := .bubble
    latchW := .bubble
    fstate := .normal
    brWait := 0
    exState := .idle
    brStall := false
    drain := false
    mulBusy := false
    cycle := 0
    retired := 0
    stop := none
    outcome := .running
    maxCycles := maxCycles
    stage := .fetch }

/-- The machine right after reset, with no program launched into it: every field as R66 states it, and
the launch inputs at the values of log entries 4 to 8 (registers 0, Z false, memory 0, N = 1000, a
budget of 200). DESIGN CHOICE for those: the spec gives none. -/
def State.reset : State :=
  State.launched [] (Vector.replicate 32 0) [] Config.resetDmemWords false Config.resetMaxCycles

end Sys2Proof.Machine
end

