-- ==== Sys2Proof/Machine/Flags.lean ====
section
/-!
DEFINITION. The one flag of the machine, Z (spec/10_state.md R37, R38).
-/

namespace Sys2Proof.Machine

open Sys2Proof

/-- What Z becomes for a result: true exactly when all 32 bits are 0 (R38, R239). -/
def zeroFlag (result : Word) : Bool :=
  result == 0

/-- Write Z from a result (R38). -/
def State.setZ (result : Word) (s : State) : State :=
  { s with z := zeroFlag result }

end Sys2Proof.Machine
end

