-- ==== Sys2Proof/Machine/Operands.lean ====
section
/-!
DEFINITION. Operand roles: which register an instruction writes and which it reads
(spec/40_pipeline.md R145), the readiness test (R182), the operand read (R183), and effective addresses
and targets (spec/42_loadstore.md R262, spec/43_control.md R284).
-/

namespace Sys2Proof.Machine

open Sys2Proof

/-- `rd` of a register-writing instruction, `none` for the others: `WRITERS` of R145. -/
def destOf : Instr → Option RegIdx
  | .movc rd _ | .load rd _ _ => some rd
  | .add rd _ _ | .sub rd _ _ | .mul rd _ _ | .and rd _ _ | .or rd _ _ | .xor rd _ _ => some rd
  | .store _ _ _ | .bz _ | .bnz _ | .jump _ _ | .halt | .nop => none

/-- `rs1` if the opcode reads it: `srcs` of R145. -/
def src1Of : Instr → Option RegIdx
  | .add _ r _ | .sub _ r _ | .mul _ r _ | .and _ r _ | .or _ r _ | .xor _ r _ => some r
  | .store r _ _ | .load _ r _ | .jump r _ => some r
  | .movc _ _ | .bz _ | .bnz _ | .halt | .nop => none

/-- `rs2` if the opcode reads it: `srcs` of R145. -/
def src2Of : Instr → Option RegIdx
  | .add _ _ r | .sub _ _ r | .mul _ _ r | .and _ _ r | .or _ _ r | .xor _ _ r => some r
  | .store _ r _ => some r
  | .movc _ _ | .load _ _ _ | .bz _ | .bnz _ | .jump _ _ | .halt | .nop => none

/-- The value of a register (R15). No register is hard-wired (R31). -/
def State.readReg (s : State) (r : RegIdx) : Word :=
  s.x[r]

/-- Write a register (R15). R0 is written like any other (R31). -/
def State.writeReg (r : RegIdx) (v : Word) (s : State) : State :=
  { s with x := s.x.set r v }

/-- The validity bit of a register (R34). -/
def State.isValid (s : State) (r : RegIdx) : Bool :=
  s.valid[r]

/-- Write a validity bit: `false` claims the register (R184), `true` releases it (R150, R146). -/
def State.setValid (r : RegIdx) (b : Bool) (s : State) : State :=
  { s with valid := s.valid.set r b }

/-- An operand the instruction does not use is never a hazard (R357). -/
def State.operandValid (s : State) : Option RegIdx → Bool
  | some r => s.isValid r
  | none => true

/-- The readiness test of R182: every source and the destination of a writer are Valid. -/
def State.ready (s : State) (rs1 rs2 rd : Option RegIdx) : Bool :=
  s.operandValid rs1 && s.operandValid rs2 && s.operandValid rd

/-- The operand read of R183: a value field the opcode does not read stays as Fetch made it. -/
def State.operandValue (s : State) (r? : Option RegIdx) (old : Word) : Word :=
  match r? with
  | some r => s.readReg r
  | none => old

/-- Effective address of LOAD and STORE: base plus offset, modulo 2^32, never scaled (R262). -/
def effectiveAddress (base imm : Word) : Word :=
  base + imm

/-- Target of BZ and BNZ from their own address, and of JUMP from its base register (R284). -/
def transferTarget (base imm : Word) : Word :=
  base + imm

end Sys2Proof.Machine
end

