-- ==== Sys2Proof/Machine/Ops.lean ====
section
/-!
DEFINITION. The shared operations of the pipeline: memories, squash and flush, raising an error, and the
work each stage does with the slot in its latch (spec/20_memory.md, spec/40_pipeline.md).
-/

namespace Sys2Proof.Machine

open Sys2Proof

/-- What a step, a stage procedure or an instruction answers. -/
abbrev Result := Host.Outcome State Fault Refusal

/-- Go on with the next state, or stop where the first part stopped. -/
def Result.andThen (r : Result) (k : State → Result) : Result :=
  match r with
  | .next s => k s
  | .fault f => .fault f
  | .refused e => .refused e

/-! ### Data memory -/

/-- The word at a byte address; an unlisted address reads as 0 (log entry 6). -/
def Memory.read : Memory → Nat → Word
  | [], _ => 0
  | (b, v) :: rest, a => if a = b then v else Memory.read rest a

/-- A cell in front of a memory, unless it holds what an unlisted address reads as. -/
def Memory.cons (a : Nat) (v : Word) (m : Memory) : Memory :=
  if v = 0 then m else (a, v) :: m

/-- Replace the word at a byte address, keeping the addresses rising and no word 0 listed. -/
def Memory.write : Memory → Nat → Word → Memory
  | [], a, v => Memory.cons a v []
  | (b, w) :: rest, a, v =>
    if a < b then Memory.cons a v ((b, w) :: rest)
    else if a = b then Memory.cons a v rest
    else (b, w) :: Memory.write rest a v

/-- Every address of a memory is at least `lo`, the addresses rise strictly and no word is 0. -/
def Memory.wfFrom (lo : Nat) : Memory → Bool
  | [] => true
  | (b, w) :: rest => decide (lo ≤ b) && (decide (w ≠ 0) && Memory.wfFrom (b + 1) rest)

/-- The canonical form: addresses strictly rising, no word listed that an unlisted address reads as. -/
def Memory.wf (m : Memory) : Bool :=
  Memory.wfFrom 0 m

/-- Every listed address names one of `n` words: a multiple of 4 below 4n (R80). -/
def Memory.inRange (n : Nat) (m : Memory) : Bool :=
  m.all fun c => decide (c.1 % 4 = 0) && decide (c.1 < 4 * n)

/-- The memory whose words from byte address `a` on are those of a list (R80: word k at 4k). -/
def Memory.ofWordsFrom (a : Nat) : List Word → Memory
  | [] => []
  | v :: rest => Memory.cons a v (Memory.ofWordsFrom (a + 4) rest)

/-- `DMEM_INIT` as a memory (R11, R99). -/
def Memory.ofWords (ws : List Word) : Memory :=
  Memory.ofWordsFrom 0 ws

/-- `DataAddrOK(a)`: a multiple of 4 and below 4N, read unsigned (R81, R82). -/
def State.dataAddrOK (s : State) (a : Word) : Bool :=
  decide (a.toNat % 4 = 0) && decide (a.toNat < 4 * s.dmemWords)

/-- `MemRead(a, 4)` (R83). -/
def State.memRead (s : State) (a : Word) : Word :=
  s.dmem.read a.toNat

/-- `MemWrite(a, 4, v)` (R83). -/
def State.memWrite (a v : Word) (s : State) : State :=
  { s with dmem := s.dmem.write a.toNat v }

/-! ### Instruction sequence -/

/-- The index of an instruction address (R39, R85). -/
def instrIndex (a : Word) : Nat :=
  (a.toNat - Config.baseAddr) / Config.iStride

/-- `InstrAddrOK(a)`: at least 4000, on the 4-unit grid, inside the sequence (R85). -/
def State.instrAddrOK (s : State) (a : Word) : Bool :=
  decide (Config.baseAddr ≤ a.toNat) && decide ((a.toNat - Config.baseAddr) % Config.iStride = 0) &&
    decide (instrIndex a < s.prog.length)

/-- `IMemRead(a)`, `none` where `InstrAddrOK(a)` fails (R85). -/
def State.imemRead (s : State) (a : Word) : Option Instr :=
  if s.instrAddrOK a then s.prog[instrIndex a]? else none

/-- `lastPC`: the address of the last instruction (R84), as a number. -/
def State.lastPC (s : State) : Nat :=
  Config.baseAddr + Config.iStride * (s.prog.length - 1)

/-! ### Errors -/

/-- Raise a run-time error: the one way an error is taken. It records the error and the faulting
instruction's address in `outcome` and changes nothing else (R17, R314, R316); the tick adds the count
of the tick (R144). There is no handler, no saved pc and no return (R321, R322). -/
def State.raise (f : Fault) (s : State) : State :=
  { s with outcome := .aborted f }

/-- Has a `raise` been reached? -/
def State.hasRaised (s : State) : Bool :=
  match s.outcome with
  | .aborted _ => true
  | .running | .completedNormally _ | .cycleBudgetExceeded => false

/-! ### Squash and flush -/

/-- The register a latch's instruction has claimed if it is past Decode (R145, R146). -/
def Latch.dest? : Latch → Option RegIdx
  | .bubble => none
  | .slot s => destOf s.instr

/-- Give back a claim (R146). -/
def State.releaseClaim (r? : Option RegIdx) (s : State) : State :=
  match r? with
  | some r => s.setValid r true
  | none => s

/-- `Squash(E)` (R146). -/
def State.squashE (s : State) : State :=
  { s.releaseClaim s.latchE.dest? with exState := .idle, latchE := .bubble }

/-- `Squash(M)` (R146). -/
def State.squashM (s : State) : State :=
  { s.releaseClaim s.latchM.dest? with latchM := .bubble }

/-- `FlushFront()` (R147). -/
def State.flushFront (s : State) : State :=
  { s with latchD := .bubble, brWait := 0, latchF := .bubble, fstate := .normal }

/-- The part of `Redirect(t)` after its address check (R165). -/
def State.redirectTo (t : Word) (s : State) : State :=
  { ({ s with pc := t }).squashE.flushFront with brStall := false }

/-! ### Fetch -/

/-- `NewSlot`: v1 = v2 = buf = 0 and taken = false (R46, R201). -/
def newSlot (i : Instr) (pc : Word) : Slot :=
  { pc := pc, instr := i, v1 := 0, v2 := 0, buf := 0, taken := false }

/-- Can Fetch hand an instruction to Decode in this tick (R201, R202)? -/
def State.canDeliver (s : State) : Bool :=
  decide (s.latchD = .bubble) && !s.mulBusy

/-- Fetch the instruction at `pc` into F and advance `pc` by 4; hand it to D if Decode can take it
(R201), else hold it as the one prefetch (R202). -/
def State.fetchInto (i : Instr) (s : State) : State :=
  if s.canDeliver then
    { s with latchF := .slot (newSlot i s.pc), latchD := .slot (newSlot i s.pc), pc := s.pc + 4 }
  else
    { s with latchF := .slot (newSlot i s.pc), pc := s.pc + 4, fstate := .holdingPrefetch }

/-! ### Decode -/

/-- The slot that issues: operands read (R183). -/
def State.readOperands (s : State) (rs1 rs2 : Option RegIdx) (d : Slot) : Slot :=
  { d with v1 := s.operandValue rs1 d.v1, v2 := s.operandValue rs2 d.v2 }

/-- Claim the destination of a writer (R184). -/
def State.claim (rd : Option RegIdx) (s : State) : State :=
  match rd with
  | some r => s.setValid r false
  | none => s

/-- Decode of an instruction that is not BZ or BNZ: issue it if it is ready, reading its operands before
it claims its destination (R182 to R185), else hold it (R186). -/
def State.issueWhenReady (rs1 rs2 rd : Option RegIdx) (s : State) : State :=
  match s.latchD with
  | .bubble => s
  | .slot d =>
    if s.ready rs1 rs2 rd then
      { s.claim rd with latchE := .slot (s.readOperands rs1 rs2 d), latchD := .bubble }
    else s

/-- Decode of BZ and BNZ: wait `BRANCH_WAIT` ticks, then issue with no operands and no claim (R187). -/
def State.waitThenIssue (s : State) : State :=
  match s.latchD with
  | .bubble => s
  | .slot d =>
    if s.brWait < Config.branchWait then { s with brWait := s.brWait + 1 }
    else { s with brWait := 0, latchE := .slot d, latchD := .bubble }

/-! ### Execute -/

/-- Move an executed slot on: `M <- e; E <- Bubble` (R172). -/
def State.moveToM (e : Slot) (s : State) : State :=
  { s with latchM := .slot e, latchE := .bubble }

/-- A one-tick computation: the result goes to `buf` and sets Z (R172, R229, R260, R261). -/
def State.compute (f : Slot → Word) (s : State) : State :=
  match s.latchE with
  | .bubble => s
  | .slot e => (s.setZ (f e)).moveToM { e with buf := f e }

/-- The two Execute cycles of MUL: compute and hold E (R170), then move on (R171). -/
def State.computeTwice (f : Slot → Word) (s : State) : State :=
  match s.latchE with
  | .bubble => s
  | .slot e =>
    match s.exState with
    | .idle =>
      { s.setZ (f e) with
        mulBusy := true, latchE := .slot { e with buf := f e }, latchM := .bubble, exState := .mul1 }
    | .mul1 => { s.moveToM e with mulBusy := true, exState := .idle }

/-- Resolve a control transfer: when taken, record the target, set Z from it and stall Fetch (R280 to
R282); when not, leave `buf` and Z (R280, R281). -/
def State.resolve (cond : State → Bool) (target : Slot → Word) (s : State) : State :=
  match s.latchE with
  | .bubble => s
  | .slot e =>
    if cond s then
      { (s.setZ (target e)).moveToM { e with buf := target e, taken := true } with brStall := true }
    else s.moveToM { e with taken := false }

/-- Execute of HALT: begin the drain (R300). -/
def State.beginDrain (s : State) : State :=
  match s.latchE with
  | .bubble => s
  | .slot e => ({ s with drain := true }).flushFront.moveToM e

/-- Execute of NOP: the slot moves on (R301). -/
def State.executeNothing (s : State) : State :=
  match s.latchE with
  | .bubble => s
  | .slot e => s.moveToM e

/-! ### Memory -/

/-- `M <- Bubble; W <- m` (R160). -/
def State.moveToW (m : Latch) (s : State) : State :=
  { s with latchM := .bubble, latchW := m }

/-- Memory of an instruction that makes no access: pass the slot on (R167). -/
def State.passOn (s : State) : State :=
  s.moveToW s.latchM

/-- `DataLoad(m)` (R162). -/
def State.dataLoad (s : State) : State :=
  match s.latchM with
  | .bubble => s.passOn
  | .slot m =>
    if s.dataAddrOK m.buf then s.moveToW (.slot { m with buf := s.memRead m.buf })
    else s.raise (.dataOutOfRange m.buf m.pc)

/-- `DataStore(m)` (R163). -/
def State.dataStore (s : State) : State :=
  match s.latchM with
  | .bubble => s.passOn
  | .slot m =>
    if s.dataAddrOK m.buf then (s.memWrite m.buf m.v1).moveToW (.slot m)
    else s.raise (.dataOutOfRange m.buf m.pc)

/-- Memory of BZ, BNZ and JUMP: redirect when taken (R164, R165). -/
def State.transfer (s : State) : State :=
  match s.latchM with
  | .bubble => s.passOn
  | .slot m =>
    if m.taken then
      if s.instrAddrOK m.buf then (s.redirectTo m.buf).moveToW (.slot m)
      else s.raise (.instrOutOfRange m.buf m.pc)
    else s.passOn

/-- Memory of HALT (R166). -/
def State.drainInMemory (s : State) : State :=
  match s.latchM with
  | .bubble => s.passOn
  | .slot m => ({ s.squashE with drain := true }).moveToW (.slot m)

/-! ### Writeback -/

/-- Count a retirement (R151) and stop at the last instruction (R152). -/
def State.retire (w : Slot) (s : State) : State :=
  { s with
    retired := s.retired + 1
    stop := if w.pc.toNat = s.lastPC then some .lastInstruction else s.stop }

/-- Writeback of a writer: commit and release (R150), then retire. -/
def State.commit (rd : RegIdx) (s : State) : State :=
  match s.latchW with
  | .bubble => s
  | .slot w => ((s.writeReg rd w.buf).setValid rd true).retire w

/-- Writeback of an instruction that writes no register (R151, R152). -/
def State.retireOnly (s : State) : State :=
  match s.latchW with
  | .bubble => s
  | .slot w => s.retire w

/-- Writeback of HALT: count it, stop, and flush everything upstream (R151 to R153). -/
def State.retireHalt (s : State) : State :=
  match s.latchW with
  | .bubble => s
  | .slot _ =>
    { ({ s with retired := s.retired + 1, stop := some .halt }).squashM.squashE.flushFront with
      drain := true }

/-! ### One instruction in one stage -/

/-- What an instruction does in the stage at work: its Slot is made in Fetch like any other's (R201,
R202), and in the other stages it does what its own rule says (log entry 1). -/
def State.inStage (s : State) (i : Instr) (decode execute memory writeback : State → State) : Result :=
  match s.stage with
  | .fetch => .next (s.fetchInto i)
  | .decode => .next (decode s)
  | .execute => .next (execute s)
  | .memory => .next (memory s)
  | .writeback => .next (writeback s)

end Sys2Proof.Machine
end

