-- ==== Sys2Proof/Machine/Alu.lean ====
section
/-!
DEFINITION. The computational instructions: MOVC, ADD, SUB, MUL, AND, OR, XOR (spec/41_alu.md). Each
meaning names, stage by stage, what the instruction's rule says of Decode, Execute, Memory and Writeback.
-/

namespace Sys2Proof.Machine

open Sys2Proof

/-- MOVC (R230): reads no register; `buf <- imm + 0`. -/
def execMovc (rd : RegIdx) (imm : Word) (s : State) : Result :=
  s.inStage (.movc rd imm)
    (decode := State.issueWhenReady none none (some rd))
    (execute := State.compute fun _ => imm + 0)
    (memory := State.passOn)
    (writeback := State.commit rd)

/-- ADD (R231): `buf <- v1 + v2`. -/
def execAdd (rd rs1 rs2 : RegIdx) (s : State) : Result :=
  s.inStage (.add rd rs1 rs2)
    (decode := State.issueWhenReady (some rs1) (some rs2) (some rd))
    (execute := State.compute fun e => e.v1 + e.v2)
    (memory := State.passOn)
    (writeback := State.commit rd)

/-- SUB (R232): `buf <- v1 + (-v2)`. -/
def execSub (rd rs1 rs2 : RegIdx) (s : State) : Result :=
  s.inStage (.sub rd rs1 rs2)
    (decode := State.issueWhenReady (some rs1) (some rs2) (some rd))
    (execute := State.compute fun e => e.v1 + -e.v2)
    (memory := State.passOn)
    (writeback := State.commit rd)

/-- MUL (R233): `buf <- v1 * v2`, low 32 bits, in two Execute ticks (R170, R171). -/
def execMul (rd rs1 rs2 : RegIdx) (s : State) : Result :=
  s.inStage (.mul rd rs1 rs2)
    (decode := State.issueWhenReady (some rs1) (some rs2) (some rd))
    (execute := State.computeTwice fun e => e.v1 * e.v2)
    (memory := State.passOn)
    (writeback := State.commit rd)

/-- AND (R234): `buf <- v1 & v2`. -/
def execAnd (rd rs1 rs2 : RegIdx) (s : State) : Result :=
  s.inStage (.and rd rs1 rs2)
    (decode := State.issueWhenReady (some rs1) (some rs2) (some rd))
    (execute := State.compute fun e => e.v1 &&& e.v2)
    (memory := State.passOn)
    (writeback := State.commit rd)

/-- OR (R235): `buf <- v1 | v2`. -/
def execOr (rd rs1 rs2 : RegIdx) (s : State) : Result :=
  s.inStage (.or rd rs1 rs2)
    (decode := State.issueWhenReady (some rs1) (some rs2) (some rd))
    (execute := State.compute fun e => e.v1 ||| e.v2)
    (memory := State.passOn)
    (writeback := State.commit rd)

/-- XOR (R236): `buf <- v1 ^ v2`. -/
def execXor (rd rs1 rs2 : RegIdx) (s : State) : Result :=
  s.inStage (.xor rd rs1 rs2)
    (decode := State.issueWhenReady (some rs1) (some rs2) (some rd))
    (execute := State.compute fun e => e.v1 ^^^ e.v2)
    (memory := State.passOn)
    (writeback := State.commit rd)

end Sys2Proof.Machine
end

