-- ==== Sys2Proof/Machine/Control.lean ====
section
/-!
DEFINITION. BZ, BNZ and JUMP (spec/43_control.md): decided in Execute, performed in Memory.
-/

namespace Sys2Proof.Machine

open Sys2Proof

/-- BZ (R280): taken when Z is true, to its own address plus `imm`. -/
def execBz (imm : Word) (s : State) : Result :=
  s.inStage (.bz imm)
    (decode := State.waitThenIssue)
    (execute := State.resolve (fun t => t.z) fun e => transferTarget e.pc imm)
    (memory := State.transfer)
    (writeback := State.retireOnly)

/-- BNZ (R281): taken when Z is false, to its own address plus `imm`. -/
def execBnz (imm : Word) (s : State) : Result :=
  s.inStage (.bnz imm)
    (decode := State.waitThenIssue)
    (execute := State.resolve (fun t => !t.z) fun e => transferTarget e.pc imm)
    (memory := State.transfer)
    (writeback := State.retireOnly)

/-- JUMP (R282): always taken, to `v1 + imm`; no branch wait, no link. -/
def execJump (rs1 : RegIdx) (imm : Word) (s : State) : Result :=
  s.inStage (.jump rs1 imm)
    (decode := State.issueWhenReady (some rs1) none none)
    (execute := State.resolve (fun _ => true) fun e => transferTarget e.v1 imm)
    (memory := State.transfer)
    (writeback := State.retireOnly)

end Sys2Proof.Machine
end

