-- ==== Sys2Proof/Machine/LoadStore.lean ====
section
/-!
DEFINITION. LOAD and STORE (spec/42_loadstore.md).
-/

namespace Sys2Proof.Machine

open Sys2Proof

/-- LOAD (R260): the address `v1 + imm` is computed in Execute and sets Z; Memory checks it and reads. -/
def execLoad (rd rs1 : RegIdx) (imm : Word) (s : State) : Result :=
  s.inStage (.load rd rs1 imm)
    (decode := State.issueWhenReady (some rs1) none (some rd))
    (execute := State.compute fun e => effectiveAddress e.v1 imm)
    (memory := State.dataLoad)
    (writeback := State.commit rd)

/-- STORE (R261): the data is `v1`, the base `v2`; the address `v2 + imm` sets Z; Memory checks it and
writes. -/
def execStore (rs1 rs2 : RegIdx) (imm : Word) (s : State) : Result :=
  s.inStage (.store rs1 rs2 imm)
    (decode := State.issueWhenReady (some rs1) (some rs2) none)
    (execute := State.compute fun e => effectiveAddress e.v2 imm)
    (memory := State.dataStore)
    (writeback := State.retireOnly)

end Sys2Proof.Machine
end

