-- ==== Sys2Proof/Machine/System.lean ====
section
/-!
DEFINITION. HALT and NOP (spec/44_system.md).
-/

namespace Sys2Proof.Machine

open Sys2Proof

/-- HALT (R300): always ready; drains in Execute, Memory and Writeback, and stops the run when it
retires. -/
def execHalt (s : State) : Result :=
  s.inStage .halt
    (decode := State.issueWhenReady none none none)
    (execute := State.beginDrain)
    (memory := State.drainInMemory)
    (writeback := State.retireHalt)

/-- NOP (R301): always ready; travels the pipeline as a slot and retires. -/
def execNop (s : State) : Result :=
  s.inStage .nop
    (decode := State.issueWhenReady none none none)
    (execute := State.executeNothing)
    (memory := State.passOn)
    (writeback := State.retireOnly)

end Sys2Proof.Machine
end

