-- ==== Sys2Proof/Machine/Tick.lean ====
section
/-!
DEFINITION. The five stage procedures, the tick that composes them (spec/40_pipeline.md R140 to R206)
and one iteration of the run loop (R210).
-/

namespace Sys2Proof.Machine

open Sys2Proof

/-- Give the floor to a stage procedure (log entry 1). -/
def State.atStage (st : Stage) (s : State) : State :=
  { s with stage := st }

/-- `writeback()` (R154, R156). -/
def writebackStage (s : State) : Result :=
  match s.latchW with
  | .bubble => .next s
  | .slot w => exec w.instr (s.atStage .writeback)

/-- `memory()` (R160, R161). -/
def memoryStage (s : State) : Result :=
  match s.latchM with
  | .bubble => .next s.passOn
  | .slot m => exec m.instr (s.atStage .memory)

/-- `execute()` (R173, R177). -/
def executeStage (s : State) : Result :=
  match s.latchE with
  | .bubble => .next s
  | .slot e => exec e.instr (s.atStage .execute)

/-- `decode()` (R180, R181, R188, R190). -/
def decodeStage (s : State) : Result :=
  if s.drain || s.mulBusy then .next s
  else
    match s.latchD with
    | .bubble => .next s
    | .slot d => exec d.instr (s.atStage .decode)

/-- Redelivery: hand the held prefetch to Decode (R203). -/
def State.redeliver (s : State) : State :=
  { s with latchD := s.latchF, fstate := .normal }

/-- `fetch()` (R200, R206): redelivery first, then a fetch if the address is in the sequence; outside it
nothing is read (R204). -/
def fetchStage (s : State) : Result :=
  if s.drain || s.brStall then .next s
  else
    match s.fstate with
    | .holdingPrefetch => if s.canDeliver then .next s.redeliver else .next s
    | .normal =>
      match s.imemRead s.pc with
      | some i => exec i (s.atStage .fetch)
      | none => if s.canDeliver then .next { s with latchF := .bubble } else .next s

/-- The start of a tick: `mulBusy <- false` (R144). -/
def State.beginTick (s : State) : State :=
  { s with mulBusy := false }

/-- The end of a tick, raised or not: `cycle <- cycle + 1` (R144). The tick-local signal and the model's
own `stage` go back to their rest values (R57, log entries 1 and 2). -/
def State.endTick (s : State) : State :=
  { s with cycle := s.cycle + 1, mulBusy := false, stage := .fetch }

/-- One tick (R144): the five procedures in their fixed order; after a raise in Memory the others are not
performed, and the tick is counted either way. -/
def tick (s : State) : Result :=
  (writebackStage s.beginTick).andThen fun s₁ =>
  (memoryStage s₁).andThen fun s₂ =>
    if s₂.hasRaised then .next s₂.endTick
    else
      (executeStage s₂).andThen fun s₃ =>
      (decodeStage s₃).andThen fun s₄ =>
      (fetchStage s₄).andThen fun s₅ => .next s₅.endTick

/-- After a tick: an abort stands (R319), a stop condition ends the run (R210, R211). -/
def State.conclude (s : State) : State :=
  if s.hasRaised then s
  else
    match s.stop with
    | none => s
    | some c => { s with outcome := .completedNormally c }

/-- Is the run still going? -/
def State.isRunning (s : State) : Bool :=
  decide (s.outcome = .running)

/-- One iteration of the run loop of R210. Once the run has ended nothing changes any more (R213, log
entry 12). Without a launched program there is no block to run (R312, log entry 13). The budget is
checked before the tick, a raise and the stop flag after it. -/
def runStep (s : State) : Result :=
  if !s.isRunning then .next s
  else if s.prog = [] then .refused (.launchRefused (.initialization .noProgram))
  else if s.maxCycles ≤ s.cycle then .next { s with outcome := .cycleBudgetExceeded }
  else (tick s).andThen fun t => .next t.conclude

end Sys2Proof.Machine
end

