-- ==== Sys2Proof/Machine/Launch.lean ====
section
/-!
DEFINITION. The block's interface (spec/10_state.md R60 to R65): launch (spec/70_reset_and_hazards.md
R340, R341), run (spec/40_pipeline.md R210, R213), the post-run accessors (R64) and the error codes
(spec/60_exceptions.md R311).
-/

namespace Sys2Proof.Machine

open Sys2Proof

/-- One instruction of the sequence as it is supplied: a REC64 word or a decoded record (R110, R114). -/
inductive ProgramItem where
  | rec64 (w : Rec64)
  | record (r : Record)
  deriving DecidableEq, Repr

/-- The launch inputs (R61). `dmemInit` gives the N words of the data memory, with N at least
`DUMP_WORDS` = 100: a constraint on the type of the input and no check of the launch (R11, R99, R341). -/
structure LaunchInput where
  program : Option (List ProgramItem)
  rInit : Vector Word 32
  dmemInit : List Word
  /-- N ≥ `DUMP_WORDS` (R11, R80, R99). -/
  enoughWords : Config.dumpWords ≤ dmemInit.length
  zInit : Bool
  maxCycles : Nat
  deriving DecidableEq, Repr

/-- Validate one instruction of the sequence (R313, R317, R318). -/
def ProgramItem.load (index : Nat) : ProgramItem → Except LaunchError Instr
  | .rec64 w =>
    match decode w with
    | .ok i => .ok i
    | .error _ => .error (.unsupportedOpcode index w)
  | .record r =>
    match r.toInstr with
    | .ok i => .ok i
    | .error (.regOutOfRange f v) => .error (.regOutOfRange index f v)
    | .error (.immOutOfRange v) => .error (.immOutOfRange index v)

/-- Validate the instructions in index order; the first error is reported (R318). -/
def loadProgram (index : Nat) : List ProgramItem → Except LaunchError (List Instr)
  | [] => .ok []
  | item :: rest =>
    match item.load index with
    | .error e => .error e
    | .ok i =>
      match loadProgram (index + 1) rest with
      | .error e => .error e
      | .ok is => .ok (i :: is)

/-- `launch(prog, R_INIT, DMEM_INIT, Z_INIT)`: Ok(block) or Refused(error, info) (R340, R341). -/
def launch (inp : LaunchInput) : Result :=
  match inp.program with
  | none => .refused (.launchRefused (.initialization .noProgram))
  | some [] => .refused (.launchRefused (.initialization .emptyProgram))
  | some (item :: rest) =>
    match loadProgram 0 (item :: rest) with
    | .error e => .refused (.launchRefused e)
    | .ok prog =>
      .next (State.launched prog inp.rInit (Memory.ofWords inp.dmemInit) inp.dmemInit.length inp.zInit
        inp.maxCycles)

/-- The loop of R210, at most `fuel` iterations. -/
def runLoop : Nat → State → Result
  | 0, s => .next s
  | fuel + 1, s =>
    if s.isRunning then (runStep s).andThen (runLoop fuel) else .next s

/-- `run(mode, maxCycles)` (R62, R210): from a running block, loop to the outcome; `mode` has no effect
(R62, R328). A call on a block whose run has ended changes nothing, and its stored outcome stands (R213). -/
def run (_mode : RunMode) (maxCycles : Nat) (s : State) : Result :=
  if s.isRunning then runLoop (maxCycles - s.cycle + 1) { s with maxCycles := maxCycles } else .next s

/-- Post-run accessor: the register file with the validity bitmap, once the run has ended (R64). -/
def State.registerFile (s : State) : Option (Vector Word 32 × Vector Bool 32) :=
  if s.isRunning then none else some (s.x, s.valid)

/-- Post-run accessor: the first `DUMP_WORDS` words of data memory, once the run has ended (R64). -/
def State.dumpWords (s : State) : Option (List Word) :=
  if s.isRunning then none
  else some ((List.range Config.dumpWords).map fun k => s.dmem.read (4 * k))

/-- The code of a launch-time error (R311). -/
def LaunchError.code : LaunchError → Nat
  | .initialization _ => 1
  | .unsupportedOpcode _ _ => 2
  | .regOutOfRange _ _ _ => 3
  | .immOutOfRange _ _ => 4

/-- The code of a run-time error (R311). -/
def Fault.code : Fault → Nat
  | .dataOutOfRange _ _ => 5
  | .instrOutOfRange _ _ => 6

/-- Launch the one-instruction program of a REC64 word into the machine, with the machine's own
registers, data memory and flag as the launch inputs and its budget, at least one tick (R340, log entry
3). A word that decodes to no instruction leaves no program (R119). -/
def State.launchWord (s : State) (nbits w : Nat) : State :=
  let prog := match decodeTableWord nbits w with
    | some i => [i]
    | none => []
  State.launched prog s.x s.dmem s.dmemWords s.z (max s.maxCycles 1)

end Sys2Proof.Machine
end

