-- ==== Sys2Proof/Machine/Step.lean ====
section
/-!
DEFINITION. One step of the machine: one iteration of the run loop, that is one tick while the run goes
on (spec/40_pipeline.md R210), and the launch of one instruction word.
-/

namespace Sys2Proof.Machine

open Sys2Proof

/-- One step. -/
def step (s : State) : Host.Outcome State Fault Refusal :=
  runStep s

/-- The machine with one instruction word launched as its program: the very next step is the tick that
fetches it and runs its Fetch stage (R344, log entry 3). -/
def State.withFetchWord (s : State) (nbits w : Nat) : State :=
  s.launchWord nbits w

end Sys2Proof.Machine
end

