-- ==== Sys2Proof/Safety.lean ====
section
/-!
DEFINITION. The terms claims use: the invariants of the pipeline between ticks, and the sequential
machine that executes one instruction at a time in program order, with which
spec/70_reset_and_hazards.md R350 compares the pipeline.
-/

namespace Sys2Proof.Machine

open Sys2Proof

/-! ### Invariants between ticks -/

/-- 1 if the latch holds a writer of `r`, else 0. -/
def Latch.claims (l : Latch) (r : RegIdx) : Nat :=
  if l.dest? = some r then 1 else 0

/-- How many claims on `r` are in flight in W, M and E. After an abort W holds an instruction that has
retired in the aborted tick already (R314), so it counts no more. -/
def State.claimCount (s : State) (r : RegIdx) : Nat :=
  (if s.hasRaised then 0 else s.latchW.claims r) + s.latchM.claims r + s.latchE.claims r

/-- The scoreboard invariant: a register is Invalid exactly when one writer of it is in flight, Valid
exactly when none is (R36, R222). -/
def State.ScoreboardExact (s : State) : Prop :=
  ∀ r : RegIdx, s.claimCount r = if s.isValid r then 0 else 1

/-- A conditional branch. -/
def isCondBranch : Instr → Bool
  | .bz _ | .bnz _ => true
  | .movc _ _ | .load _ _ _ | .store _ _ _ | .add _ _ _ | .sub _ _ _ | .mul _ _ _ | .and _ _ _
  | .or _ _ _ | .xor _ _ _ | .jump _ _ | .halt | .nop => false

/-- A control transfer. -/
def isTransfer : Instr → Bool
  | .bz _ | .bnz _ | .jump _ _ => true
  | .movc _ _ | .load _ _ _ | .store _ _ _ | .add _ _ _ | .sub _ _ _ | .mul _ _ _ | .and _ _ _
  | .or _ _ _ | .xor _ _ _ | .halt | .nop => false

/-- A multiplication. -/
def isMul : Instr → Bool
  | .mul _ _ _ => true
  | .movc _ _ | .load _ _ _ | .store _ _ _ | .add _ _ _ | .sub _ _ _ | .bz _ | .bnz _ | .and _ _ _
  | .or _ _ _ | .xor _ _ _ | .jump _ _ | .halt | .nop => false

/-- Does a latch hold a slot with this property? -/
def Latch.has (l : Latch) (p : Slot → Bool) : Bool :=
  match l with
  | .bubble => false
  | .slot s => p s

/-- `Mul1` means that E holds a MUL whose first cycle is done: its product is in `buf` and has set Z
(R53, R170). -/
def State.MulInE (s : State) : Prop :=
  s.exState = .mul1 →
    (s.latchE.has fun e => isMul e.instr && (e.buf == e.v1 * e.v2 && s.z == decide (e.buf = 0))) = true

/-- `brWait` is in 0..3, and not 0 only while a BZ or BNZ waits in D (R52). -/
def State.BranchWaits (s : State) : Prop :=
  s.brWait ≤ Config.branchWait ∧ (s.brWait ≠ 0 → (s.latchD.has fun d => isCondBranch d.instr) = true)

/-- `HoldingPrefetch` means that F holds an instruction (R51). -/
def State.PrefetchHeld (s : State) : Prop :=
  s.fstate = .holdingPrefetch → s.latchF ≠ .bubble

/-- The fetch stall stands exactly while M holds a taken transfer (R54), and no slot that has not
executed is marked taken (R46). -/
def State.StallWhileTaken (s : State) : Prop :=
  s.brStall = (s.latchM.has fun m => m.taken) ∧
    (s.latchM.has fun m => m.taken && !isTransfer m.instr) = false ∧
    (s.latchE.has fun e => e.taken) = false ∧ (s.latchD.has fun d => d.taken) = false ∧
    (s.latchF.has fun f => f.taken) = false

/-- While the drain stall is set nothing is in F, D or E, and a HALT that has executed is in M or W or
has retired (R55, R180). -/
def State.DrainEmpties (s : State) : Prop :=
  s.drain = true →
    s.latchF = .bubble ∧ s.latchD = .bubble ∧ s.latchE = .bubble ∧
      (s.stop = some .halt ∨ (s.latchM.has fun m => decide (m.instr = .halt)) = true ∨
        (s.latchW.has fun w => decide (w.instr = .halt)) = true)

/-- A latch holds the instruction of its slot's own address (R41, R46). -/
def State.FromProgram (s : State) (l : Latch) : Prop :=
  ∀ c, l = .slot c → s.imemRead c.pc = some c.instr

/-- `pc` is on the 4-unit grid (R89), and every latch holds the instruction of its slot's address. -/
def State.FetchedInPlace (s : State) : Prop :=
  s.pc.toNat % 4 = 0 ∧ s.FromProgram s.latchF ∧ s.FromProgram s.latchD ∧ s.FromProgram s.latchE ∧
    s.FromProgram s.latchM ∧ s.FromProgram s.latchW

/-- The data memory is in canonical form, lists only words below N (R80), and N is at least 100 (R99). -/
def State.MemoryOK (s : State) : Prop :=
  s.dmem.wf = true ∧ s.dmem.inRange s.dmemWords = true ∧ Config.dumpWords ≤ s.dmemWords

/-- Between ticks the tick-local signal is false and `stage` is at rest (R57). -/
def State.AtRest (s : State) : Prop :=
  s.mulBusy = false ∧ s.stage = .fetch

/-- The run status agrees with the stop flag (R56, R210, R319). -/
def State.StatusAgrees (s : State) : Prop :=
  (s.outcome = .running → s.stop = none) ∧ (∀ c, s.outcome = .completedNormally c → s.stop = some c) ∧
    (s.outcome = .cycleBudgetExceeded → s.stop = none) ∧ (s.hasRaised = true → s.stop = none)

/-- The error an executed slot raises in Memory, if any (R162, R163, R165). -/
def State.errorOf (s : State) (m : Slot) : Option Fault :=
  match m.instr with
  | .load _ _ _ | .store _ _ _ => if s.dataAddrOK m.buf then none else some (.dataOutOfRange m.buf m.pc)
  | .bz _ | .bnz _ | .jump _ _ =>
    if m.taken && !s.instrAddrOK m.buf then some (.instrOutOfRange m.buf m.pc) else none
  | .movc _ _ | .add _ _ _ | .sub _ _ _ | .mul _ _ _ | .and _ _ _ | .or _ _ _ | .xor _ _ _ | .halt
  | .nop => none

/-- After an abort the faulting instruction is still in M (R314). -/
def State.AbortInM (s : State) : Prop :=
  ∀ f, s.outcome = .aborted f → (s.latchM.has fun m => decide (s.errorOf m = some f)) = true

/-- Does a latch hold the last instruction of the sequence (R84)? -/
def State.lastIn (s : State) (l : Latch) : Bool :=
  l.has fun c => decide (c.pc.toNat = s.lastPC)

/-- No more instructions have retired than ticks have run, and the budget is not overrun (R210). -/
def State.CountersOK (s : State) : Prop :=
  s.retired ≤ s.cycle ∧ s.cycle ≤ s.maxCycles

/-! ### Program order in flight -/

/-- The address of the instruction that comes next after those past Decode: the one in D, else the held
prefetch, else the fetch pc. -/
def State.frontPc (s : State) : Word :=
  match s.latchD with
  | .slot d => d.pc
  | .bubble =>
    match s.fstate, s.latchF with
    | .holdingPrefetch, .slot f => f.pc
    | _, _ => s.pc

/-- While the run has not stopped there is something to do: the next address holds an instruction, or the
last instruction of the sequence is in flight, or a redirect or a HALT is on its way (R204, R224). -/
def State.GoesOn (s : State) : Prop :=
  s.stop = none → (s.imemRead s.frontPc).isSome = true ∨ s.brStall = true ∨ s.drain = true ∨
    s.lastIn s.latchW = true ∨ s.lastIn s.latchM = true ∨ s.lastIn s.latchE = true

/-- The slot a latch holds follows an address: it stands 4 further on. -/
def Latch.follows (l : Latch) (pc : Word) : Prop :=
  ∀ c, l = .slot c → c.pc = pc + 4

/-- Slots in flight are in program order with none missing (R220): what is in M follows what is in W,
what is in E follows the youngest before it, D and F and `pc` follow on. Behind a taken transfer that has
redirected, and behind a HALT that has executed, nothing is left. -/
structure State.InOrder (s : State) : Prop where
  haltInM : ∀ m, s.latchM = .slot m → m.instr = .halt → s.drain = true
  haltInW : ∀ w, s.latchW = .slot w → w.instr = .halt → s.drain = true ∧ s.latchM = .bubble
  takenInW : ∀ w, s.latchW = .slot w → w.taken = true → s.latchM = .bubble ∧ s.latchE = .bubble
  memAfterW : ∀ w, s.latchW = .slot w → s.latchM.follows w.pc
  exAfterM : ∀ m, s.latchM = .slot m → s.latchE.follows m.pc
  exAfterW : ∀ w, s.latchW = .slot w → s.latchM = .bubble → s.latchE.follows w.pc
  frontAfterE : s.drain = false → ∀ e, s.latchE = .slot e → s.frontPc = e.pc + 4
  frontAfterM : s.drain = false → s.latchE = .bubble → ∀ m, s.latchM = .slot m → s.frontPc = m.pc + 4
  frontAfterW : s.drain = false → s.latchE = .bubble → s.latchM = .bubble →
    ∀ w, s.latchW = .slot w → w.taken = false → s.frontPc = w.pc + 4
  heldAfterD : ∀ d f, s.latchD = .slot d → s.fstate = .holdingPrefetch → s.latchF = .slot f →
    f.pc = d.pc + 4
  pcAfterD : ∀ d, s.latchD = .slot d → s.fstate = .normal → s.pc = d.pc + 4
  pcAfterHeld : ∀ f, s.fstate = .holdingPrefetch → s.latchF = .slot f → s.pc = f.pc + 4

/-- The sequence fits the address space, so that `pc + 4` never wraps into it (D7). -/
def State.ProgramFits (s : State) : Prop :=
  Config.baseAddr + Config.iStride * s.prog.length < 2 ^ 32

/-- The invariant of the pipeline between ticks. -/
structure State.Inv (s : State) : Prop where
  scoreboard : s.ScoreboardExact
  mulInE : s.MulInE
  branchWaits : s.BranchWaits
  prefetchHeld : s.PrefetchHeld
  stallWhileTaken : s.StallWhileTaken
  drainEmpties : s.DrainEmpties
  fetchedInPlace : s.FetchedInPlace
  memoryOK : s.MemoryOK
  atRest : s.AtRest
  statusAgrees : s.StatusAgrees
  countersOK : s.CountersOK
  abortInM : s.AbortInM
  goesOn : s.prog ≠ [] → s.GoesOn
  inOrder : s.InOrder
  programFits : s.ProgramFits

/-! ### The sequential machine -/

/-- Where the sequential machine stands. -/
inductive SeqStatus where
  | running (pc : Word)
  | stopped (cause : StopCause)
  | failed (error : Fault)
  deriving DecidableEq, Repr

/-- The architectural state: what a program computes with, without the pipeline. -/
structure Arch where
  x : Vector Word 32
  z : Bool
  dmem : Memory
  /-- Instructions completed. -/
  retired : Nat
  status : SeqStatus
  deriving DecidableEq, Repr

/-- The instruction at an address of a sequence (R84, R85). -/
def seqFetch (prog : List Instr) (a : Word) : Option Instr :=
  if 4000 ≤ a.toNat ∧ (a.toNat - 4000) % 4 = 0 then prog[(a.toNat - 4000) / 4]? else none

/-- Is this the address of the last instruction (R84)? -/
def isLastPc (prog : List Instr) (pc : Word) : Bool :=
  decide (pc.toNat = 4000 + 4 * (prog.length - 1))

/-- An instruction is complete and the next one is at `t`: stop if it was the last (R151, R152, R346). -/
def Arch.complete (prog : List Instr) (pc t : Word) (a : Arch) : Arch :=
  { a with
    retired := a.retired + 1
    status := if isLastPc prog pc then .stopped .lastInstruction else .running t }

/-- A result written to a register, and Z from it (R229). -/
def Arch.result (prog : List Instr) (pc : Word) (rd : RegIdx) (v : Word) (a : Arch) : Arch :=
  ({ a with x := a.x.set rd v, z := decide (v = 0) }).complete prog pc (pc + 4)

/-- A control transfer to a target: Z from it; outside the sequence it fails (R280 to R284). A transfer
at the last address stops the run all the same (R355). -/
def Arch.goto (prog : List Instr) (pc t : Word) (a : Arch) : Arch :=
  if (seqFetch prog t).isSome then ({ a with z := decide (t = 0) }).complete prog pc t
  else { a with z := decide (t = 0), status := .failed (.instrOutOfRange t pc) }

/-- HALT retires and stops the run (R300). -/
def Arch.retireHalt (a : Arch) : Arch :=
  { a with retired := a.retired + 1, status := .stopped .halt }

/-- What one instruction at `pc` does, given the values of its operands (41_alu.md, 42_loadstore.md,
43_control.md, 44_system.md), with N data words. -/
def Arch.effect (prog : List Instr) (n : Nat) (i : Instr) (pc v1 v2 : Word) (a : Arch) : Arch :=
  match i with
  | .movc rd imm => a.result prog pc rd imm
  | .add rd _ _ => a.result prog pc rd (v1 + v2)
  | .sub rd _ _ => a.result prog pc rd (v1 - v2)
  | .mul rd _ _ => a.result prog pc rd (v1 * v2)
  | .and rd _ _ => a.result prog pc rd (v1 &&& v2)
  | .or rd _ _ => a.result prog pc rd (v1 ||| v2)
  | .xor rd _ _ => a.result prog pc rd (v1 ^^^ v2)
  | .load rd _ imm =>
    let ea := v1 + imm
    if ea.toNat % 4 = 0 ∧ ea.toNat < 4 * n then
      ({ a with x := a.x.set rd (a.dmem.read ea.toNat), z := decide (ea = 0) }).complete prog pc (pc + 4)
    else { a with z := decide (ea = 0), status := .failed (.dataOutOfRange ea pc) }
  | .store _ _ imm =>
    let ea := v2 + imm
    if ea.toNat % 4 = 0 ∧ ea.toNat < 4 * n then
      ({ a with dmem := a.dmem.write ea.toNat v1, z := decide (ea = 0) }).complete prog pc (pc + 4)
    else { a with z := decide (ea = 0), status := .failed (.dataOutOfRange ea pc) }
  | .bz imm => if a.z then a.goto prog pc (pc + imm) else a.complete prog pc (pc + 4)
  | .bnz imm => if a.z then a.complete prog pc (pc + 4) else a.goto prog pc (pc + imm)
  | .jump _ imm => a.goto prog pc (v1 + imm)
  | .halt => a.retireHalt
  | .nop => a.complete prog pc (pc + 4)

/-- The value of an operand, 0 if the opcode does not read it (R183). -/
def Arch.operand (a : Arch) : Option RegIdx → Word
  | some r => a.x[r]
  | none => 0

/-- One instruction at a time, in program order (R350). -/
def seqStep (prog : List Instr) (n : Nat) (a : Arch) : Arch :=
  match a.status with
  | .running pc =>
    match seqFetch prog pc with
    | some i => a.effect prog n i pc (a.operand (src1Of i)) (a.operand (src2Of i))
    | none => a
  | .stopped _ | .failed _ => a

/-- `k` instructions of the sequential machine. -/
def seqRun (prog : List Instr) (n : Nat) : Nat → Arch → Arch
  | 0, a => a
  | k + 1, a => seqRun prog n k (seqStep prog n a)

/-! ### The architectural state a pipeline state stands for -/

/-- Retire in order: the instruction at the last address stops the run, any other leaves the rest to
what follows it (R151, R152). -/
def Arch.retire (prog : List Instr) (pc : Word) (a : Arch) : Arch :=
  { a with
    retired := a.retired + 1
    status := if isLastPc prog pc then .stopped .lastInstruction else a.status }

/-- The register write a slot still owes. -/
def Arch.commit (i : Instr) (v : Word) (a : Arch) : Arch :=
  match destOf i with
  | some rd => { a with x := a.x.set rd v }
  | none => a

/-- Complete the instruction in W: it only has to retire. -/
def Arch.finishW (prog : List Instr) (l : Latch) (a : Arch) : Arch :=
  match l with
  | .bubble => a
  | .slot w =>
    if w.instr = .halt then a.retireHalt
    else (a.commit w.instr w.buf).retire prog w.pc

/-- Complete the instruction in M: its memory access or redirect, then retire. -/
def Arch.finishM (prog : List Instr) (n : Nat) (l : Latch) (a : Arch) : Arch :=
  match l with
  | .bubble => a
  | .slot m =>
    match m.instr with
    | .load rd _ _ =>
      if m.buf.toNat % 4 = 0 ∧ m.buf.toNat < 4 * n then
        ({ a with x := a.x.set rd (a.dmem.read m.buf.toNat) }).retire prog m.pc
      else { a with status := .failed (.dataOutOfRange m.buf m.pc) }
    | .store _ _ _ =>
      if m.buf.toNat % 4 = 0 ∧ m.buf.toNat < 4 * n then
        ({ a with dmem := a.dmem.write m.buf.toNat m.v1 }).retire prog m.pc
      else { a with status := .failed (.dataOutOfRange m.buf m.pc) }
    | .bz _ | .bnz _ | .jump _ _ =>
      if m.taken then
        if (seqFetch prog m.buf).isSome then
          ({ a with status := .running m.buf }).retire prog m.pc
        else { a with status := .failed (.instrOutOfRange m.buf m.pc) }
      else a.retire prog m.pc
    | .halt => a.retireHalt
    | .movc _ _ | .add _ _ _ | .sub _ _ _ | .mul _ _ _ | .and _ _ _ | .or _ _ _ | .xor _ _ _ | .nop =>
      (a.commit m.instr m.buf).retire prog m.pc

/-- Complete the instruction in E, unless what is before it ends the run or sends control elsewhere. -/
def Arch.finishE (prog : List Instr) (n : Nat) (l : Latch) (a : Arch) : Arch :=
  match l with
  | .bubble => a
  | .slot e =>
    match a.status with
    | .running _ => a.effect prog n e.instr e.pc e.v1 e.v2
    | .stopped _ | .failed _ => a

/-- The registers, flag, memory and count as they stand, the next instruction being the one at
`frontPc`. -/
def State.committed (s : State) : Arch :=
  { x := s.x, z := s.z, dmem := s.dmem, retired := s.retired, status := .running s.frontPc }

/-- Complete what is in M and E. A taken transfer in M sends control elsewhere, and what is behind it is
not on the path (R221). -/
def State.completeME (s : State) (a : Arch) : Arch :=
  let b := Arch.finishM s.prog s.dmemWords s.latchM a
  if s.latchM.has fun m => m.taken then b else Arch.finishE s.prog s.dmemWords s.latchE b

/-- The architectural state a pipeline state stands for: what it becomes when the instructions past
Decode are completed in program order. Once the stop flag is set nothing more is completed (R210); after
an abort W holds an instruction that has retired in the aborted tick already (R314). -/
def State.arch (s : State) : Arch :=
  match s.stop with
  | some c => { s.committed with status := .stopped c }
  | none => s.completeME (if s.hasRaised then s.committed else Arch.finishW s.prog s.latchW s.committed)

end Sys2Proof.Machine
end

