-- ==== Sys2Proof/Certificates/Slice0/Obligations.lean ====
section
/-!
DEFINITION. The statements about the model. Each docstring names the rule of spec/ it formalises; where a
clause rests on a choice of the model it names the log entry. `stage` and `mulBusy` are the model's own
bookkeeping wherever they occur (log entries 1 and 2).
-/

section

open Sys2Proof
open Sys2Proof.Machine

/-! ### Encoding and launch -/

/-- The encoded examples of R124, both ways. -/
def Obligations.ExampleWordsDecode : Prop :=
  (decode 0x0000040000000005 = .ok (.movc 1 5) ∧ encode (.movc 1 5) = 0x0000040000000005) ∧
  (decode 0x0006000000000000 = .ok .halt ∧ encode .halt = 0x0006000000000000) ∧
  (decode 0x0001844300000000 = .ok (.add 1 2 3) ∧ encode (.add 1 2 3) = 0x0001844300000000) ∧
  (decode 0x0002102500000000 = .ok (.sub 4 1 5) ∧ encode (.sub 4 1 5) = 0x0002102500000000) ∧
  (decode 0x000480000000000C = .ok (.bz 12) ∧ encode (.bz 12) = 0x000480000000000C) ∧
  (decode 0x00050000FFFFFFF8 = .ok (.bnz (-8)) ∧ encode (.bnz (-8)) = 0x00050000FFFFFFF8) ∧
  (decode 0x00008C2000000008 = .ok (.load 3 1 8) ∧ encode (.load 3 1 8) = 0x00008C2000000008) ∧
  (decode 0x0001004100000008 = .ok (.store 2 1 8) ∧ encode (.store 2 1 8) = 0x0001004100000008) ∧
  (decode 0x000580C000000000 = .ok (.jump 6 0) ∧ encode (.jump 6 0) = 0x000580C000000000)

/-- Every instruction is well formed, and decoding its word gives it back, with every operand (R114 to
R118, R122). -/
def Obligations.DecodeOfEncode : Prop :=
  ∀ i : Instr, i.wellFormed = true ∧ decode (encode i) = .ok i

/-- A word that matches a row of the table of R115 decodes to that row's opcode with the fields of R116 and
R117; at most one row matches a word (R118). -/
def Obligations.DecodeByTable : Prop :=
  ∀ (w : Rec64) (row row' : Opcode × Rec64),
    row ∈ [(Opcode.movc, 0x0000000000000000#64), (.load, 0x0000800000000000#64),
      (.store, 0x0001000000000000#64), (.add, 0x0001800000000000#64), (.sub, 0x0002000000000000#64),
      (.mul, 0x0002800000000000#64), (.and, 0x0003000000000000#64), (.or, 0x0003800000000000#64),
      (.xor, 0x0004000000000000#64), (.bz, 0x0004800000000000#64), (.bnz, 0x0005000000000000#64),
      (.jump, 0x0005800000000000#64), (.halt, 0x0006000000000000#64), (.nop, 0x0006800000000000#64)] →
    row' ∈ [(Opcode.movc, 0x0000000000000000#64), (.load, 0x0000800000000000#64),
      (.store, 0x0001000000000000#64), (.add, 0x0001800000000000#64), (.sub, 0x0002000000000000#64),
      (.mul, 0x0002800000000000#64), (.and, 0x0003000000000000#64), (.or, 0x0003800000000000#64),
      (.xor, 0x0004000000000000#64), (.bz, 0x0004800000000000#64), (.bnz, 0x0005000000000000#64),
      (.jump, 0x0005800000000000#64), (.halt, 0x0006000000000000#64), (.nop, 0x0006800000000000#64)] →
    w &&& 0xFFFF800000000000#64 = row.2 →
      decode w = .ok (row.1.build (Fin.ofNat 32 (w.toNat / 2 ^ 42)) (Fin.ofNat 32 (w.toNat / 2 ^ 37))
        (Fin.ofNat 32 (w.toNat / 2 ^ 32)) (BitVec.ofNat 32 w.toNat)) ∧
      (w &&& 0xFFFF800000000000#64 = row'.2 → row = row')

/-- A word with a bit of 63:51 set or with 14 or 15 in bits 50:47 decodes to no instruction, every other
word to one; the launch refuses it as `UnsupportedOpcode` with its index (R119). -/
def Obligations.ReservedWordsRefused : Prop :=
  ∀ w : Rec64,
    ((∃ i, decode w = .ok i) ↔ w.toNat / 2 ^ 51 = 0 ∧ w.toNat / 2 ^ 47 % 16 < 14) ∧
    ((w.toNat / 2 ^ 51 ≠ 0 ∨ w.toNat / 2 ^ 47 % 16 = 14 ∨ w.toNat / 2 ^ 47 % 16 = 15) →
      ∀ (inp : LaunchInput) (before after : List ProgramItem),
        (∀ item ∈ before, ∃ i, item.load 0 = .ok i) →
        launch { inp with program := some (before ++ .rec64 w :: after) } =
          .refused (.launchRefused (.unsupportedOpcode before.length w)))

/-- Two words of one opcode, and two records of one opcode, that agree in the fields the opcode uses give
the same instruction, so that an unused field has no effect on anything (R111, R113, R118). That the slot
keeps only the fields its opcode uses, which is why the instructions are the same, is the model's reading
(log entry 10), and so is that an unused immediate of a record goes unchecked (R317, log entry 17). -/
def Obligations.UnusedFieldsIgnored : Prop :=
  (∀ (op : Opcode) (w w' : Rec64),
    w &&& 0xFFFF800000000000#64 = op.pattern → w' &&& 0xFFFF800000000000#64 = op.pattern →
    (op.usesReg .rd = true → w.toNat / 2 ^ 42 % 32 = w'.toNat / 2 ^ 42 % 32) →
    (op.usesReg .rs1 = true → w.toNat / 2 ^ 37 % 32 = w'.toNat / 2 ^ 37 % 32) →
    (op.usesReg .rs2 = true → w.toNat / 2 ^ 32 % 32 = w'.toNat / 2 ^ 32 % 32) →
    (op.usesImm = true → w.toNat % 2 ^ 32 = w'.toNat % 2 ^ 32) → decode w = decode w') ∧
  (∀ r r' : Record, r.op = r'.op → (∀ f, r.op.usesReg f = true → r.reg f = r'.reg f) →
    (r.op.usesImm = true → r.imm = r'.imm) → r.toInstr = r'.toInstr)

/-- The launch reports the first error in the order of R318: no program, then the instructions by index,
within one the word or the fields rd, rs1, rs2, imm. -/
def Obligations.LaunchReportsFirstError : Prop :=
  ∀ inp : LaunchInput,
    launch { inp with program := none } = .refused (.launchRefused (.initialization .noProgram)) ∧
    launch { inp with program := some [] } = .refused (.launchRefused (.initialization .emptyProgram)) ∧
    ∀ before after : List ProgramItem, (∀ item ∈ before, ∃ i, item.load 0 = .ok i) →
      (∀ w : Rec64, (∀ i, decode w ≠ .ok i) →
        launch { inp with program := some (before ++ .rec64 w :: after) } =
          .refused (.launchRefused (.unsupportedOpcode before.length w))) ∧
      ∀ r : Record,
        (r.regOK .rd = false →
          launch { inp with program := some (before ++ .record r :: after) } =
            .refused (.launchRefused (.regOutOfRange before.length .rd r.rd))) ∧
        (r.regOK .rd = true → r.regOK .rs1 = false →
          launch { inp with program := some (before ++ .record r :: after) } =
            .refused (.launchRefused (.regOutOfRange before.length .rs1 r.rs1))) ∧
        (r.regOK .rd = true → r.regOK .rs1 = true → r.regOK .rs2 = false →
          launch { inp with program := some (before ++ .record r :: after) } =
            .refused (.launchRefused (.regOutOfRange before.length .rs2 r.rs2))) ∧
        (r.regOK .rd = true → r.regOK .rs1 = true → r.regOK .rs2 = true → r.immOK = false →
          launch { inp with program := some (before ++ .record r :: after) } =
            .refused (.launchRefused (.immOutOfRange before.length r.imm)))

/-- A record whose used register fields are in 0..31 and whose used immediate is in [-2^31, 2^32) gives
the instruction of its opcode with those fields, the immediate as w(imm); any other record gives none
(R317; that an unused immediate is not checked is log entry 17). -/
def Obligations.RecordsChecked : Prop :=
  ∀ r : Record,
    (((∀ f, r.op.usesReg f = true → 0 ≤ r.reg f ∧ r.reg f < 32) ∧
        (r.op.usesImm = true → -(2 ^ 31) ≤ r.imm ∧ r.imm < 2 ^ 32)) →
      ∃ i, r.toInstr = .ok i ∧ i.op = r.op ∧
        (r.op.usesReg .rd = true → (i.rdField.val : Int) = r.rd) ∧
        (r.op.usesReg .rs1 = true → (i.rs1Field.val : Int) = r.rs1) ∧
        (r.op.usesReg .rs2 = true → (i.rs2Field.val : Int) = r.rs2) ∧
        (r.op.usesImm = true → (i.immField.toNat : Int) = r.imm % 2 ^ 32)) ∧
    (∀ f, r.op.usesReg f = true → (r.reg f < 0 ∨ 32 ≤ r.reg f) → ∀ i, r.toInstr ≠ .ok i) ∧
    (r.op.usesImm = true → (r.imm < -(2 ^ 31) ∨ 2 ^ 32 ≤ r.imm) → ∀ i, r.toInstr ≠ .ok i)

/-- After the launch of a valid program every piece of state holds the value of the table of R66, and N is at
least 100 (R99). -/
def Obligations.LaunchedState : Prop :=
  ∀ (inp : LaunchInput) (items : List ProgramItem), inp.program = some items → items ≠ [] →
    (∀ item ∈ items, ∃ i, item.load 0 = .ok i) →
    ∃ t, launch inp = .next t ∧
      (t.prog.length = items.length ∧
        ∀ (k : Nat) (item : ProgramItem), items[k]? = some item → ∃ i, item.load k = .ok i ∧ t.prog[k]? = some i) ∧
      t.x = inp.rInit ∧ (∀ r : RegIdx, t.valid[r] = true) ∧ t.z = inp.zInit ∧ t.pc.toNat = 4000 ∧
      (t.dmemWords = inp.dmemInit.length ∧ 100 ≤ t.dmemWords) ∧
      (∀ k v, inp.dmemInit[k]? = some v → t.dmem.read (4 * k) = v) ∧
      (t.latchF = .bubble ∧ t.latchD = .bubble ∧ t.latchE = .bubble ∧ t.latchM = .bubble ∧
        t.latchW = .bubble) ∧
      t.fstate = .normal ∧ t.brWait = 0 ∧ t.exState = .idle ∧ t.brStall = false ∧ t.drain = false ∧
      t.cycle = 0 ∧ t.retired = 0 ∧ t.stop = none ∧ t.outcome = .running

/-- The state after reset. The registers, the flag, the memory size and contents and the budget are the
model's choice (DESIGN CHOICE, log entries 4 to 8); there is no program in it (log entry 3). -/
def Obligations.ResetState : Prop :=
  (∀ r : RegIdx, State.reset.x[r] = 0 ∧ State.reset.valid[r] = true) ∧
    (State.reset.z = false ∧ State.reset.pc.toNat = 4000 ∧ State.reset.prog = []) ∧
    (State.reset.dmemWords = 1000 ∧ State.reset.maxCycles = 200 ∧ ∀ a, State.reset.dmem.read a = 0) ∧
    (State.reset.latchF = .bubble ∧ State.reset.latchD = .bubble ∧ State.reset.latchE = .bubble ∧
      State.reset.latchM = .bubble ∧ State.reset.latchW = .bubble) ∧
    (State.reset.fstate = .normal ∧ State.reset.brWait = 0 ∧ State.reset.exState = .idle ∧
      State.reset.brStall = false ∧ State.reset.drain = false) ∧
    (State.reset.cycle = 0 ∧ State.reset.retired = 0 ∧ State.reset.stop = none ∧
      State.reset.outcome = .running)

/-- The pipeline invariant holds after reset. -/
def Obligations.InvAtReset : Prop :=
  State.reset.Inv

/-- The pipeline invariant holds after every launch of a program that fits the address space (R36, R66,
D7). -/
def Obligations.InvAtLaunch : Prop :=
  ∀ (inp : LaunchInput) (t : State), launch inp = .next t → 4000 + 4 * t.prog.length < 2 ^ 32 → t.Inv

/-! ### Memories -/

/-- A read after a write at the same address gives the value written, a write changes only that one word,
and nothing else of the state (R83); the canonical form is kept. -/
def Obligations.DataMemoryReadsWhatWasWritten : Prop :=
  ∀ (s : State) (a v : Word), s.dmem.wf = true → s.dataAddrOK a = true →
    (s.memWrite a v).memRead a = v ∧
    (∀ b : Word, b ≠ a → (s.memWrite a v).memRead b = s.memRead b) ∧
    (∀ k : Nat, k ≠ a.toNat → (s.memWrite a v).dmem.read k = s.dmem.read k) ∧
    s.memWrite a v = { s with dmem := (s.memWrite a v).dmem } ∧ (s.memWrite a v).dmem.wf = true

/-- `DataAddrOK`, and that LOAD and STORE raise in Memory where it fails, before they read or write
anything: only the run status changes (R82). -/
def Obligations.DataAddressRule : Prop :=
  ∀ (s : State) (a : Word),
    (s.dataAddrOK a = true ↔ a.toNat % 4 = 0 ∧ a.toNat < 4 * s.dmemWords) ∧
    ∀ m : Slot, s.stage = .memory → s.latchM = .slot m → m.buf = a → s.dataAddrOK a = false →
      (∀ rd rs1 imm, exec (.load rd rs1 imm) s =
        .next { s with outcome := .aborted (.dataOutOfRange a m.pc) }) ∧
      (∀ rs1 rs2 imm, exec (.store rs1 rs2 imm) s =
        .next { s with outcome := .aborted (.dataOutOfRange a m.pc) })

/-- `InstrAddrOK` and `IMemRead`; where it fails Fetch reads nothing, and a redirect raises (R85). -/
def Obligations.InstrAddressRule : Prop :=
  ∀ (s : State) (a : Word),
    (s.instrAddrOK a = true ↔
      4000 ≤ a.toNat ∧ (a.toNat - 4000) % 4 = 0 ∧ (a.toNat - 4000) / 4 < s.prog.length) ∧
    (s.instrAddrOK a = true → s.imemRead a = s.prog[(a.toNat - 4000) / 4]? ∧ s.imemRead a ≠ none) ∧
    (s.instrAddrOK a = false → s.imemRead a = none ∧
      (s.pc = a → s.fstate = .normal →
        ∃ t, fetchStage s = .next t ∧ t.pc = s.pc ∧ t.latchD = s.latchD ∧
          (t.latchF = s.latchF ∨ t.latchF = .bubble)) ∧
      ∀ (i : Instr) (m : Slot), isTransfer i = true → s.stage = .memory → s.latchM = .slot m →
        m.taken = true → m.buf = a →
        exec i s = .next { s with outcome := .aborted (.instrOutOfRange a m.pc) })

/-! ### The instructions, stage by stage -/

/-- MOVC (R230): its row; ready iff `V[rd]`; the result `imm + 0`; Z; nothing in Memory; the commit, with
the count and the stop condition of Writeback (R151, R152). -/
def Obligations.MovcEffect : Prop :=
  ∀ (rd : RegIdx) (imm : Word) (s : State) (c : Slot),
    (encode (.movc rd imm) &&& 0xFFFF800000000000#64 = 0x0000000000000000#64) ∧
    (s.stage = .decode → s.latchD = .slot c → s.valid[rd] = true →
      exec (.movc rd imm) s =
        .next { s with valid := s.valid.set rd false, latchE := .slot c, latchD := .bubble }) ∧
    (s.stage = .decode → s.latchD = .slot c → s.valid[rd] = false → exec (.movc rd imm) s = .next s) ∧
    (s.stage = .execute → s.latchE = .slot c →
      exec (.movc rd imm) s =
        .next { s with z := decide (imm + 0 = 0), latchM := .slot { c with buf := imm + 0 },
                       latchE := .bubble }) ∧
    (s.stage = .memory → s.latchM = .slot c →
      exec (.movc rd imm) s = .next { s with latchM := .bubble, latchW := .slot c }) ∧
    (s.stage = .writeback → s.latchW = .slot c →
      exec (.movc rd imm) s =
        .next { s with x := s.x.set rd c.buf, valid := s.valid.set rd true, retired := s.retired + 1,
                       stop := if c.pc.toNat = 4000 + 4 * (s.prog.length - 1) then some .lastInstruction
                               else s.stop })

/-- ADD (R231): its row; ready iff `V[rs1]`, `V[rs2]` and `V[rd]`; operands read before the claim; the sum
modulo 2^32; Z; nothing in Memory; the commit, with the count and the stop condition (R151, R152). -/
def Obligations.AddEffect : Prop :=
  ∀ (rd rs1 rs2 : RegIdx) (s : State) (c : Slot),
    (encode (.add rd rs1 rs2) &&& 0xFFFF800000000000#64 = 0x0001800000000000#64) ∧
    (s.stage = .decode → s.latchD = .slot c →
      s.valid[rs1] = true → s.valid[rs2] = true → s.valid[rd] = true →
      exec (.add rd rs1 rs2) s =
        .next { s with valid := s.valid.set rd false,
                       latchE := .slot { c with v1 := s.x[rs1], v2 := s.x[rs2] }, latchD := .bubble }) ∧
    (s.stage = .decode → s.latchD = .slot c →
      (s.valid[rs1] = false ∨ s.valid[rs2] = false ∨ s.valid[rd] = false) →
      exec (.add rd rs1 rs2) s = .next s) ∧
    (s.stage = .execute → s.latchE = .slot c →
      exec (.add rd rs1 rs2) s =
        .next { s with z := decide (c.v1 + c.v2 = 0), latchM := .slot { c with buf := c.v1 + c.v2 },
                       latchE := .bubble }) ∧
    (s.stage = .memory → s.latchM = .slot c →
      exec (.add rd rs1 rs2) s = .next { s with latchM := .bubble, latchW := .slot c }) ∧
    (s.stage = .writeback → s.latchW = .slot c →
      exec (.add rd rs1 rs2) s =
        .next { s with x := s.x.set rd c.buf, valid := s.valid.set rd true, retired := s.retired + 1,
                       stop := if c.pc.toNat = 4000 + 4 * (s.prog.length - 1) then some .lastInstruction
                               else s.stop })

/-- SUB (R232): as ADD, the result `v1 + (-v2)`, which is `v1 - v2`. -/
def Obligations.SubEffect : Prop :=
  ∀ (rd rs1 rs2 : RegIdx) (s : State) (c : Slot),
    (encode (.sub rd rs1 rs2) &&& 0xFFFF800000000000#64 = 0x0002000000000000#64) ∧
    (s.stage = .decode → s.latchD = .slot c →
      s.valid[rs1] = true → s.valid[rs2] = true → s.valid[rd] = true →
      exec (.sub rd rs1 rs2) s =
        .next { s with valid := s.valid.set rd false,
                       latchE := .slot { c with v1 := s.x[rs1], v2 := s.x[rs2] }, latchD := .bubble }) ∧
    (s.stage = .decode → s.latchD = .slot c →
      (s.valid[rs1] = false ∨ s.valid[rs2] = false ∨ s.valid[rd] = false) →
      exec (.sub rd rs1 rs2) s = .next s) ∧
    (s.stage = .execute → s.latchE = .slot c →
      exec (.sub rd rs1 rs2) s =
        .next { s with z := decide (c.v1 - c.v2 = 0), latchM := .slot { c with buf := c.v1 - c.v2 },
                       latchE := .bubble }) ∧
    (s.stage = .memory → s.latchM = .slot c →
      exec (.sub rd rs1 rs2) s = .next { s with latchM := .bubble, latchW := .slot c }) ∧
    (s.stage = .writeback → s.latchW = .slot c →
      exec (.sub rd rs1 rs2) s =
        .next { s with x := s.x.set rd c.buf, valid := s.valid.set rd true, retired := s.retired + 1,
                       stop := if c.pc.toNat = 4000 + 4 * (s.prog.length - 1) then some .lastInstruction
                               else s.stop })

/-- MUL (R233): its row; ready iff `V[rs1]`, `V[rs2]` and `V[rd]`; in its first Execute tick the low 32 bits
of the product and Z, E holding it and M kept empty; in its second it moves on (R170, R171); nothing in
Memory; the commit, with the count and the stop condition (R151, R152). -/
def Obligations.MulEffect : Prop :=
  ∀ (rd rs1 rs2 : RegIdx) (s : State) (c : Slot),
    (encode (.mul rd rs1 rs2) &&& 0xFFFF800000000000#64 = 0x0002800000000000#64) ∧
    (s.stage = .decode → s.latchD = .slot c →
      s.valid[rs1] = true → s.valid[rs2] = true → s.valid[rd] = true →
      exec (.mul rd rs1 rs2) s =
        .next { s with valid := s.valid.set rd false,
                       latchE := .slot { c with v1 := s.x[rs1], v2 := s.x[rs2] }, latchD := .bubble }) ∧
    (s.stage = .decode → s.latchD = .slot c →
      (s.valid[rs1] = false ∨ s.valid[rs2] = false ∨ s.valid[rd] = false) →
      exec (.mul rd rs1 rs2) s = .next s) ∧
    (s.stage = .execute → s.latchE = .slot c → s.exState = .idle →
      exec (.mul rd rs1 rs2) s =
        .next { s with mulBusy := true, z := decide (c.v1 * c.v2 = 0),
                       latchE := .slot { c with buf := c.v1 * c.v2 }, latchM := .bubble,
                       exState := .mul1 }) ∧
    (s.stage = .execute → s.latchE = .slot c → s.exState = .mul1 →
      exec (.mul rd rs1 rs2) s =
        .next { s with mulBusy := true, latchM := .slot c, latchE := .bubble, exState := .idle }) ∧
    (s.stage = .memory → s.latchM = .slot c →
      exec (.mul rd rs1 rs2) s = .next { s with latchM := .bubble, latchW := .slot c }) ∧
    (s.stage = .writeback → s.latchW = .slot c →
      exec (.mul rd rs1 rs2) s =
        .next { s with x := s.x.set rd c.buf, valid := s.valid.set rd true, retired := s.retired + 1,
                       stop := if c.pc.toNat = 4000 + 4 * (s.prog.length - 1) then some .lastInstruction
                               else s.stop })

/-- AND (R234): as ADD, the result `v1 & v2`. -/
def Obligations.AndEffect : Prop :=
  ∀ (rd rs1 rs2 : RegIdx) (s : State) (c : Slot),
    (encode (.and rd rs1 rs2) &&& 0xFFFF800000000000#64 = 0x0003000000000000#64) ∧
    (s.stage = .decode → s.latchD = .slot c →
      s.valid[rs1] = true → s.valid[rs2] = true → s.valid[rd] = true →
      exec (.and rd rs1 rs2) s =
        .next { s with valid := s.valid.set rd false,
                       latchE := .slot { c with v1 := s.x[rs1], v2 := s.x[rs2] }, latchD := .bubble }) ∧
    (s.stage = .decode → s.latchD = .slot c →
      (s.valid[rs1] = false ∨ s.valid[rs2] = false ∨ s.valid[rd] = false) →
      exec (.and rd rs1 rs2) s = .next s) ∧
    (s.stage = .execute → s.latchE = .slot c →
      exec (.and rd rs1 rs2) s =
        .next { s with z := decide (c.v1 &&& c.v2 = 0), latchM := .slot { c with buf := c.v1 &&& c.v2 },
                       latchE := .bubble }) ∧
    (s.stage = .memory → s.latchM = .slot c →
      exec (.and rd rs1 rs2) s = .next { s with latchM := .bubble, latchW := .slot c }) ∧
    (s.stage = .writeback → s.latchW = .slot c →
      exec (.and rd rs1 rs2) s =
        .next { s with x := s.x.set rd c.buf, valid := s.valid.set rd true, retired := s.retired + 1,
                       stop := if c.pc.toNat = 4000 + 4 * (s.prog.length - 1) then some .lastInstruction
                               else s.stop })

/-- OR (R235): as ADD, the result `v1 | v2`. -/
def Obligations.OrEffect : Prop :=
  ∀ (rd rs1 rs2 : RegIdx) (s : State) (c : Slot),
    (encode (.or rd rs1 rs2) &&& 0xFFFF800000000000#64 = 0x0003800000000000#64) ∧
    (s.stage = .decode → s.latchD = .slot c →
      s.valid[rs1] = true → s.valid[rs2] = true → s.valid[rd] = true →
      exec (.or rd rs1 rs2) s =
        .next { s with valid := s.valid.set rd false,
                       latchE := .slot { c with v1 := s.x[rs1], v2 := s.x[rs2] }, latchD := .bubble }) ∧
    (s.stage = .decode → s.latchD = .slot c →
      (s.valid[rs1] = false ∨ s.valid[rs2] = false ∨ s.valid[rd] = false) →
      exec (.or rd rs1 rs2) s = .next s) ∧
    (s.stage = .execute → s.latchE = .slot c →
      exec (.or rd rs1 rs2) s =
        .next { s with z := decide (c.v1 ||| c.v2 = 0), latchM := .slot { c with buf := c.v1 ||| c.v2 },
                       latchE := .bubble }) ∧
    (s.stage = .memory → s.latchM = .slot c →
      exec (.or rd rs1 rs2) s = .next { s with latchM := .bubble, latchW := .slot c }) ∧
    (s.stage = .writeback → s.latchW = .slot c →
      exec (.or rd rs1 rs2) s =
        .next { s with x := s.x.set rd c.buf, valid := s.valid.set rd true, retired := s.retired + 1,
                       stop := if c.pc.toNat = 4000 + 4 * (s.prog.length - 1) then some .lastInstruction
                               else s.stop })

/-- XOR (R236): as ADD, the result `v1 ^ v2`. -/
def Obligations.XorEffect : Prop :=
  ∀ (rd rs1 rs2 : RegIdx) (s : State) (c : Slot),
    (encode (.xor rd rs1 rs2) &&& 0xFFFF800000000000#64 = 0x0004000000000000#64) ∧
    (s.stage = .decode → s.latchD = .slot c →
      s.valid[rs1] = true → s.valid[rs2] = true → s.valid[rd] = true →
      exec (.xor rd rs1 rs2) s =
        .next { s with valid := s.valid.set rd false,
                       latchE := .slot { c with v1 := s.x[rs1], v2 := s.x[rs2] }, latchD := .bubble }) ∧
    (s.stage = .decode → s.latchD = .slot c →
      (s.valid[rs1] = false ∨ s.valid[rs2] = false ∨ s.valid[rd] = false) →
      exec (.xor rd rs1 rs2) s = .next s) ∧
    (s.stage = .execute → s.latchE = .slot c →
      exec (.xor rd rs1 rs2) s =
        .next { s with z := decide (c.v1 ^^^ c.v2 = 0), latchM := .slot { c with buf := c.v1 ^^^ c.v2 },
                       latchE := .bubble }) ∧
    (s.stage = .memory → s.latchM = .slot c →
      exec (.xor rd rs1 rs2) s = .next { s with latchM := .bubble, latchW := .slot c }) ∧
    (s.stage = .writeback → s.latchW = .slot c →
      exec (.xor rd rs1 rs2) s =
        .next { s with x := s.x.set rd c.buf, valid := s.valid.set rd true, retired := s.retired + 1,
                       stop := if c.pc.toNat = 4000 + 4 * (s.prog.length - 1) then some .lastInstruction
                               else s.stop })

/-- LOAD (R260): its row; ready iff `V[rs1]` and `V[rd]`; the effective address `v1 + imm` and Z from it; the
word read in Memory, or the error where `DataAddrOK` fails; the commit, with the count and the stop
condition (R151, R152). -/
def Obligations.LoadEffect : Prop :=
  ∀ (rd rs1 : RegIdx) (imm : Word) (s : State) (c : Slot),
    (encode (.load rd rs1 imm) &&& 0xFFFF800000000000#64 = 0x0000800000000000#64) ∧
    (s.stage = .decode → s.latchD = .slot c → s.valid[rs1] = true → s.valid[rd] = true →
      exec (.load rd rs1 imm) s =
        .next { s with valid := s.valid.set rd false, latchE := .slot { c with v1 := s.x[rs1] },
                       latchD := .bubble }) ∧
    (s.stage = .decode → s.latchD = .slot c → (s.valid[rs1] = false ∨ s.valid[rd] = false) →
      exec (.load rd rs1 imm) s = .next s) ∧
    (s.stage = .execute → s.latchE = .slot c →
      exec (.load rd rs1 imm) s =
        .next { s with z := decide (c.v1 + imm = 0), latchM := .slot { c with buf := c.v1 + imm },
                       latchE := .bubble }) ∧
    (s.stage = .memory → s.latchM = .slot c → c.buf.toNat % 4 = 0 → c.buf.toNat < 4 * s.dmemWords →
      exec (.load rd rs1 imm) s =
        .next { s with latchM := .bubble,
                       latchW := .slot { c with buf := s.dmem.read c.buf.toNat } }) ∧
    (s.stage = .memory → s.latchM = .slot c → (c.buf.toNat % 4 ≠ 0 ∨ 4 * s.dmemWords ≤ c.buf.toNat) →
      exec (.load rd rs1 imm) s =
        .next { s with outcome := .aborted (.dataOutOfRange c.buf c.pc) }) ∧
    (s.stage = .writeback → s.latchW = .slot c →
      exec (.load rd rs1 imm) s =
        .next { s with x := s.x.set rd c.buf, valid := s.valid.set rd true, retired := s.retired + 1,
                       stop := if c.pc.toNat = 4000 + 4 * (s.prog.length - 1) then some .lastInstruction
                               else s.stop })

/-- STORE (R261): its row; ready iff `V[rs1]` and `V[rs2]`; data `v1`, base `v2`, no claim; the effective
address `v2 + imm` and Z from it; the word written in Memory, or the error where `DataAddrOK` fails; no
register write, the count and the stop condition (R151, R152). -/
def Obligations.StoreEffect : Prop :=
  ∀ (rs1 rs2 : RegIdx) (imm : Word) (s : State) (c : Slot),
    (encode (.store rs1 rs2 imm) &&& 0xFFFF800000000000#64 = 0x0001000000000000#64) ∧
    (s.stage = .decode → s.latchD = .slot c → s.valid[rs1] = true → s.valid[rs2] = true →
      exec (.store rs1 rs2 imm) s =
        .next { s with latchE := .slot { c with v1 := s.x[rs1], v2 := s.x[rs2] }, latchD := .bubble }) ∧
    (s.stage = .decode → s.latchD = .slot c → (s.valid[rs1] = false ∨ s.valid[rs2] = false) →
      exec (.store rs1 rs2 imm) s = .next s) ∧
    (s.stage = .execute → s.latchE = .slot c →
      exec (.store rs1 rs2 imm) s =
        .next { s with z := decide (c.v2 + imm = 0), latchM := .slot { c with buf := c.v2 + imm },
                       latchE := .bubble }) ∧
    (s.stage = .memory → s.latchM = .slot c → c.buf.toNat % 4 = 0 → c.buf.toNat < 4 * s.dmemWords →
      exec (.store rs1 rs2 imm) s =
        .next { s with dmem := s.dmem.write c.buf.toNat c.v1, latchM := .bubble, latchW := .slot c }) ∧
    (s.stage = .memory → s.latchM = .slot c → (c.buf.toNat % 4 ≠ 0 ∨ 4 * s.dmemWords ≤ c.buf.toNat) →
      exec (.store rs1 rs2 imm) s =
        .next { s with outcome := .aborted (.dataOutOfRange c.buf c.pc) }) ∧
    (s.stage = .writeback → s.latchW = .slot c →
      exec (.store rs1 rs2 imm) s =
        .next { s with retired := s.retired + 1,
                       stop := if c.pc.toNat = 4000 + 4 * (s.prog.length - 1) then some .lastInstruction
                               else s.stop })

/-- BZ (R280): its row; the wait of three ticks in Decode, then the issue, no operand and no claim; taken
exactly when Z is true, to its own address plus `imm`, with Z from the target and the fetch stall; the
redirect in Memory, or the error where `InstrAddrOK` fails, both only when taken; the count and the stop
condition (R151, R152). -/
def Obligations.BzEffect : Prop :=
  ∀ (imm : Word) (s : State) (c : Slot),
    (encode (.bz imm) &&& 0xFFFF800000000000#64 = 0x0004800000000000#64) ∧
    (s.stage = .decode → s.latchD = .slot c → s.brWait < 3 →
      exec (.bz imm) s = .next { s with brWait := s.brWait + 1 }) ∧
    (s.stage = .decode → s.latchD = .slot c → 3 ≤ s.brWait →
      exec (.bz imm) s = .next { s with brWait := 0, latchE := .slot c, latchD := .bubble }) ∧
    (s.stage = .execute → s.latchE = .slot c → s.z = true →
      exec (.bz imm) s =
        .next { s with z := decide (c.pc + imm = 0),
                       latchM := .slot { c with buf := c.pc + imm, taken := true },
                       latchE := .bubble, brStall := true }) ∧
    (s.stage = .execute → s.latchE = .slot c → s.z = false →
      exec (.bz imm) s = .next { s with latchM := .slot { c with taken := false }, latchE := .bubble }) ∧
    (s.stage = .memory → s.latchM = .slot c → c.taken = true → s.instrAddrOK c.buf = true →
      exec (.bz imm) s = .next { s.redirectTo c.buf with latchM := .bubble, latchW := .slot c }) ∧
    (s.stage = .memory → s.latchM = .slot c → c.taken = true → s.instrAddrOK c.buf = false →
      exec (.bz imm) s = .next { s with outcome := .aborted (.instrOutOfRange c.buf c.pc) }) ∧
    (s.stage = .memory → s.latchM = .slot c → c.taken = false →
      exec (.bz imm) s = .next { s with latchM := .bubble, latchW := .slot c }) ∧
    (s.stage = .writeback → s.latchW = .slot c →
      exec (.bz imm) s =
        .next { s with retired := s.retired + 1,
                       stop := if c.pc.toNat = 4000 + 4 * (s.prog.length - 1) then some .lastInstruction
                               else s.stop })

/-- BNZ (R281): as BZ, taken exactly when Z is false. -/
def Obligations.BnzEffect : Prop :=
  ∀ (imm : Word) (s : State) (c : Slot),
    (encode (.bnz imm) &&& 0xFFFF800000000000#64 = 0x0005000000000000#64) ∧
    (s.stage = .decode → s.latchD = .slot c → s.brWait < 3 →
      exec (.bnz imm) s = .next { s with brWait := s.brWait + 1 }) ∧
    (s.stage = .decode → s.latchD = .slot c → 3 ≤ s.brWait →
      exec (.bnz imm) s = .next { s with brWait := 0, latchE := .slot c, latchD := .bubble }) ∧
    (s.stage = .execute → s.latchE = .slot c → s.z = false →
      exec (.bnz imm) s =
        .next { s with z := decide (c.pc + imm = 0),
                       latchM := .slot { c with buf := c.pc + imm, taken := true },
                       latchE := .bubble, brStall := true }) ∧
    (s.stage = .execute → s.latchE = .slot c → s.z = true →
      exec (.bnz imm) s = .next { s with latchM := .slot { c with taken := false }, latchE := .bubble }) ∧
    (s.stage = .memory → s.latchM = .slot c → c.taken = true → s.instrAddrOK c.buf = true →
      exec (.bnz imm) s = .next { s.redirectTo c.buf with latchM := .bubble, latchW := .slot c }) ∧
    (s.stage = .memory → s.latchM = .slot c → c.taken = true → s.instrAddrOK c.buf = false →
      exec (.bnz imm) s = .next { s with outcome := .aborted (.instrOutOfRange c.buf c.pc) }) ∧
    (s.stage = .memory → s.latchM = .slot c → c.taken = false →
      exec (.bnz imm) s = .next { s with latchM := .bubble, latchW := .slot c }) ∧
    (s.stage = .writeback → s.latchW = .slot c →
      exec (.bnz imm) s =
        .next { s with retired := s.retired + 1,
                       stop := if c.pc.toNat = 4000 + 4 * (s.prog.length - 1) then some .lastInstruction
                               else s.stop })

/-- JUMP (R282): its row; ready iff `V[rs1]`, no wait, no claim; always taken, to `v1 + imm`, with Z from the
target and the fetch stall; the redirect in Memory, or the error where `InstrAddrOK` fails; no link; the
count and the stop condition (R151, R152). -/
def Obligations.JumpEffect : Prop :=
  ∀ (rs1 : RegIdx) (imm : Word) (s : State) (c : Slot),
    (encode (.jump rs1 imm) &&& 0xFFFF800000000000#64 = 0x0005800000000000#64) ∧
    (s.stage = .decode → s.latchD = .slot c → s.valid[rs1] = true →
      exec (.jump rs1 imm) s =
        .next { s with latchE := .slot { c with v1 := s.x[rs1] }, latchD := .bubble }) ∧
    (s.stage = .decode → s.latchD = .slot c → s.valid[rs1] = false →
      exec (.jump rs1 imm) s = .next s) ∧
    (s.stage = .execute → s.latchE = .slot c →
      exec (.jump rs1 imm) s =
        .next { s with z := decide (c.v1 + imm = 0),
                       latchM := .slot { c with buf := c.v1 + imm, taken := true },
                       latchE := .bubble, brStall := true }) ∧
    (s.stage = .memory → s.latchM = .slot c → c.taken = true → s.instrAddrOK c.buf = true →
      exec (.jump rs1 imm) s = .next { s.redirectTo c.buf with latchM := .bubble, latchW := .slot c }) ∧
    (s.stage = .memory → s.latchM = .slot c → c.taken = true → s.instrAddrOK c.buf = false →
      exec (.jump rs1 imm) s = .next { s with outcome := .aborted (.instrOutOfRange c.buf c.pc) }) ∧
    (s.stage = .writeback → s.latchW = .slot c →
      exec (.jump rs1 imm) s =
        .next { s with retired := s.retired + 1,
                       stop := if c.pc.toNat = 4000 + 4 * (s.prog.length - 1) then some .lastInstruction
                               else s.stop })

/-- HALT (R300): its row; always ready, reads and claims nothing; in Execute the drain stall and an empty
front; in Memory E squashed and the drain stall; in Writeback the count, the stop flag whatever the address,
and everything upstream flushed (R151 to R153). -/
def Obligations.HaltEffect : Prop :=
  ∀ (s : State) (c : Slot),
    (encode .halt &&& 0xFFFF800000000000#64 = 0x0006000000000000#64) ∧
    (s.stage = .decode → s.latchD = .slot c →
      exec .halt s = .next { s with latchE := .slot c, latchD := .bubble }) ∧
    (s.stage = .execute → s.latchE = .slot c →
      exec .halt s =
        .next { s with drain := true, latchD := .bubble, brWait := 0, latchF := .bubble,
                       fstate := .normal, latchM := .slot c, latchE := .bubble }) ∧
    (s.stage = .memory → s.latchM = .slot c →
      exec .halt s =
        .next { s.squashE with drain := true, latchM := .bubble, latchW := .slot c }) ∧
    (s.stage = .writeback → s.latchW = .slot c →
      exec .halt s =
        .next { s.squashM.squashE with retired := s.retired + 1, stop := some .halt, latchD := .bubble,
                                       brWait := 0, latchF := .bubble, fstate := .normal,
                                       drain := true })

/-- NOP (R301): its row; always ready, reads and claims nothing; its slot moves on in Execute and Memory with
nothing changed; the count and the stop condition (R151, R152). -/
def Obligations.NopEffect : Prop :=
  ∀ (s : State) (c : Slot),
    (encode .nop &&& 0xFFFF800000000000#64 = 0x0006800000000000#64) ∧
    (s.stage = .decode → s.latchD = .slot c →
      exec .nop s = .next { s with latchE := .slot c, latchD := .bubble }) ∧
    (s.stage = .execute → s.latchE = .slot c →
      exec .nop s = .next { s with latchM := .slot c, latchE := .bubble }) ∧
    (s.stage = .memory → s.latchM = .slot c →
      exec .nop s = .next { s with latchM := .bubble, latchW := .slot c }) ∧
    (s.stage = .writeback → s.latchW = .slot c →
      exec .nop s =
        .next { s with retired := s.retired + 1,
                       stop := if c.pc.toNat = 4000 + 4 * (s.prog.length - 1) then some .lastInstruction
                               else s.stop })

/-! ### Shared operations and stage procedures -/

/-- `Squash(E)`, `Squash(M)` (R146) and `FlushFront()` (R147). -/
def Obligations.SquashAndFlush : Prop :=
  ∀ s : State,
    (s.latchE = .bubble → s.squashE = { s with exState := .idle }) ∧
    (∀ c rd, s.latchE = .slot c → destOf c.instr = some rd →
      s.squashE = { s with valid := s.valid.set rd true, exState := .idle, latchE := .bubble }) ∧
    (∀ c, s.latchE = .slot c → destOf c.instr = none →
      s.squashE = { s with exState := .idle, latchE := .bubble }) ∧
    (s.latchM = .bubble → s.squashM = s) ∧
    (∀ c rd, s.latchM = .slot c → destOf c.instr = some rd →
      s.squashM = { s with valid := s.valid.set rd true, latchM := .bubble }) ∧
    (∀ c, s.latchM = .slot c → destOf c.instr = none → s.squashM = { s with latchM := .bubble }) ∧
    s.flushFront = { s with latchD := .bubble, brWait := 0, latchF := .bubble, fstate := .normal }

/-- `Redirect(t)` of a taken BZ, BNZ or JUMP in Memory: the error where the target is outside the sequence,
with nothing else changed; else `pc`, the squash of E, the flush of D and F, and the end of the fetch stall
(R165). -/
def Obligations.RedirectRule : Prop :=
  ∀ (i : Instr) (s : State) (m : Slot), isTransfer i = true → s.stage = .memory → s.latchM = .slot m →
    m.taken = true →
    (s.instrAddrOK m.buf = false →
      exec i s = .next { s with outcome := .aborted (.instrOutOfRange m.buf m.pc) }) ∧
    (s.instrAddrOK m.buf = true →
      (∀ e rd, s.latchE = .slot e → destOf e.instr = some rd →
        exec i s = .next { s with pc := m.buf, valid := s.valid.set rd true, exState := .idle,
                                  latchE := .bubble, latchD := .bubble, brWait := 0, latchF := .bubble,
                                  fstate := .normal, brStall := false, latchM := .bubble,
                                  latchW := .slot m }) ∧
      ((s.latchE = .bubble ∨ ∃ e, s.latchE = .slot e ∧ destOf e.instr = none) →
        exec i s = .next { s with pc := m.buf, exState := .idle, latchE := .bubble, latchD := .bubble,
                                  brWait := 0, latchF := .bubble, fstate := .normal, brStall := false,
                                  latchM := .bubble, latchW := .slot m }))

/-- The Decode procedure (R190). -/
def Obligations.DecodeProcedure : Prop :=
  ∀ s : State,
    ((s.drain = true ∨ s.mulBusy = true ∨ s.latchD = .bubble) → decodeStage s = .next s) ∧
    ∀ d, s.drain = false → s.mulBusy = false → s.latchD = .slot d →
      (isCondBranch d.instr = true → s.brWait < 3 →
        decodeStage s = .next { s with stage := .decode, brWait := s.brWait + 1 }) ∧
      (isCondBranch d.instr = true → 3 ≤ s.brWait →
        decodeStage s =
          .next { s with stage := .decode, brWait := 0, latchE := .slot d, latchD := .bubble }) ∧
      (isCondBranch d.instr = false →
        (∃ r, (src1Of d.instr = some r ∨ src2Of d.instr = some r ∨ destOf d.instr = some r) ∧
          s.valid[r] = false) →
        decodeStage s = .next { s with stage := .decode }) ∧
      (isCondBranch d.instr = false →
        (∀ r, (src1Of d.instr = some r ∨ src2Of d.instr = some r ∨ destOf d.instr = some r) →
          s.valid[r] = true) →
        decodeStage s =
          .next { s with stage := .decode
                         valid := (match destOf d.instr with
                           | some rd => s.valid.set rd false
                           | none => s.valid)
                         latchE := .slot { d with
                           v1 := (match src1Of d.instr with
                             | some r => s.x[r]
                             | none => d.v1)
                           v2 := (match src2Of d.instr with
                             | some r => s.x[r]
                             | none => d.v2) }
                         latchD := .bubble })

/-- The Fetch procedure (R206). -/
def Obligations.FetchProcedure : Prop :=
  ∀ s : State,
    ((s.drain = true ∨ s.brStall = true) → fetchStage s = .next s) ∧
    (s.drain = false → s.brStall = false → s.latchD = .bubble → s.mulBusy = false →
      (s.fstate = .holdingPrefetch →
        fetchStage s = .next { s with latchD := s.latchF, fstate := .normal }) ∧
      (∀ i, s.fstate = .normal → s.imemRead s.pc = some i →
        fetchStage s =
          .next { s with stage := .fetch, latchF := .slot ⟨s.pc, i, 0, 0, 0, false⟩,
                         latchD := .slot ⟨s.pc, i, 0, 0, 0, false⟩, pc := s.pc + 4 }) ∧
      (s.fstate = .normal → s.imemRead s.pc = none →
        fetchStage s = .next { s with latchF := .bubble })) ∧
    (s.drain = false → s.brStall = false → (s.latchD ≠ .bubble ∨ s.mulBusy = true) →
      (∀ i, s.fstate = .normal → s.imemRead s.pc = some i →
        fetchStage s =
          .next { s with stage := .fetch, latchF := .slot ⟨s.pc, i, 0, 0, 0, false⟩, pc := s.pc + 4,
                         fstate := .holdingPrefetch }) ∧
      ((s.fstate = .holdingPrefetch ∨ s.imemRead s.pc = none) → fetchStage s = .next s))

/-- The Writeback procedure (R156). -/
def Obligations.WritebackProcedure : Prop :=
  ∀ s : State,
    (s.latchW = .bubble → writebackStage s = .next s) ∧
    ∀ w, s.latchW = .slot w →
      (∀ rd, destOf w.instr = some rd →
        writebackStage s =
          .next { s with stage := .writeback, x := s.x.set rd w.buf, valid := s.valid.set rd true,
                         retired := s.retired + 1,
                         stop := if w.pc.toNat = 4000 + 4 * (s.prog.length - 1) then some .lastInstruction
                                 else s.stop }) ∧
      (destOf w.instr = none → w.instr ≠ .halt →
        writebackStage s =
          .next { s with stage := .writeback, retired := s.retired + 1,
                         stop := if w.pc.toNat = 4000 + 4 * (s.prog.length - 1) then some .lastInstruction
                                 else s.stop }) ∧
      (w.instr = .halt →
        writebackStage s =
          .next { s.squashM.squashE with stage := .writeback, retired := s.retired + 1, stop := some .halt,
                                         latchD := .bubble, brWait := 0, latchF := .bubble,
                                         fstate := .normal, drain := true })

/-- One step of a running block is one tick: the procedures Writeback, Memory, Execute, Decode, Fetch in
that order, each on the state the one before it left, then the count; after a raise in Memory only the count
(R144). Before the tick the budget ends the run, after it the stop flag does (R210). -/
def Obligations.StepIsOneTick : Prop :=
  ∀ s : State, s.outcome = .running → s.prog ≠ [] →
    (s.maxCycles ≤ s.cycle → step s = .next { s with outcome := .cycleBudgetExceeded }) ∧
    (s.cycle < s.maxCycles → ∀ s₁ s₂ s₃ s₄ s₅ : State,
      writebackStage { s with mulBusy := false } = .next s₁ → memoryStage s₁ = .next s₂ →
      executeStage s₂ = .next s₃ → decodeStage s₃ = .next s₄ → fetchStage s₄ = .next s₅ →
      (∀ f, s₂.outcome = .aborted f →
        step s = .next { s₂ with cycle := s.cycle + 1, mulBusy := false, stage := .fetch }) ∧
      ((∀ f, s₂.outcome ≠ .aborted f) → s₅.stop = none →
        step s = .next { s₅ with cycle := s.cycle + 1, mulBusy := false, stage := .fetch }) ∧
      (∀ c, (∀ f, s₂.outcome ≠ .aborted f) → s₅.stop = some c →
        step s = .next { s₅ with cycle := s.cycle + 1, mulBusy := false, stage := .fetch,
                                 outcome := .completedNormally c }))

/-- Each stage procedure runs `exec` of the instruction in its latch, Fetch of the one at `pc`, Decode only
when neither the drain stall nor a MUL holds it, Fetch only when nothing stalls it (R141, R143, R160, R177,
R190, R206; which stage is at work is told by `stage`, log entry 1). -/
def Obligations.StagesRunTheirInstruction : Prop :=
  ∀ (s : State) (c : Slot),
    (s.latchW = .slot c → writebackStage s = exec c.instr { s with stage := .writeback }) ∧
    (s.latchM = .slot c → memoryStage s = exec c.instr { s with stage := .memory }) ∧
    (s.latchE = .slot c → executeStage s = exec c.instr { s with stage := .execute }) ∧
    (s.latchD = .slot c → s.drain = false → s.mulBusy = false →
      decodeStage s = exec c.instr { s with stage := .decode }) ∧
    (∀ i, s.imemRead s.pc = some i → s.drain = false → s.brStall = false → s.fstate = .normal →
      fetchStage s = exec i { s with stage := .fetch })

/-- A step of a running block whose latches W, M, E and D are empty is `exec` of the instruction at `pc`, and
the count; the word a launch has placed there is the instruction it decodes to (R144, R201, R344; the launch
of one word is log entry 3). -/
def Obligations.StepRunsTheFetchedInstruction : Prop :=
  (∀ (s : State) (i : Instr), s.outcome = .running → s.cycle < s.maxCycles → s.stop = none →
    s.latchW = .bubble → s.latchM = .bubble → s.latchE = .bubble → s.latchD = .bubble →
    s.drain = false → s.brStall = false → s.fstate = .normal → s.mulBusy = false → s.stage = .fetch →
    s.imemRead s.pc = some i →
    ∃ t, exec i s = .next t ∧ step s = .next { t with cycle := s.cycle + 1 }) ∧
  (∀ (s : State) (w : Nat) (i : Instr), w < 2 ^ 64 → decode (BitVec.ofNat 64 w) = .ok i →
    (s.withFetchWord 64 w).imemRead (s.withFetchWord 64 w).pc = some i ∧
    ∃ t, exec i (s.withFetchWord 64 w) = .next t ∧
      step (s.withFetchWord 64 w) = .next { t with cycle := 1 })

/-- When Memory raises: the rest of the tick is not performed, the tick is counted, the outcome is the error,
the faulting instruction is still in M, and Writeback has been performed (R314). No further tick runs (R314,
R213); that a further step answers the same state is the model's choice (log entry 12). -/
def Obligations.AbortEndsTheRun : Prop :=
  ∀ (s u : State) (m : Slot) (f : Fault), s.outcome = .running → s.prog ≠ [] → s.cycle < s.maxCycles →
    writebackStage { s with mulBusy := false } = .next u → u.latchM = .slot m → u.errorOf m = some f →
    ∃ t, step s = .next t ∧
      t = { u with cycle := s.cycle + 1, outcome := .aborted f, mulBusy := false, stage := .fetch } ∧
      t.latchM = .slot m ∧ step t = .next t

/-! ### Frames -/

/-- Registers are written in Writeback only, by the eight writers only, each writing only its `rd`, with the
buffer of the slot in W (R32, R145, R150). -/
def Obligations.RegistersFrame : Prop :=
  ∀ (i : Instr) (s t : State), exec i s = .next t →
    (s.stage ≠ .writeback → t.x = s.x) ∧ (s.latchW = .bubble → t.x = s.x) ∧ (destOf i = none → t.x = s.x) ∧
    ∀ rd w, s.stage = .writeback → destOf i = some rd → s.latchW = .slot w →
      t.x[rd] = w.buf ∧ ∀ q : RegIdx, q ≠ rd → t.x[q] = s.x[q]

/-- The validity bitmap is written at three places only: a claim in Decode, a release in Writeback, a squash
by a redirect or a HALT (R35). -/
def Obligations.ValidityFrame : Prop :=
  ∀ (i : Instr) (s t : State) (q : RegIdx), exec i s = .next t → t.valid[q] ≠ s.valid[q] →
    (s.stage = .decode ∧ destOf i = some q ∧ t.valid[q] = false) ∨
    (s.stage = .writeback ∧ destOf i = some q ∧ t.valid[q] = true) ∨
    (s.stage = .memory ∧ (isTransfer i = true ∨ i = .halt) ∧ s.latchE.dest? = some q ∧ t.valid[q] = true) ∨
    (s.stage = .writeback ∧ i = .halt ∧ (s.latchM.dest? = some q ∨ s.latchE.dest? = some q) ∧
      t.valid[q] = true)

/-- Z is written in Execute only, with `(result == 0)`: by MOVC, ADD, SUB, AND, OR, XOR and by MUL in its
first cycle with their result, by LOAD and STORE with their address, by a taken BZ or BNZ and by JUMP with
their target; a BZ or BNZ not taken, HALT, NOP, the second cycle of a MUL and a bubble leave it (R38). -/
def Obligations.ZeroFlagRule : Prop :=
  ∀ (i : Instr) (s t : State), exec i s = .next t →
    (s.stage ≠ .execute → t.z = s.z) ∧ (s.latchE = .bubble → t.z = s.z) ∧
    ∀ e, s.stage = .execute → s.latchE = .slot e →
      t.z = (match i with
        | .movc _ imm => decide (imm = 0)
        | .add _ _ _ => decide (e.v1 + e.v2 = 0)
        | .sub _ _ _ => decide (e.v1 - e.v2 = 0)
        | .and _ _ _ => decide (e.v1 &&& e.v2 = 0)
        | .or _ _ _ => decide (e.v1 ||| e.v2 = 0)
        | .xor _ _ _ => decide (e.v1 ^^^ e.v2 = 0)
        | .mul _ _ _ => if s.exState = .idle then decide (e.v1 * e.v2 = 0) else s.z
        | .load _ _ imm => decide (e.v1 + imm = 0)
        | .store _ _ imm => decide (e.v2 + imm = 0)
        | .bz imm => if s.z = true then decide (e.pc + imm = 0) else s.z
        | .bnz imm => if s.z = true then s.z else decide (e.pc + imm = 0)
        | .jump _ imm => decide (e.v1 + imm = 0)
        | .halt => s.z
        | .nop => s.z)

/-- `pc` is written at two places only: Fetch adds 4, modulo 2^32, and Memory replaces it with the target of
a taken BZ, BNZ or JUMP (R40). -/
def Obligations.ProgramCounterRule : Prop :=
  ∀ (i : Instr) (s t : State), exec i s = .next t →
    (s.stage = .fetch → t.pc = s.pc + 4) ∧
    (s.stage ≠ .fetch → s.stage ≠ .memory → t.pc = s.pc) ∧
    (s.stage = .memory → t.pc ≠ s.pc →
      isTransfer i = true ∧ ∃ m, s.latchM = .slot m ∧ m.taken = true ∧ t.pc = m.buf)

/-- Data memory: an instruction other than a STORE, and a STORE outside Memory, with M empty or with an
address that fails, leaves every word as it was; a STORE in Memory leaves every word but the one at the
address in its buffer, which then holds `v1` (R43, R83). The canonical form is the premise; it is kept by
every step (`Obligations.InvariantKept`). -/
def Obligations.DataMemoryFrame : Prop :=
  ∀ (i : Instr) (s t : State), exec i s = .next t →
    ((∀ rs1 rs2 imm, i ≠ .store rs1 rs2 imm) → ∀ a, t.dmem.read a = s.dmem.read a) ∧
    (s.stage ≠ .memory → ∀ a, t.dmem.read a = s.dmem.read a) ∧
    (s.latchM = .bubble → ∀ a, t.dmem.read a = s.dmem.read a) ∧
    ∀ rs1 rs2 imm m, i = .store rs1 rs2 imm → s.stage = .memory → s.latchM = .slot m → s.dmem.wf = true →
      (s.dataAddrOK m.buf = false → ∀ a, t.dmem.read a = s.dmem.read a) ∧
      (s.dataAddrOK m.buf = true → t.dmem.read m.buf.toNat = m.v1 ∧
        ∀ a, a ≠ m.buf.toNat → t.dmem.read a = s.dmem.read a)

/-- No step changes the instruction sequence, the size of the data memory or the budget, and the drain stall,
once set, stays set (R42, R55, R97). -/
def Obligations.NothingRewritesTheProgram : Prop :=
  ∀ s t : State, step s = .next t →
    t.prog = s.prog ∧ t.dmemWords = s.dmemWords ∧ t.maxCycles = s.maxCycles ∧
      (s.drain = true → t.drain = true)

/-! ### The run -/

/-- A step ends in no host fault, and is refused exactly when a run is due and no program has been launched
(R312, R314; log entries 11 and 13). Every instruction answers a next state in every stage, and only in the
Memory stage can it change the run status: no other stage raises (R155, R311, R314). -/
def Obligations.OnlyMemoryRaises : Prop :=
  (∀ s : State, (∀ f, step s ≠ .fault f) ∧
    ((∃ e, step s = .refused e) ↔ s.outcome = .running ∧ s.prog = [])) ∧
  ∀ (i : Instr) (s : State), ∃ t, exec i s = .next t ∧ (s.stage ≠ .memory → t.outcome = s.outcome) ∧
    (t.outcome = s.outcome ∨ ∃ m f, s.latchM = .slot m ∧ t = { s with outcome := .aborted f })

/-- Once the outcome is not `Running` no further tick runs, and a second call of `run` returns the stored
outcome (R213; that a step then answers the same state is log entry 12). -/
def Obligations.EndedRunStays : Prop :=
  ∀ s : State, s.outcome ≠ .running →
    step s = .next s ∧ ∀ (mode : RunMode) (maxCycles : Nat), run mode maxCycles s = .next s

/-- Every run of a launched program ends, after no more ticks than its budget, and in no other way than the
loop of R210 says: at the budget, by an error, or with the stop flag as its cause. -/
def Obligations.EveryRunEnds : Prop :=
  ∀ (mode : RunMode) (maxCycles : Nat) (s : State), s.outcome = .running → s.prog ≠ [] → s.stop = none →
    s.cycle ≤ maxCycles →
    ∃ t, run mode maxCycles s = .next t ∧ s.cycle ≤ t.cycle ∧ t.cycle ≤ maxCycles ∧
      ((t.outcome = .cycleBudgetExceeded ∧ t.cycle = maxCycles ∧ t.stop = none) ∨
        (∃ f, t.outcome = .aborted f) ∨ ∃ c, t.outcome = .completedNormally c ∧ t.stop = some c)

/-- A tick counts itself once, and one retirement exactly when W held an instruction, whatever its opcode
(R56, R151). -/
def Obligations.CountersPerTick : Prop :=
  ∀ s t : State, s.outcome = .running → s.cycle < s.maxCycles → step s = .next t →
    t.cycle = s.cycle + 1 ∧
      (s.latchW = .bubble → t.retired = s.retired) ∧ (s.latchW ≠ .bubble → t.retired = s.retired + 1)

/-- A MUL alone past Decode takes two Execute ticks: after the first E holds it with its product and M is
empty, after the second it is in M; Decode holds in both, whatever waits there (R170, R171, R181). -/
def Obligations.MulTakesTwoTicks : Prop :=
  ∀ (s : State) (e d : Slot) (rd rs1 rs2 : RegIdx), s.outcome = .running → s.prog ≠ [] → s.stop = none →
    s.cycle + 1 < s.maxCycles → s.latchW = .bubble → s.latchM = .bubble → s.latchE = .slot e →
    e.instr = .mul rd rs1 rs2 → s.exState = .idle → s.latchD = .slot d →
    ∃ t u, step s = .next t ∧ step t = .next u ∧
      t.latchE = .slot { e with buf := e.v1 * e.v2 } ∧ t.latchM = .bubble ∧ t.exState = .mul1 ∧
      t.z = decide (e.v1 * e.v2 = 0) ∧ t.latchD = .slot d ∧ t.brWait = s.brWait ∧
      u.latchE = .bubble ∧ u.latchM = .slot { e with buf := e.v1 * e.v2 } ∧ u.exState = .idle ∧
      u.latchD = .slot d ∧ u.brWait = s.brWait ∧ u.cycle = s.cycle + 2

/-- A BZ or BNZ that arrives in Decode behind an empty pipeline waits three ticks there and issues in the
fourth (R187). -/
def Obligations.BranchWaitsThreeTicks : Prop :=
  ∀ (s : State) (d : Slot), s.outcome = .running → s.prog ≠ [] → s.stop = none →
    s.cycle + 3 < s.maxCycles → s.latchW = .bubble → s.latchM = .bubble → s.latchE = .bubble →
    s.drain = false → s.latchD = .slot d → isCondBranch d.instr = true → s.brWait = 0 →
    ∃ t₁ t₂ t₃ t₄, step s = .next t₁ ∧ step t₁ = .next t₂ ∧ step t₂ = .next t₃ ∧ step t₃ = .next t₄ ∧
      (t₁.latchD = .slot d ∧ t₁.brWait = 1 ∧ t₁.latchE = .bubble) ∧
      (t₂.latchD = .slot d ∧ t₂.brWait = 2 ∧ t₂.latchE = .bubble) ∧
      (t₃.latchD = .slot d ∧ t₃.brWait = 3 ∧ t₃.latchE = .bubble) ∧
      (t₄.latchE = .slot d ∧ t₄.brWait = 0)

/-- Wrong-path instructions have no effect: when a taken transfer reaches Memory, the tick leaves nothing of
what was behind it. It executes none of it (Z and data memory stay), E and M are empty, the claim of what was
in E is given back, and D holds the instruction at the target (R165, R221). -/
def Obligations.WrongPathDiscarded : Prop :=
  ∀ (s : State) (m : Slot) (i : Instr), s.Inv → s.outcome = .running → s.prog ≠ [] →
    s.cycle < s.maxCycles → s.latchM = .slot m → m.taken = true → s.imemRead m.buf = some i →
    ∃ t, step s = .next t ∧ t.latchM = .bubble ∧ t.latchE = .bubble ∧ t.latchW = .slot m ∧
      t.z = s.z ∧ t.dmem = s.dmem ∧ t.pc = m.buf + 4 ∧
      t.latchD = .slot ⟨m.buf, i, 0, 0, 0, false⟩ ∧ t.fstate = .normal ∧ t.brStall = false ∧
      t.brWait = 0 ∧ ∀ r, s.latchE.dest? = some r → t.valid[r] = true

/-- A value written by Writeback is the value Decode reads in the same tick (R33, R141). -/
def Obligations.WritebackSeenByDecode : Prop :=
  ∀ (s : State) (w d : Slot) (r : RegIdx), s.Inv → s.outcome = .running → s.prog ≠ [] →
    s.cycle < s.maxCycles → s.latchW = .slot w → s.latchM = .bubble → s.latchE = .bubble →
    s.latchD = .slot d → destOf w.instr = some r → isCondBranch d.instr = false →
    src1Of d.instr = some r →
    ∃ t e, step s = .next t ∧ t.latchE = .slot e ∧ e.instr = d.instr ∧ e.v1 = w.buf ∧ t.x[r] = w.buf

/-- After a transfer that Execute resolves taken to an address of the sequence, Z is false (R280 to R282,
R354). -/
def Obligations.TakenTransferClearsZ : Prop :=
  ∀ (i : Instr) (s t : State) (e m : Slot), s.stage = .execute → s.latchE = .slot e → exec i s = .next t →
    isTransfer i = true → t.latchM = .slot m → m.taken = true → s.instrAddrOK m.buf = true → t.z = false

/-- The step that aborts the run (R315). What was in W has retired, so its register write is there, and it is
the only one; the faulting instruction is in M with the error its own rule gives, and it and what is in E have
changed nothing: M, E, data memory, `pc` and Z are as they were. The claims stay held: the `rd` of a
faulting LOAD is Invalid, and so is that of a writer in E. -/
def Obligations.AbortKeepsClaims : Prop :=
  ∀ (s t : State) (f : Fault), s.Inv → s.outcome = .running → step s = .next t → t.outcome = .aborted f →
    (t.latchM = s.latchM ∧ t.latchE = s.latchE ∧ t.dmem = s.dmem ∧ t.pc = s.pc ∧ t.z = s.z) ∧
    (s.latchW.dest? = none → t.x = s.x) ∧
    (∀ w rd, s.latchW = .slot w → destOf w.instr = some rd →
      t.x[rd] = w.buf ∧ ∀ q : RegIdx, q ≠ rd → t.x[q] = s.x[q]) ∧
    (∃ m, s.latchM = .slot m ∧
      ((f = .dataOutOfRange m.buf m.pc ∧ ¬ (m.buf.toNat % 4 = 0 ∧ m.buf.toNat < 4 * s.dmemWords) ∧
          ((∃ rd rs1 imm, m.instr = .load rd rs1 imm ∧ t.valid[rd] = false) ∨
            ∃ rs1 rs2 imm, m.instr = .store rs1 rs2 imm)) ∨
        (f = .instrOutOfRange m.buf m.pc ∧ isTransfer m.instr = true ∧ m.taken = true ∧
          s.imemRead m.buf = none))) ∧
    ∀ e r, s.latchE = .slot e → destOf e.instr = some r → t.valid[r] = false

/-- The post-run accessors are valid once the outcome is not `Running`: the register file with the validity
bitmap, and the first 100 words of data memory (R64). -/
def Obligations.AccessorsAfterRun : Prop :=
  ∀ s : State,
    (s.outcome = .running → s.registerFile = none ∧ s.dumpWords = none) ∧
    (s.outcome ≠ .running → s.registerFile = some (s.x, s.valid) ∧
      ∃ ws, s.dumpWords = some ws ∧ ws.length = 100 ∧ ∀ k, k < 100 → ws[k]? = some (s.dmem.read (4 * k)))

/-! ### Invariants and the sequential machine -/

/-- Every step keeps the data memory in canonical form, with no word listed at or above 4N or off the grid
(R80), and with N at least 100 (R11, R99). -/
def Obligations.DataMemoryStaysCanonical : Prop :=
  ∀ s t : State, s.MemoryOK → step s = .next t → t.MemoryOK

/-- Every step keeps the pipeline invariant: the scoreboard (R36, R222), the meaning of the control state
(R51 to R55), every slot the instruction of its own address (R41), program order in flight (R220), the run
status and the counters (R56, R210, R314), and that there is something to do (R224). -/
def Obligations.InvariantKept : Prop :=
  ∀ s t : State, s.Inv → step s = .next t → t.Inv

/-- In every state of the invariant that has not aborted, a register is Invalid exactly when one writer of
it is in E, M or W, and Valid exactly when none is (R36); and a step of such a state leads to one. -/
def Obligations.ScoreboardIsExact : Prop :=
  ∀ s t : State, s.Inv → step s = .next t → (∀ f, t.outcome ≠ .aborted f) → ∀ r : RegIdx,
    (t.valid[r] = false ↔
      ([t.latchE, t.latchM, t.latchW].countP fun l => decide (l.dest? = some r)) = 1) ∧
    (t.valid[r] = true ↔
      ([t.latchE, t.latchM, t.latchW].countP fun l => decide (l.dest? = some r)) = 0)

/-- A step of the pipeline leaves the architectural state it stands for, or advances it by one instruction of
the sequential machine (R220, R223, R350). -/
def Obligations.StepRefinesSequential : Prop :=
  ∀ s t : State, s.Inv → step s = .next t →
    t.arch = s.arch ∨ t.arch = seqStep s.prog s.dmemWords s.arch

/-- The result of a run is the result of executing the instructions one at a time in program order (R350):
from every launch, when the run completes or aborts, the registers, Z, data memory, the count of retired
instructions and the cause are those of the sequential machine after some number of instructions. -/
def Obligations.RunsAreSequential : Prop :=
  ∀ (inp : LaunchInput) (s : State) (mode : RunMode) (maxCycles : Nat), launch inp = .next s →
    4000 + 4 * s.prog.length < 2 ^ 32 →
    ∃ t k, run mode maxCycles s = .next t ∧
      (∀ c, t.outcome = .completedNormally c →
        seqRun s.prog s.dmemWords k ⟨s.x, s.z, s.dmem, 0, .running 4000⟩ =
          ⟨t.x, t.z, t.dmem, t.retired, .stopped c⟩) ∧
      (∀ f, t.outcome = .aborted f →
        seqRun s.prog s.dmemWords k ⟨s.x, s.z, s.dmem, 0, .running 4000⟩ =
          ⟨t.x, t.z, t.dmem, t.retired, .failed f⟩)

/-- The pipeline cannot deadlock: within eight steps an instruction retires or the run ends (R224). -/
def Obligations.PipelineMakesProgress : Prop :=
  ∀ s : State, s.Inv → s.outcome = .running → s.prog ≠ [] →
    ∃ t, runLoop 8 s = .next t ∧ (s.retired < t.retired ∨ t.outcome ≠ .running)

end
end

