-- ==== Sys2Proof/Laws/State.lean ====
section
/-!
SUPPORT. What each named update of the state does to each field, so that no later proof unfolds one.
-/

namespace Sys2Proof.Machine

open Sys2Proof

variable (s : State)

/-! ### `writeReg` -/

@[simp] theorem State.writeReg_x (r : RegIdx) (v : Word) : (s.writeReg r v).x = s.x.set r v := rfl
@[simp] theorem State.writeReg_valid (r : RegIdx) (v : Word) : (s.writeReg r v).valid = s.valid := rfl
@[simp] theorem State.writeReg_z (r : RegIdx) (v : Word) : (s.writeReg r v).z = s.z := rfl
@[simp] theorem State.writeReg_pc (r : RegIdx) (v : Word) : (s.writeReg r v).pc = s.pc := rfl
@[simp] theorem State.writeReg_prog (r : RegIdx) (v : Word) : (s.writeReg r v).prog = s.prog := rfl
@[simp] theorem State.writeReg_dmem (r : RegIdx) (v : Word) : (s.writeReg r v).dmem = s.dmem := rfl
@[simp] theorem State.writeReg_dmemWords (r : RegIdx) (v : Word) : (s.writeReg r v).dmemWords = s.dmemWords := rfl
@[simp] theorem State.writeReg_latchF (r : RegIdx) (v : Word) : (s.writeReg r v).latchF = s.latchF := rfl
@[simp] theorem State.writeReg_latchD (r : RegIdx) (v : Word) : (s.writeReg r v).latchD = s.latchD := rfl
@[simp] theorem State.writeReg_latchE (r : RegIdx) (v : Word) : (s.writeReg r v).latchE = s.latchE := rfl
@[simp] theorem State.writeReg_latchM (r : RegIdx) (v : Word) : (s.writeReg r v).latchM = s.latchM := rfl
@[simp] theorem State.writeReg_latchW (r : RegIdx) (v : Word) : (s.writeReg r v).latchW = s.latchW := rfl
@[simp] theorem State.writeReg_fstate (r : RegIdx) (v : Word) : (s.writeReg r v).fstate = s.fstate := rfl
@[simp] theorem State.writeReg_brWait (r : RegIdx) (v : Word) : (s.writeReg r v).brWait = s.brWait := rfl
@[simp] theorem State.writeReg_exState (r : RegIdx) (v : Word) : (s.writeReg r v).exState = s.exState := rfl
@[simp] theorem State.writeReg_brStall (r : RegIdx) (v : Word) : (s.writeReg r v).brStall = s.brStall := rfl
@[simp] theorem State.writeReg_drain (r : RegIdx) (v : Word) : (s.writeReg r v).drain = s.drain := rfl
@[simp] theorem State.writeReg_mulBusy (r : RegIdx) (v : Word) : (s.writeReg r v).mulBusy = s.mulBusy := rfl
@[simp] theorem State.writeReg_cycle (r : RegIdx) (v : Word) : (s.writeReg r v).cycle = s.cycle := rfl
@[simp] theorem State.writeReg_retired (r : RegIdx) (v : Word) : (s.writeReg r v).retired = s.retired := rfl
@[simp] theorem State.writeReg_stop (r : RegIdx) (v : Word) : (s.writeReg r v).stop = s.stop := rfl
@[simp] theorem State.writeReg_outcome (r : RegIdx) (v : Word) : (s.writeReg r v).outcome = s.outcome := rfl
@[simp] theorem State.writeReg_maxCycles (r : RegIdx) (v : Word) : (s.writeReg r v).maxCycles = s.maxCycles := rfl
@[simp] theorem State.writeReg_stage (r : RegIdx) (v : Word) : (s.writeReg r v).stage = s.stage := rfl

/-! ### `setValid` -/

@[simp] theorem State.setValid_x (r : RegIdx) (b : Bool) : (s.setValid r b).x = s.x := rfl
@[simp] theorem State.setValid_valid (r : RegIdx) (b : Bool) : (s.setValid r b).valid = s.valid.set r b := rfl
@[simp] theorem State.setValid_z (r : RegIdx) (b : Bool) : (s.setValid r b).z = s.z := rfl
@[simp] theorem State.setValid_pc (r : RegIdx) (b : Bool) : (s.setValid r b).pc = s.pc := rfl
@[simp] theorem State.setValid_prog (r : RegIdx) (b : Bool) : (s.setValid r b).prog = s.prog := rfl
@[simp] theorem State.setValid_dmem (r : RegIdx) (b : Bool) : (s.setValid r b).dmem = s.dmem := rfl
@[simp] theorem State.setValid_dmemWords (r : RegIdx) (b : Bool) : (s.setValid r b).dmemWords = s.dmemWords := rfl
@[simp] theorem State.setValid_latchF (r : RegIdx) (b : Bool) : (s.setValid r b).latchF = s.latchF := rfl
@[simp] theorem State.setValid_latchD (r : RegIdx) (b : Bool) : (s.setValid r b).latchD = s.latchD := rfl
@[simp] theorem State.setValid_latchE (r : RegIdx) (b : Bool) : (s.setValid r b).latchE = s.latchE := rfl
@[simp] theorem State.setValid_latchM (r : RegIdx) (b : Bool) : (s.setValid r b).latchM = s.latchM := rfl
@[simp] theorem State.setValid_latchW (r : RegIdx) (b : Bool) : (s.setValid r b).latchW = s.latchW := rfl
@[simp] theorem State.setValid_fstate (r : RegIdx) (b : Bool) : (s.setValid r b).fstate = s.fstate := rfl
@[simp] theorem State.setValid_brWait (r : RegIdx) (b : Bool) : (s.setValid r b).brWait = s.brWait := rfl
@[simp] theorem State.setValid_exState (r : RegIdx) (b : Bool) : (s.setValid r b).exState = s.exState := rfl
@[simp] theorem State.setValid_brStall (r : RegIdx) (b : Bool) : (s.setValid r b).brStall = s.brStall := rfl
@[simp] theorem State.setValid_drain (r : RegIdx) (b : Bool) : (s.setValid r b).drain = s.drain := rfl
@[simp] theorem State.setValid_mulBusy (r : RegIdx) (b : Bool) : (s.setValid r b).mulBusy = s.mulBusy := rfl
@[simp] theorem State.setValid_cycle (r : RegIdx) (b : Bool) : (s.setValid r b).cycle = s.cycle := rfl
@[simp] theorem State.setValid_retired (r : RegIdx) (b : Bool) : (s.setValid r b).retired = s.retired := rfl
@[simp] theorem State.setValid_stop (r : RegIdx) (b : Bool) : (s.setValid r b).stop = s.stop := rfl
@[simp] theorem State.setValid_outcome (r : RegIdx) (b : Bool) : (s.setValid r b).outcome = s.outcome := rfl
@[simp] theorem State.setValid_maxCycles (r : RegIdx) (b : Bool) : (s.setValid r b).maxCycles = s.maxCycles := rfl
@[simp] theorem State.setValid_stage (r : RegIdx) (b : Bool) : (s.setValid r b).stage = s.stage := rfl

/-! ### `setZ` -/

@[simp] theorem State.setZ_x (v : Word) : (s.setZ v).x = s.x := rfl
@[simp] theorem State.setZ_valid (v : Word) : (s.setZ v).valid = s.valid := rfl
@[simp] theorem State.setZ_z (v : Word) : (s.setZ v).z = zeroFlag v := rfl
@[simp] theorem State.setZ_pc (v : Word) : (s.setZ v).pc = s.pc := rfl
@[simp] theorem State.setZ_prog (v : Word) : (s.setZ v).prog = s.prog := rfl
@[simp] theorem State.setZ_dmem (v : Word) : (s.setZ v).dmem = s.dmem := rfl
@[simp] theorem State.setZ_dmemWords (v : Word) : (s.setZ v).dmemWords = s.dmemWords := rfl
@[simp] theorem State.setZ_latchF (v : Word) : (s.setZ v).latchF = s.latchF := rfl
@[simp] theorem State.setZ_latchD (v : Word) : (s.setZ v).latchD = s.latchD := rfl
@[simp] theorem State.setZ_latchE (v : Word) : (s.setZ v).latchE = s.latchE := rfl
@[simp] theorem State.setZ_latchM (v : Word) : (s.setZ v).latchM = s.latchM := rfl
@[simp] theorem State.setZ_latchW (v : Word) : (s.setZ v).latchW = s.latchW := rfl
@[simp] theorem State.setZ_fstate (v : Word) : (s.setZ v).fstate = s.fstate := rfl
@[simp] theorem State.setZ_brWait (v : Word) : (s.setZ v).brWait = s.brWait := rfl
@[simp] theorem State.setZ_exState (v : Word) : (s.setZ v).exState = s.exState := rfl
@[simp] theorem State.setZ_brStall (v : Word) : (s.setZ v).brStall = s.brStall := rfl
@[simp] theorem State.setZ_drain (v : Word) : (s.setZ v).drain = s.drain := rfl
@[simp] theorem State.setZ_mulBusy (v : Word) : (s.setZ v).mulBusy = s.mulBusy := rfl
@[simp] theorem State.setZ_cycle (v : Word) : (s.setZ v).cycle = s.cycle := rfl
@[simp] theorem State.setZ_retired (v : Word) : (s.setZ v).retired = s.retired := rfl
@[simp] theorem State.setZ_stop (v : Word) : (s.setZ v).stop = s.stop := rfl
@[simp] theorem State.setZ_outcome (v : Word) : (s.setZ v).outcome = s.outcome := rfl
@[simp] theorem State.setZ_maxCycles (v : Word) : (s.setZ v).maxCycles = s.maxCycles := rfl
@[simp] theorem State.setZ_stage (v : Word) : (s.setZ v).stage = s.stage := rfl

/-! ### `memWrite` -/

@[simp] theorem State.memWrite_x (a v : Word) : (s.memWrite a v).x = s.x := rfl
@[simp] theorem State.memWrite_valid (a v : Word) : (s.memWrite a v).valid = s.valid := rfl
@[simp] theorem State.memWrite_z (a v : Word) : (s.memWrite a v).z = s.z := rfl
@[simp] theorem State.memWrite_pc (a v : Word) : (s.memWrite a v).pc = s.pc := rfl
@[simp] theorem State.memWrite_prog (a v : Word) : (s.memWrite a v).prog = s.prog := rfl
@[simp] theorem State.memWrite_dmem (a v : Word) : (s.memWrite a v).dmem = s.dmem.write a.toNat v := rfl
@[simp] theorem State.memWrite_dmemWords (a v : Word) : (s.memWrite a v).dmemWords = s.dmemWords := rfl
@[simp] theorem State.memWrite_latchF (a v : Word) : (s.memWrite a v).latchF = s.latchF := rfl
@[simp] theorem State.memWrite_latchD (a v : Word) : (s.memWrite a v).latchD = s.latchD := rfl
@[simp] theorem State.memWrite_latchE (a v : Word) : (s.memWrite a v).latchE = s.latchE := rfl
@[simp] theorem State.memWrite_latchM (a v : Word) : (s.memWrite a v).latchM = s.latchM := rfl
@[simp] theorem State.memWrite_latchW (a v : Word) : (s.memWrite a v).latchW = s.latchW := rfl
@[simp] theorem State.memWrite_fstate (a v : Word) : (s.memWrite a v).fstate = s.fstate := rfl
@[simp] theorem State.memWrite_brWait (a v : Word) : (s.memWrite a v).brWait = s.brWait := rfl
@[simp] theorem State.memWrite_exState (a v : Word) : (s.memWrite a v).exState = s.exState := rfl
@[simp] theorem State.memWrite_brStall (a v : Word) : (s.memWrite a v).brStall = s.brStall := rfl
@[simp] theorem State.memWrite_drain (a v : Word) : (s.memWrite a v).drain = s.drain := rfl
@[simp] theorem State.memWrite_mulBusy (a v : Word) : (s.memWrite a v).mulBusy = s.mulBusy := rfl
@[simp] theorem State.memWrite_cycle (a v : Word) : (s.memWrite a v).cycle = s.cycle := rfl
@[simp] theorem State.memWrite_retired (a v : Word) : (s.memWrite a v).retired = s.retired := rfl
@[simp] theorem State.memWrite_stop (a v : Word) : (s.memWrite a v).stop = s.stop := rfl
@[simp] theorem State.memWrite_outcome (a v : Word) : (s.memWrite a v).outcome = s.outcome := rfl
@[simp] theorem State.memWrite_maxCycles (a v : Word) : (s.memWrite a v).maxCycles = s.maxCycles := rfl
@[simp] theorem State.memWrite_stage (a v : Word) : (s.memWrite a v).stage = s.stage := rfl

/-! ### `raise` -/

@[simp] theorem State.raise_x (f : Fault) : (s.raise f).x = s.x := rfl
@[simp] theorem State.raise_valid (f : Fault) : (s.raise f).valid = s.valid := rfl
@[simp] theorem State.raise_z (f : Fault) : (s.raise f).z = s.z := rfl
@[simp] theorem State.raise_pc (f : Fault) : (s.raise f).pc = s.pc := rfl
@[simp] theorem State.raise_prog (f : Fault) : (s.raise f).prog = s.prog := rfl
@[simp] theorem State.raise_dmem (f : Fault) : (s.raise f).dmem = s.dmem := rfl
@[simp] theorem State.raise_dmemWords (f : Fault) : (s.raise f).dmemWords = s.dmemWords := rfl
@[simp] theorem State.raise_latchF (f : Fault) : (s.raise f).latchF = s.latchF := rfl
@[simp] theorem State.raise_latchD (f : Fault) : (s.raise f).latchD = s.latchD := rfl
@[simp] theorem State.raise_latchE (f : Fault) : (s.raise f).latchE = s.latchE := rfl
@[simp] theorem State.raise_latchM (f : Fault) : (s.raise f).latchM = s.latchM := rfl
@[simp] theorem State.raise_latchW (f : Fault) : (s.raise f).latchW = s.latchW := rfl
@[simp] theorem State.raise_fstate (f : Fault) : (s.raise f).fstate = s.fstate := rfl
@[simp] theorem State.raise_brWait (f : Fault) : (s.raise f).brWait = s.brWait := rfl
@[simp] theorem State.raise_exState (f : Fault) : (s.raise f).exState = s.exState := rfl
@[simp] theorem State.raise_brStall (f : Fault) : (s.raise f).brStall = s.brStall := rfl
@[simp] theorem State.raise_drain (f : Fault) : (s.raise f).drain = s.drain := rfl
@[simp] theorem State.raise_mulBusy (f : Fault) : (s.raise f).mulBusy = s.mulBusy := rfl
@[simp] theorem State.raise_cycle (f : Fault) : (s.raise f).cycle = s.cycle := rfl
@[simp] theorem State.raise_retired (f : Fault) : (s.raise f).retired = s.retired := rfl
@[simp] theorem State.raise_stop (f : Fault) : (s.raise f).stop = s.stop := rfl
@[simp] theorem State.raise_outcome (f : Fault) : (s.raise f).outcome = .aborted f := rfl
@[simp] theorem State.raise_maxCycles (f : Fault) : (s.raise f).maxCycles = s.maxCycles := rfl
@[simp] theorem State.raise_stage (f : Fault) : (s.raise f).stage = s.stage := rfl

/-! ### `releaseClaim` -/

@[simp] theorem State.releaseClaim_x (r : Option RegIdx) : (s.releaseClaim r).x = s.x := by cases r <;> rfl
@[simp] theorem State.releaseClaim_z (r : Option RegIdx) : (s.releaseClaim r).z = s.z := by cases r <;> rfl
@[simp] theorem State.releaseClaim_pc (r : Option RegIdx) : (s.releaseClaim r).pc = s.pc := by cases r <;> rfl
@[simp] theorem State.releaseClaim_prog (r : Option RegIdx) : (s.releaseClaim r).prog = s.prog := by cases r <;> rfl
@[simp] theorem State.releaseClaim_dmem (r : Option RegIdx) : (s.releaseClaim r).dmem = s.dmem := by cases r <;> rfl
@[simp] theorem State.releaseClaim_dmemWords (r : Option RegIdx) : (s.releaseClaim r).dmemWords = s.dmemWords := by cases r <;> rfl
@[simp] theorem State.releaseClaim_latchF (r : Option RegIdx) : (s.releaseClaim r).latchF = s.latchF := by cases r <;> rfl
@[simp] theorem State.releaseClaim_latchD (r : Option RegIdx) : (s.releaseClaim r).latchD = s.latchD := by cases r <;> rfl
@[simp] theorem State.releaseClaim_latchE (r : Option RegIdx) : (s.releaseClaim r).latchE = s.latchE := by cases r <;> rfl
@[simp] theorem State.releaseClaim_latchM (r : Option RegIdx) : (s.releaseClaim r).latchM = s.latchM := by cases r <;> rfl
@[simp] theorem State.releaseClaim_latchW (r : Option RegIdx) : (s.releaseClaim r).latchW = s.latchW := by cases r <;> rfl
@[simp] theorem State.releaseClaim_fstate (r : Option RegIdx) : (s.releaseClaim r).fstate = s.fstate := by cases r <;> rfl
@[simp] theorem State.releaseClaim_brWait (r : Option RegIdx) : (s.releaseClaim r).brWait = s.brWait := by cases r <;> rfl
@[simp] theorem State.releaseClaim_exState (r : Option RegIdx) : (s.releaseClaim r).exState = s.exState := by cases r <;> rfl
@[simp] theorem State.releaseClaim_brStall (r : Option RegIdx) : (s.releaseClaim r).brStall = s.brStall := by cases r <;> rfl
@[simp] theorem State.releaseClaim_drain (r : Option RegIdx) : (s.releaseClaim r).drain = s.drain := by cases r <;> rfl
@[simp] theorem State.releaseClaim_mulBusy (r : Option RegIdx) : (s.releaseClaim r).mulBusy = s.mulBusy := by cases r <;> rfl
@[simp] theorem State.releaseClaim_cycle (r : Option RegIdx) : (s.releaseClaim r).cycle = s.cycle := by cases r <;> rfl
@[simp] theorem State.releaseClaim_retired (r : Option RegIdx) : (s.releaseClaim r).retired = s.retired := by cases r <;> rfl
@[simp] theorem State.releaseClaim_stop (r : Option RegIdx) : (s.releaseClaim r).stop = s.stop := by cases r <;> rfl
@[simp] theorem State.releaseClaim_outcome (r : Option RegIdx) : (s.releaseClaim r).outcome = s.outcome := by cases r <;> rfl
@[simp] theorem State.releaseClaim_maxCycles (r : Option RegIdx) : (s.releaseClaim r).maxCycles = s.maxCycles := by cases r <;> rfl
@[simp] theorem State.releaseClaim_stage (r : Option RegIdx) : (s.releaseClaim r).stage = s.stage := by cases r <;> rfl

/-! ### `claim` -/

@[simp] theorem State.claim_x (r : Option RegIdx) : (s.claim r).x = s.x := by cases r <;> rfl
@[simp] theorem State.claim_z (r : Option RegIdx) : (s.claim r).z = s.z := by cases r <;> rfl
@[simp] theorem State.claim_pc (r : Option RegIdx) : (s.claim r).pc = s.pc := by cases r <;> rfl
@[simp] theorem State.claim_prog (r : Option RegIdx) : (s.claim r).prog = s.prog := by cases r <;> rfl
@[simp] theorem State.claim_dmem (r : Option RegIdx) : (s.claim r).dmem = s.dmem := by cases r <;> rfl
@[simp] theorem State.claim_dmemWords (r : Option RegIdx) : (s.claim r).dmemWords = s.dmemWords := by cases r <;> rfl
@[simp] theorem State.claim_latchF (r : Option RegIdx) : (s.claim r).latchF = s.latchF := by cases r <;> rfl
@[simp] theorem State.claim_latchD (r : Option RegIdx) : (s.claim r).latchD = s.latchD := by cases r <;> rfl
@[simp] theorem State.claim_latchE (r : Option RegIdx) : (s.claim r).latchE = s.latchE := by cases r <;> rfl
@[simp] theorem State.claim_latchM (r : Option RegIdx) : (s.claim r).latchM = s.latchM := by cases r <;> rfl
@[simp] theorem State.claim_latchW (r : Option RegIdx) : (s.claim r).latchW = s.latchW := by cases r <;> rfl
@[simp] theorem State.claim_fstate (r : Option RegIdx) : (s.claim r).fstate = s.fstate := by cases r <;> rfl
@[simp] theorem State.claim_brWait (r : Option RegIdx) : (s.claim r).brWait = s.brWait := by cases r <;> rfl
@[simp] theorem State.claim_exState (r : Option RegIdx) : (s.claim r).exState = s.exState := by cases r <;> rfl
@[simp] theorem State.claim_brStall (r : Option RegIdx) : (s.claim r).brStall = s.brStall := by cases r <;> rfl
@[simp] theorem State.claim_drain (r : Option RegIdx) : (s.claim r).drain = s.drain := by cases r <;> rfl
@[simp] theorem State.claim_mulBusy (r : Option RegIdx) : (s.claim r).mulBusy = s.mulBusy := by cases r <;> rfl
@[simp] theorem State.claim_cycle (r : Option RegIdx) : (s.claim r).cycle = s.cycle := by cases r <;> rfl
@[simp] theorem State.claim_retired (r : Option RegIdx) : (s.claim r).retired = s.retired := by cases r <;> rfl
@[simp] theorem State.claim_stop (r : Option RegIdx) : (s.claim r).stop = s.stop := by cases r <;> rfl
@[simp] theorem State.claim_outcome (r : Option RegIdx) : (s.claim r).outcome = s.outcome := by cases r <;> rfl
@[simp] theorem State.claim_maxCycles (r : Option RegIdx) : (s.claim r).maxCycles = s.maxCycles := by cases r <;> rfl
@[simp] theorem State.claim_stage (r : Option RegIdx) : (s.claim r).stage = s.stage := by cases r <;> rfl

/-! ### `flushFront` -/

@[simp] theorem State.flushFront_x : (s.flushFront).x = s.x := rfl
@[simp] theorem State.flushFront_valid : (s.flushFront).valid = s.valid := rfl
@[simp] theorem State.flushFront_z : (s.flushFront).z = s.z := rfl
@[simp] theorem State.flushFront_pc : (s.flushFront).pc = s.pc := rfl
@[simp] theorem State.flushFront_prog : (s.flushFront).prog = s.prog := rfl
@[simp] theorem State.flushFront_dmem : (s.flushFront).dmem = s.dmem := rfl
@[simp] theorem State.flushFront_dmemWords : (s.flushFront).dmemWords = s.dmemWords := rfl
@[simp] theorem State.flushFront_latchF : (s.flushFront).latchF = .bubble := rfl
@[simp] theorem State.flushFront_latchD : (s.flushFront).latchD = .bubble := rfl
@[simp] theorem State.flushFront_latchE : (s.flushFront).latchE = s.latchE := rfl
@[simp] theorem State.flushFront_latchM : (s.flushFront).latchM = s.latchM := rfl
@[simp] theorem State.flushFront_latchW : (s.flushFront).latchW = s.latchW := rfl
@[simp] theorem State.flushFront_fstate : (s.flushFront).fstate = .normal := rfl
@[simp] theorem State.flushFront_brWait : (s.flushFront).brWait = 0 := rfl
@[simp] theorem State.flushFront_exState : (s.flushFront).exState = s.exState := rfl
@[simp] theorem State.flushFront_brStall : (s.flushFront).brStall = s.brStall := rfl
@[simp] theorem State.flushFront_drain : (s.flushFront).drain = s.drain := rfl
@[simp] theorem State.flushFront_mulBusy : (s.flushFront).mulBusy = s.mulBusy := rfl
@[simp] theorem State.flushFront_cycle : (s.flushFront).cycle = s.cycle := rfl
@[simp] theorem State.flushFront_retired : (s.flushFront).retired = s.retired := rfl
@[simp] theorem State.flushFront_stop : (s.flushFront).stop = s.stop := rfl
@[simp] theorem State.flushFront_outcome : (s.flushFront).outcome = s.outcome := rfl
@[simp] theorem State.flushFront_maxCycles : (s.flushFront).maxCycles = s.maxCycles := rfl
@[simp] theorem State.flushFront_stage : (s.flushFront).stage = s.stage := rfl

/-! ### `squashE` -/

@[simp] theorem State.squashE_x : (s.squashE).x = s.x := by unfold State.squashE; simp
@[simp] theorem State.squashE_valid : (s.squashE).valid = (s.releaseClaim s.latchE.dest?).valid := rfl
@[simp] theorem State.squashE_z : (s.squashE).z = s.z := by unfold State.squashE; simp
@[simp] theorem State.squashE_pc : (s.squashE).pc = s.pc := by unfold State.squashE; simp
@[simp] theorem State.squashE_prog : (s.squashE).prog = s.prog := by unfold State.squashE; simp
@[simp] theorem State.squashE_dmem : (s.squashE).dmem = s.dmem := by unfold State.squashE; simp
@[simp] theorem State.squashE_dmemWords : (s.squashE).dmemWords = s.dmemWords := by unfold State.squashE; simp
@[simp] theorem State.squashE_latchF : (s.squashE).latchF = s.latchF := by unfold State.squashE; simp
@[simp] theorem State.squashE_latchD : (s.squashE).latchD = s.latchD := by unfold State.squashE; simp
@[simp] theorem State.squashE_latchE : (s.squashE).latchE = .bubble := rfl
@[simp] theorem State.squashE_latchM : (s.squashE).latchM = s.latchM := by unfold State.squashE; simp
@[simp] theorem State.squashE_latchW : (s.squashE).latchW = s.latchW := by unfold State.squashE; simp
@[simp] theorem State.squashE_fstate : (s.squashE).fstate = s.fstate := by unfold State.squashE; simp
@[simp] theorem State.squashE_brWait : (s.squashE).brWait = s.brWait := by unfold State.squashE; simp
@[simp] theorem State.squashE_exState : (s.squashE).exState = .idle := rfl
@[simp] theorem State.squashE_brStall : (s.squashE).brStall = s.brStall := by unfold State.squashE; simp
@[simp] theorem State.squashE_drain : (s.squashE).drain = s.drain := by unfold State.squashE; simp
@[simp] theorem State.squashE_mulBusy : (s.squashE).mulBusy = s.mulBusy := by unfold State.squashE; simp
@[simp] theorem State.squashE_cycle : (s.squashE).cycle = s.cycle := by unfold State.squashE; simp
@[simp] theorem State.squashE_retired : (s.squashE).retired = s.retired := by unfold State.squashE; simp
@[simp] theorem State.squashE_stop : (s.squashE).stop = s.stop := by unfold State.squashE; simp
@[simp] theorem State.squashE_outcome : (s.squashE).outcome = s.outcome := by unfold State.squashE; simp
@[simp] theorem State.squashE_maxCycles : (s.squashE).maxCycles = s.maxCycles := by unfold State.squashE; simp
@[simp] theorem State.squashE_stage : (s.squashE).stage = s.stage := by unfold State.squashE; simp

/-! ### `squashM` -/

@[simp] theorem State.squashM_x : (s.squashM).x = s.x := by unfold State.squashM; simp
@[simp] theorem State.squashM_valid : (s.squashM).valid = (s.releaseClaim s.latchM.dest?).valid := rfl
@[simp] theorem State.squashM_z : (s.squashM).z = s.z := by unfold State.squashM; simp
@[simp] theorem State.squashM_pc : (s.squashM).pc = s.pc := by unfold State.squashM; simp
@[simp] theorem State.squashM_prog : (s.squashM).prog = s.prog := by unfold State.squashM; simp
@[simp] theorem State.squashM_dmem : (s.squashM).dmem = s.dmem := by unfold State.squashM; simp
@[simp] theorem State.squashM_dmemWords : (s.squashM).dmemWords = s.dmemWords := by unfold State.squashM; simp
@[simp] theorem State.squashM_latchF : (s.squashM).latchF = s.latchF := by unfold State.squashM; simp
@[simp] theorem State.squashM_latchD : (s.squashM).latchD = s.latchD := by unfold State.squashM; simp
@[simp] theorem State.squashM_latchE : (s.squashM).latchE = s.latchE := by unfold State.squashM; simp
@[simp] theorem State.squashM_latchM : (s.squashM).latchM = .bubble := rfl
@[simp] theorem State.squashM_latchW : (s.squashM).latchW = s.latchW := by unfold State.squashM; simp
@[simp] theorem State.squashM_fstate : (s.squashM).fstate = s.fstate := by unfold State.squashM; simp
@[simp] theorem State.squashM_brWait : (s.squashM).brWait = s.brWait := by unfold State.squashM; simp
@[simp] theorem State.squashM_exState : (s.squashM).exState = s.exState := by unfold State.squashM; simp
@[simp] theorem State.squashM_brStall : (s.squashM).brStall = s.brStall := by unfold State.squashM; simp
@[simp] theorem State.squashM_drain : (s.squashM).drain = s.drain := by unfold State.squashM; simp
@[simp] theorem State.squashM_mulBusy : (s.squashM).mulBusy = s.mulBusy := by unfold State.squashM; simp
@[simp] theorem State.squashM_cycle : (s.squashM).cycle = s.cycle := by unfold State.squashM; simp
@[simp] theorem State.squashM_retired : (s.squashM).retired = s.retired := by unfold State.squashM; simp
@[simp] theorem State.squashM_stop : (s.squashM).stop = s.stop := by unfold State.squashM; simp
@[simp] theorem State.squashM_outcome : (s.squashM).outcome = s.outcome := by unfold State.squashM; simp
@[simp] theorem State.squashM_maxCycles : (s.squashM).maxCycles = s.maxCycles := by unfold State.squashM; simp
@[simp] theorem State.squashM_stage : (s.squashM).stage = s.stage := by unfold State.squashM; simp

/-! ### `redirectTo` -/

@[simp] theorem State.redirectTo_x (t : Word) : (s.redirectTo t).x = s.x := by unfold State.redirectTo; simp
@[simp] theorem State.redirectTo_valid (t : Word) : (s.redirectTo t).valid = (s.releaseClaim s.latchE.dest?).valid := by unfold State.redirectTo State.squashE; cases h : s.latchE.dest? <;> simp_all [State.releaseClaim, State.setValid]
@[simp] theorem State.redirectTo_z (t : Word) : (s.redirectTo t).z = s.z := by unfold State.redirectTo; simp
@[simp] theorem State.redirectTo_pc (t : Word) : (s.redirectTo t).pc = t := by unfold State.redirectTo; simp
@[simp] theorem State.redirectTo_prog (t : Word) : (s.redirectTo t).prog = s.prog := by unfold State.redirectTo; simp
@[simp] theorem State.redirectTo_dmem (t : Word) : (s.redirectTo t).dmem = s.dmem := by unfold State.redirectTo; simp
@[simp] theorem State.redirectTo_dmemWords (t : Word) : (s.redirectTo t).dmemWords = s.dmemWords := by unfold State.redirectTo; simp
@[simp] theorem State.redirectTo_latchF (t : Word) : (s.redirectTo t).latchF = .bubble := by unfold State.redirectTo; simp
@[simp] theorem State.redirectTo_latchD (t : Word) : (s.redirectTo t).latchD = .bubble := by unfold State.redirectTo; simp
@[simp] theorem State.redirectTo_latchE (t : Word) : (s.redirectTo t).latchE = .bubble := by unfold State.redirectTo; simp
@[simp] theorem State.redirectTo_latchM (t : Word) : (s.redirectTo t).latchM = s.latchM := by unfold State.redirectTo; simp
@[simp] theorem State.redirectTo_latchW (t : Word) : (s.redirectTo t).latchW = s.latchW := by unfold State.redirectTo; simp
@[simp] theorem State.redirectTo_fstate (t : Word) : (s.redirectTo t).fstate = .normal := by unfold State.redirectTo; simp
@[simp] theorem State.redirectTo_brWait (t : Word) : (s.redirectTo t).brWait = 0 := by unfold State.redirectTo; simp
@[simp] theorem State.redirectTo_exState (t : Word) : (s.redirectTo t).exState = .idle := by unfold State.redirectTo; simp
@[simp] theorem State.redirectTo_brStall (t : Word) : (s.redirectTo t).brStall = false := by unfold State.redirectTo; simp
@[simp] theorem State.redirectTo_drain (t : Word) : (s.redirectTo t).drain = s.drain := by unfold State.redirectTo; simp
@[simp] theorem State.redirectTo_mulBusy (t : Word) : (s.redirectTo t).mulBusy = s.mulBusy := by unfold State.redirectTo; simp
@[simp] theorem State.redirectTo_cycle (t : Word) : (s.redirectTo t).cycle = s.cycle := by unfold State.redirectTo; simp
@[simp] theorem State.redirectTo_retired (t : Word) : (s.redirectTo t).retired = s.retired := by unfold State.redirectTo; simp
@[simp] theorem State.redirectTo_stop (t : Word) : (s.redirectTo t).stop = s.stop := by unfold State.redirectTo; simp
@[simp] theorem State.redirectTo_outcome (t : Word) : (s.redirectTo t).outcome = s.outcome := by unfold State.redirectTo; simp
@[simp] theorem State.redirectTo_maxCycles (t : Word) : (s.redirectTo t).maxCycles = s.maxCycles := by unfold State.redirectTo; simp
@[simp] theorem State.redirectTo_stage (t : Word) : (s.redirectTo t).stage = s.stage := by unfold State.redirectTo; simp

/-! ### `moveToM` -/

@[simp] theorem State.moveToM_x (e : Slot) : (s.moveToM e).x = s.x := rfl
@[simp] theorem State.moveToM_valid (e : Slot) : (s.moveToM e).valid = s.valid := rfl
@[simp] theorem State.moveToM_z (e : Slot) : (s.moveToM e).z = s.z := rfl
@[simp] theorem State.moveToM_pc (e : Slot) : (s.moveToM e).pc = s.pc := rfl
@[simp] theorem State.moveToM_prog (e : Slot) : (s.moveToM e).prog = s.prog := rfl
@[simp] theorem State.moveToM_dmem (e : Slot) : (s.moveToM e).dmem = s.dmem := rfl
@[simp] theorem State.moveToM_dmemWords (e : Slot) : (s.moveToM e).dmemWords = s.dmemWords := rfl
@[simp] theorem State.moveToM_latchF (e : Slot) : (s.moveToM e).latchF = s.latchF := rfl
@[simp] theorem State.moveToM_latchD (e : Slot) : (s.moveToM e).latchD = s.latchD := rfl
@[simp] theorem State.moveToM_latchE (e : Slot) : (s.moveToM e).latchE = .bubble := rfl
@[simp] theorem State.moveToM_latchM (e : Slot) : (s.moveToM e).latchM = .slot e := rfl
@[simp] theorem State.moveToM_latchW (e : Slot) : (s.moveToM e).latchW = s.latchW := rfl
@[simp] theorem State.moveToM_fstate (e : Slot) : (s.moveToM e).fstate = s.fstate := rfl
@[simp] theorem State.moveToM_brWait (e : Slot) : (s.moveToM e).brWait = s.brWait := rfl
@[simp] theorem State.moveToM_exState (e : Slot) : (s.moveToM e).exState = s.exState := rfl
@[simp] theorem State.moveToM_brStall (e : Slot) : (s.moveToM e).brStall = s.brStall := rfl
@[simp] theorem State.moveToM_drain (e : Slot) : (s.moveToM e).drain = s.drain := rfl
@[simp] theorem State.moveToM_mulBusy (e : Slot) : (s.moveToM e).mulBusy = s.mulBusy := rfl
@[simp] theorem State.moveToM_cycle (e : Slot) : (s.moveToM e).cycle = s.cycle := rfl
@[simp] theorem State.moveToM_retired (e : Slot) : (s.moveToM e).retired = s.retired := rfl
@[simp] theorem State.moveToM_stop (e : Slot) : (s.moveToM e).stop = s.stop := rfl
@[simp] theorem State.moveToM_outcome (e : Slot) : (s.moveToM e).outcome = s.outcome := rfl
@[simp] theorem State.moveToM_maxCycles (e : Slot) : (s.moveToM e).maxCycles = s.maxCycles := rfl
@[simp] theorem State.moveToM_stage (e : Slot) : (s.moveToM e).stage = s.stage := rfl

/-! ### `moveToW` -/

@[simp] theorem State.moveToW_x (m : Latch) : (s.moveToW m).x = s.x := rfl
@[simp] theorem State.moveToW_valid (m : Latch) : (s.moveToW m).valid = s.valid := rfl
@[simp] theorem State.moveToW_z (m : Latch) : (s.moveToW m).z = s.z := rfl
@[simp] theorem State.moveToW_pc (m : Latch) : (s.moveToW m).pc = s.pc := rfl
@[simp] theorem State.moveToW_prog (m : Latch) : (s.moveToW m).prog = s.prog := rfl
@[simp] theorem State.moveToW_dmem (m : Latch) : (s.moveToW m).dmem = s.dmem := rfl
@[simp] theorem State.moveToW_dmemWords (m : Latch) : (s.moveToW m).dmemWords = s.dmemWords := rfl
@[simp] theorem State.moveToW_latchF (m : Latch) : (s.moveToW m).latchF = s.latchF := rfl
@[simp] theorem State.moveToW_latchD (m : Latch) : (s.moveToW m).latchD = s.latchD := rfl
@[simp] theorem State.moveToW_latchE (m : Latch) : (s.moveToW m).latchE = s.latchE := rfl
@[simp] theorem State.moveToW_latchM (m : Latch) : (s.moveToW m).latchM = .bubble := rfl
@[simp] theorem State.moveToW_latchW (m : Latch) : (s.moveToW m).latchW = m := rfl
@[simp] theorem State.moveToW_fstate (m : Latch) : (s.moveToW m).fstate = s.fstate := rfl
@[simp] theorem State.moveToW_brWait (m : Latch) : (s.moveToW m).brWait = s.brWait := rfl
@[simp] theorem State.moveToW_exState (m : Latch) : (s.moveToW m).exState = s.exState := rfl
@[simp] theorem State.moveToW_brStall (m : Latch) : (s.moveToW m).brStall = s.brStall := rfl
@[simp] theorem State.moveToW_drain (m : Latch) : (s.moveToW m).drain = s.drain := rfl
@[simp] theorem State.moveToW_mulBusy (m : Latch) : (s.moveToW m).mulBusy = s.mulBusy := rfl
@[simp] theorem State.moveToW_cycle (m : Latch) : (s.moveToW m).cycle = s.cycle := rfl
@[simp] theorem State.moveToW_retired (m : Latch) : (s.moveToW m).retired = s.retired := rfl
@[simp] theorem State.moveToW_stop (m : Latch) : (s.moveToW m).stop = s.stop := rfl
@[simp] theorem State.moveToW_outcome (m : Latch) : (s.moveToW m).outcome = s.outcome := rfl
@[simp] theorem State.moveToW_maxCycles (m : Latch) : (s.moveToW m).maxCycles = s.maxCycles := rfl
@[simp] theorem State.moveToW_stage (m : Latch) : (s.moveToW m).stage = s.stage := rfl

/-! ### `retire` -/

@[simp] theorem State.retire_x (w : Slot) : (s.retire w).x = s.x := rfl
@[simp] theorem State.retire_valid (w : Slot) : (s.retire w).valid = s.valid := rfl
@[simp] theorem State.retire_z (w : Slot) : (s.retire w).z = s.z := rfl
@[simp] theorem State.retire_pc (w : Slot) : (s.retire w).pc = s.pc := rfl
@[simp] theorem State.retire_prog (w : Slot) : (s.retire w).prog = s.prog := rfl
@[simp] theorem State.retire_dmem (w : Slot) : (s.retire w).dmem = s.dmem := rfl
@[simp] theorem State.retire_dmemWords (w : Slot) : (s.retire w).dmemWords = s.dmemWords := rfl
@[simp] theorem State.retire_latchF (w : Slot) : (s.retire w).latchF = s.latchF := rfl
@[simp] theorem State.retire_latchD (w : Slot) : (s.retire w).latchD = s.latchD := rfl
@[simp] theorem State.retire_latchE (w : Slot) : (s.retire w).latchE = s.latchE := rfl
@[simp] theorem State.retire_latchM (w : Slot) : (s.retire w).latchM = s.latchM := rfl
@[simp] theorem State.retire_latchW (w : Slot) : (s.retire w).latchW = s.latchW := rfl
@[simp] theorem State.retire_fstate (w : Slot) : (s.retire w).fstate = s.fstate := rfl
@[simp] theorem State.retire_brWait (w : Slot) : (s.retire w).brWait = s.brWait := rfl
@[simp] theorem State.retire_exState (w : Slot) : (s.retire w).exState = s.exState := rfl
@[simp] theorem State.retire_brStall (w : Slot) : (s.retire w).brStall = s.brStall := rfl
@[simp] theorem State.retire_drain (w : Slot) : (s.retire w).drain = s.drain := rfl
@[simp] theorem State.retire_mulBusy (w : Slot) : (s.retire w).mulBusy = s.mulBusy := rfl
@[simp] theorem State.retire_cycle (w : Slot) : (s.retire w).cycle = s.cycle := rfl
@[simp] theorem State.retire_retired (w : Slot) : (s.retire w).retired = s.retired + 1 := rfl
@[simp] theorem State.retire_stop (w : Slot) : (s.retire w).stop = if w.pc.toNat = s.lastPC then some .lastInstruction else s.stop := rfl
@[simp] theorem State.retire_outcome (w : Slot) : (s.retire w).outcome = s.outcome := rfl
@[simp] theorem State.retire_maxCycles (w : Slot) : (s.retire w).maxCycles = s.maxCycles := rfl
@[simp] theorem State.retire_stage (w : Slot) : (s.retire w).stage = s.stage := rfl

/-! ### `atStage` -/

@[simp] theorem State.atStage_x (st : Stage) : (s.atStage st).x = s.x := rfl
@[simp] theorem State.atStage_valid (st : Stage) : (s.atStage st).valid = s.valid := rfl
@[simp] theorem State.atStage_z (st : Stage) : (s.atStage st).z = s.z := rfl
@[simp] theorem State.atStage_pc (st : Stage) : (s.atStage st).pc = s.pc := rfl
@[simp] theorem State.atStage_prog (st : Stage) : (s.atStage st).prog = s.prog := rfl
@[simp] theorem State.atStage_dmem (st : Stage) : (s.atStage st).dmem = s.dmem := rfl
@[simp] theorem State.atStage_dmemWords (st : Stage) : (s.atStage st).dmemWords = s.dmemWords := rfl
@[simp] theorem State.atStage_latchF (st : Stage) : (s.atStage st).latchF = s.latchF := rfl
@[simp] theorem State.atStage_latchD (st : Stage) : (s.atStage st).latchD = s.latchD := rfl
@[simp] theorem State.atStage_latchE (st : Stage) : (s.atStage st).latchE = s.latchE := rfl
@[simp] theorem State.atStage_latchM (st : Stage) : (s.atStage st).latchM = s.latchM := rfl
@[simp] theorem State.atStage_latchW (st : Stage) : (s.atStage st).latchW = s.latchW := rfl
@[simp] theorem State.atStage_fstate (st : Stage) : (s.atStage st).fstate = s.fstate := rfl
@[simp] theorem State.atStage_brWait (st : Stage) : (s.atStage st).brWait = s.brWait := rfl
@[simp] theorem State.atStage_exState (st : Stage) : (s.atStage st).exState = s.exState := rfl
@[simp] theorem State.atStage_brStall (st : Stage) : (s.atStage st).brStall = s.brStall := rfl
@[simp] theorem State.atStage_drain (st : Stage) : (s.atStage st).drain = s.drain := rfl
@[simp] theorem State.atStage_mulBusy (st : Stage) : (s.atStage st).mulBusy = s.mulBusy := rfl
@[simp] theorem State.atStage_cycle (st : Stage) : (s.atStage st).cycle = s.cycle := rfl
@[simp] theorem State.atStage_retired (st : Stage) : (s.atStage st).retired = s.retired := rfl
@[simp] theorem State.atStage_stop (st : Stage) : (s.atStage st).stop = s.stop := rfl
@[simp] theorem State.atStage_outcome (st : Stage) : (s.atStage st).outcome = s.outcome := rfl
@[simp] theorem State.atStage_maxCycles (st : Stage) : (s.atStage st).maxCycles = s.maxCycles := rfl
@[simp] theorem State.atStage_stage (st : Stage) : (s.atStage st).stage = st := rfl

/-! ### `beginTick` -/

@[simp] theorem State.beginTick_x : (s.beginTick).x = s.x := rfl
@[simp] theorem State.beginTick_valid : (s.beginTick).valid = s.valid := rfl
@[simp] theorem State.beginTick_z : (s.beginTick).z = s.z := rfl
@[simp] theorem State.beginTick_pc : (s.beginTick).pc = s.pc := rfl
@[simp] theorem State.beginTick_prog : (s.beginTick).prog = s.prog := rfl
@[simp] theorem State.beginTick_dmem : (s.beginTick).dmem = s.dmem := rfl
@[simp] theorem State.beginTick_dmemWords : (s.beginTick).dmemWords = s.dmemWords := rfl
@[simp] theorem State.beginTick_latchF : (s.beginTick).latchF = s.latchF := rfl
@[simp] theorem State.beginTick_latchD : (s.beginTick).latchD = s.latchD := rfl
@[simp] theorem State.beginTick_latchE : (s.beginTick).latchE = s.latchE := rfl
@[simp] theorem State.beginTick_latchM : (s.beginTick).latchM = s.latchM := rfl
@[simp] theorem State.beginTick_latchW : (s.beginTick).latchW = s.latchW := rfl
@[simp] theorem State.beginTick_fstate : (s.beginTick).fstate = s.fstate := rfl
@[simp] theorem State.beginTick_brWait : (s.beginTick).brWait = s.brWait := rfl
@[simp] theorem State.beginTick_exState : (s.beginTick).exState = s.exState := rfl
@[simp] theorem State.beginTick_brStall : (s.beginTick).brStall = s.brStall := rfl
@[simp] theorem State.beginTick_drain : (s.beginTick).drain = s.drain := rfl
@[simp] theorem State.beginTick_mulBusy : (s.beginTick).mulBusy = false := rfl
@[simp] theorem State.beginTick_cycle : (s.beginTick).cycle = s.cycle := rfl
@[simp] theorem State.beginTick_retired : (s.beginTick).retired = s.retired := rfl
@[simp] theorem State.beginTick_stop : (s.beginTick).stop = s.stop := rfl
@[simp] theorem State.beginTick_outcome : (s.beginTick).outcome = s.outcome := rfl
@[simp] theorem State.beginTick_maxCycles : (s.beginTick).maxCycles = s.maxCycles := rfl
@[simp] theorem State.beginTick_stage : (s.beginTick).stage = s.stage := rfl

/-! ### `endTick` -/

@[simp] theorem State.endTick_x : (s.endTick).x = s.x := rfl
@[simp] theorem State.endTick_valid : (s.endTick).valid = s.valid := rfl
@[simp] theorem State.endTick_z : (s.endTick).z = s.z := rfl
@[simp] theorem State.endTick_pc : (s.endTick).pc = s.pc := rfl
@[simp] theorem State.endTick_prog : (s.endTick).prog = s.prog := rfl
@[simp] theorem State.endTick_dmem : (s.endTick).dmem = s.dmem := rfl
@[simp] theorem State.endTick_dmemWords : (s.endTick).dmemWords = s.dmemWords := rfl
@[simp] theorem State.endTick_latchF : (s.endTick).latchF = s.latchF := rfl
@[simp] theorem State.endTick_latchD : (s.endTick).latchD = s.latchD := rfl
@[simp] theorem State.endTick_latchE : (s.endTick).latchE = s.latchE := rfl
@[simp] theorem State.endTick_latchM : (s.endTick).latchM = s.latchM := rfl
@[simp] theorem State.endTick_latchW : (s.endTick).latchW = s.latchW := rfl
@[simp] theorem State.endTick_fstate : (s.endTick).fstate = s.fstate := rfl
@[simp] theorem State.endTick_brWait : (s.endTick).brWait = s.brWait := rfl
@[simp] theorem State.endTick_exState : (s.endTick).exState = s.exState := rfl
@[simp] theorem State.endTick_brStall : (s.endTick).brStall = s.brStall := rfl
@[simp] theorem State.endTick_drain : (s.endTick).drain = s.drain := rfl
@[simp] theorem State.endTick_mulBusy : (s.endTick).mulBusy = false := rfl
@[simp] theorem State.endTick_cycle : (s.endTick).cycle = s.cycle + 1 := rfl
@[simp] theorem State.endTick_retired : (s.endTick).retired = s.retired := rfl
@[simp] theorem State.endTick_stop : (s.endTick).stop = s.stop := rfl
@[simp] theorem State.endTick_outcome : (s.endTick).outcome = s.outcome := rfl
@[simp] theorem State.endTick_maxCycles : (s.endTick).maxCycles = s.maxCycles := rfl
@[simp] theorem State.endTick_stage : (s.endTick).stage = .fetch := rfl

/-! ### `redeliver` -/

@[simp] theorem State.redeliver_x : (s.redeliver).x = s.x := rfl
@[simp] theorem State.redeliver_valid : (s.redeliver).valid = s.valid := rfl
@[simp] theorem State.redeliver_z : (s.redeliver).z = s.z := rfl
@[simp] theorem State.redeliver_pc : (s.redeliver).pc = s.pc := rfl
@[simp] theorem State.redeliver_prog : (s.redeliver).prog = s.prog := rfl
@[simp] theorem State.redeliver_dmem : (s.redeliver).dmem = s.dmem := rfl
@[simp] theorem State.redeliver_dmemWords : (s.redeliver).dmemWords = s.dmemWords := rfl
@[simp] theorem State.redeliver_latchF : (s.redeliver).latchF = s.latchF := rfl
@[simp] theorem State.redeliver_latchD : (s.redeliver).latchD = s.latchF := rfl
@[simp] theorem State.redeliver_latchE : (s.redeliver).latchE = s.latchE := rfl
@[simp] theorem State.redeliver_latchM : (s.redeliver).latchM = s.latchM := rfl
@[simp] theorem State.redeliver_latchW : (s.redeliver).latchW = s.latchW := rfl
@[simp] theorem State.redeliver_fstate : (s.redeliver).fstate = .normal := rfl
@[simp] theorem State.redeliver_brWait : (s.redeliver).brWait = s.brWait := rfl
@[simp] theorem State.redeliver_exState : (s.redeliver).exState = s.exState := rfl
@[simp] theorem State.redeliver_brStall : (s.redeliver).brStall = s.brStall := rfl
@[simp] theorem State.redeliver_drain : (s.redeliver).drain = s.drain := rfl
@[simp] theorem State.redeliver_mulBusy : (s.redeliver).mulBusy = s.mulBusy := rfl
@[simp] theorem State.redeliver_cycle : (s.redeliver).cycle = s.cycle := rfl
@[simp] theorem State.redeliver_retired : (s.redeliver).retired = s.retired := rfl
@[simp] theorem State.redeliver_stop : (s.redeliver).stop = s.stop := rfl
@[simp] theorem State.redeliver_outcome : (s.redeliver).outcome = s.outcome := rfl
@[simp] theorem State.redeliver_maxCycles : (s.redeliver).maxCycles = s.maxCycles := rfl
@[simp] theorem State.redeliver_stage : (s.redeliver).stage = s.stage := rfl

end Sys2Proof.Machine
end

