-- ==== Sys2Proof/Laws/Exec.lean ====
section
/-!
SUPPORT. Said once: what an instruction does in each stage, as a function of the state, and a tick as the
composition of five such functions. Later proofs cite these and do not unfold the meanings.
-/

namespace Sys2Proof.Machine

open Sys2Proof

/-- What an instruction does in Decode. -/
def decodeOf (i : Instr) (s : State) : State :=
  if isCondBranch i then s.waitThenIssue else s.issueWhenReady (src1Of i) (src2Of i) (destOf i)

/-- What an instruction does in Execute. -/
def executeOf (i : Instr) (s : State) : State :=
  match i with
  | .movc _ imm => s.compute fun _ => imm + 0
  | .load _ _ imm => s.compute fun e => effectiveAddress e.v1 imm
  | .store _ _ imm => s.compute fun e => effectiveAddress e.v2 imm
  | .add _ _ _ => s.compute fun e => e.v1 + e.v2
  | .sub _ _ _ => s.compute fun e => e.v1 + -e.v2
  | .mul _ _ _ => s.computeTwice fun e => e.v1 * e.v2
  | .and _ _ _ => s.compute fun e => e.v1 &&& e.v2
  | .or _ _ _ => s.compute fun e => e.v1 ||| e.v2
  | .xor _ _ _ => s.compute fun e => e.v1 ^^^ e.v2
  | .bz imm => s.resolve (fun t => t.z) fun e => transferTarget e.pc imm
  | .bnz imm => s.resolve (fun t => !t.z) fun e => transferTarget e.pc imm
  | .jump _ imm => s.resolve (fun _ => true) fun e => transferTarget e.v1 imm
  | .halt => s.beginDrain
  | .nop => s.executeNothing

/-- What an instruction does in Memory. -/
def memoryOf (i : Instr) (s : State) : State :=
  match i with
  | .load _ _ _ => s.dataLoad
  | .store _ _ _ => s.dataStore
  | .bz _ | .bnz _ | .jump _ _ => s.transfer
  | .halt => s.drainInMemory
  | .movc _ _ | .add _ _ _ | .sub _ _ _ | .mul _ _ _ | .and _ _ _ | .or _ _ _ | .xor _ _ _ | .nop =>
    s.passOn

/-- What an instruction does in Writeback. -/
def writebackOf (i : Instr) (s : State) : State :=
  match i with
  | .halt => s.retireHalt
  | .movc rd _ | .load rd _ _ | .add rd _ _ | .sub rd _ _ | .mul rd _ _ | .and rd _ _ | .or rd _ _
  | .xor rd _ _ => s.commit rd
  | .store _ _ _ | .bz _ | .bnz _ | .jump _ _ | .nop => s.retireOnly

variable {s : State} (i : Instr)

/-- Every instruction makes its slot in Fetch in the same way. -/
theorem exec_in_fetch (h : s.stage = .fetch) : exec i s = .next (s.fetchInto i) := by
  cases i <;>
    simp [exec, execMovc, execLoad, execStore, execAdd, execSub, execMul, execAnd, execOr, execXor,
      execBz, execBnz, execJump, execHalt, execNop, State.inStage, h]

theorem exec_in_decode (h : s.stage = .decode) : exec i s = .next (decodeOf i s) := by
  cases i <;>
    simp [exec, execMovc, execLoad, execStore, execAdd, execSub, execMul, execAnd, execOr, execXor,
      execBz, execBnz, execJump, execHalt, execNop, State.inStage, h, decodeOf, isCondBranch, src1Of,
      src2Of, destOf]

theorem exec_in_execute (h : s.stage = .execute) : exec i s = .next (executeOf i s) := by
  cases i <;>
    simp [exec, execMovc, execLoad, execStore, execAdd, execSub, execMul, execAnd, execOr, execXor,
      execBz, execBnz, execJump, execHalt, execNop, State.inStage, h, executeOf]

theorem exec_in_memory (h : s.stage = .memory) : exec i s = .next (memoryOf i s) := by
  cases i <;>
    simp [exec, execMovc, execLoad, execStore, execAdd, execSub, execMul, execAnd, execOr, execXor,
      execBz, execBnz, execJump, execHalt, execNop, State.inStage, h, memoryOf]

theorem exec_in_writeback (h : s.stage = .writeback) : exec i s = .next (writebackOf i s) := by
  cases i <;>
    simp [exec, execMovc, execLoad, execStore, execAdd, execSub, execMul, execAnd, execOr, execXor,
      execBz, execBnz, execJump, execHalt, execNop, State.inStage, h, writebackOf]

/-- `writeback()` as a function. -/
def afterWriteback (s : State) : State :=
  match s.latchW with
  | .bubble => s
  | .slot w => writebackOf w.instr (s.atStage .writeback)

/-- `memory()` as a function. -/
def afterMemory (s : State) : State :=
  match s.latchM with
  | .bubble => s.passOn
  | .slot m => memoryOf m.instr (s.atStage .memory)

/-- `execute()` as a function. -/
def afterExecute (s : State) : State :=
  match s.latchE with
  | .bubble => s
  | .slot e => executeOf e.instr (s.atStage .execute)

/-- `decode()` as a function. -/
def afterDecode (s : State) : State :=
  if s.drain || s.mulBusy then s
  else
    match s.latchD with
    | .bubble => s
    | .slot d => decodeOf d.instr (s.atStage .decode)

/-- `fetch()` as a function. -/
def afterFetch (s : State) : State :=
  if s.drain || s.brStall then s
  else
    match s.fstate with
    | .holdingPrefetch => if s.canDeliver then s.redeliver else s
    | .normal =>
      match s.imemRead s.pc with
      | some i => (s.atStage .fetch).fetchInto i
      | none => if s.canDeliver then { s with latchF := .bubble } else s

theorem writebackStage_eq (s : State) : writebackStage s = .next (afterWriteback s) := by
  cases h : s.latchW with
  | bubble => simp [writebackStage, afterWriteback, h]
  | slot w =>
    simp only [writebackStage, afterWriteback, h]
    exact exec_in_writeback _ (s.atStage_stage .writeback)

theorem memoryStage_eq (s : State) : memoryStage s = .next (afterMemory s) := by
  cases h : s.latchM with
  | bubble => simp [memoryStage, afterMemory, h]
  | slot m =>
    simp only [memoryStage, afterMemory, h]
    exact exec_in_memory _ (s.atStage_stage .memory)

theorem executeStage_eq (s : State) : executeStage s = .next (afterExecute s) := by
  cases h : s.latchE with
  | bubble => simp [executeStage, afterExecute, h]
  | slot e =>
    simp only [executeStage, afterExecute, h]
    exact exec_in_execute _ (s.atStage_stage .execute)

theorem decodeStage_eq (s : State) : decodeStage s = .next (afterDecode s) := by
  unfold decodeStage afterDecode
  by_cases hb : (s.drain || s.mulBusy) = true
  · rw [if_pos hb, if_pos hb]
  · rw [if_neg hb, if_neg hb]
    cases h : s.latchD with
    | bubble => rfl
    | slot d => exact exec_in_decode _ (s.atStage_stage .decode)

theorem fetchStage_eq (s : State) : fetchStage s = .next (afterFetch s) := by
  unfold fetchStage afterFetch
  by_cases hb : (s.drain || s.brStall) = true
  · rw [if_pos hb, if_pos hb]
  · rw [if_neg hb, if_neg hb]
    cases hf : s.fstate with
    | holdingPrefetch => cases hd : s.canDeliver <;> rfl
    | normal =>
      cases hi : s.imemRead s.pc with
      | some i => exact exec_in_fetch _ (s.atStage_stage .fetch)
      | none => cases hd : s.canDeliver <;> rfl

/-- Execute, Decode and Fetch, the part of a tick that a raise cuts off. -/
def afterFront (s : State) : State :=
  afterFetch (afterDecode (afterExecute s))

/-- A tick as a function. -/
def afterTick (s : State) : State :=
  let t := afterMemory (afterWriteback s.beginTick)
  if t.hasRaised then t.endTick else (afterFront t).endTick

/-- A tick always answers a next state. -/
theorem tick_eq (s : State) : tick s = .next (afterTick s) := by
  simp only [tick, afterTick, afterFront, writebackStage_eq, memoryStage_eq, executeStage_eq,
    decodeStage_eq, fetchStage_eq, Result.andThen]
  split <;> rfl

/-- Every instruction answers a next state in every stage. -/
theorem exec_answers_next (i : Instr) (s : State) : ∃ t, exec i s = .next t := by
  cases h : s.stage
  · exact ⟨_, exec_in_fetch i h⟩
  · exact ⟨_, exec_in_decode i h⟩
  · exact ⟨_, exec_in_execute i h⟩
  · exact ⟨_, exec_in_memory i h⟩
  · exact ⟨_, exec_in_writeback i h⟩

/-- Everything an instruction can answer: what its stage does. -/
theorem exec_cases {i : Instr} {s t : State} (h : exec i s = .next t) :
    (s.stage = .fetch ∧ t = s.fetchInto i) ∨ (s.stage = .decode ∧ t = decodeOf i s) ∨
      (s.stage = .execute ∧ t = executeOf i s) ∨ (s.stage = .memory ∧ t = memoryOf i s) ∨
      (s.stage = .writeback ∧ t = writebackOf i s) := by
  cases hx : s.stage
  · rw [exec_in_fetch i hx] at h
    cases h
    simp
  · rw [exec_in_decode i hx] at h
    cases h
    simp
  · rw [exec_in_execute i hx] at h
    cases h
    simp
  · rw [exec_in_memory i hx] at h
    cases h
    simp
  · rw [exec_in_writeback i hx] at h
    cases h
    simp

/-- A step within the budget is a tick and its conclusion (R210). -/
theorem step_tick {s : State} (ho : s.outcome = .running) (hp : s.prog ≠ [])
    (hc : s.cycle < s.maxCycles) : step s = .next (afterTick s).conclude := by
  have : ¬ s.maxCycles ≤ s.cycle := by omega
  simp [step, runStep, State.isRunning, ho, hp, this, tick_eq, Result.andThen]

/-- What a step answers: nothing changes once the run has ended; a machine with no program is refused; a
spent budget ends the run; else one tick, whose stop or abort ends the run. -/
theorem step_cases {s t : State} (h : step s = .next t) :
    (s.isRunning = false ∧ t = s) ∨
      (s.outcome = .running ∧ s.prog ≠ [] ∧ s.maxCycles ≤ s.cycle ∧
        t = { s with outcome := .cycleBudgetExceeded }) ∨
      (s.outcome = .running ∧ s.prog ≠ [] ∧ s.cycle < s.maxCycles ∧ t = (afterTick s).conclude) := by
  simp only [step, runStep] at h
  split at h
  · rename_i hr
    cases h
    exact .inl ⟨by simpa using hr, rfl⟩
  · rename_i hr
    have ho : s.outcome = .running := by simpa [State.isRunning] using hr
    split at h
    · cases h
    · rename_i hp
      split at h
      · rename_i hc
        cases h
        exact .inr (.inl ⟨ho, hp, hc, rfl⟩)
      · rename_i hc
        rw [tick_eq] at h
        cases h
        exact .inr (.inr ⟨ho, hp, by omega, rfl⟩)

end Sys2Proof.Machine
end

