-- ==== Sys2Proof/Laws/Stages.lean ====
section
/-!
SUPPORT. Said once for each stage procedure: everything it can do. Every invariant is derived from these.
-/

namespace Sys2Proof.Machine

open Sys2Proof

/-- The one-tick computations: what they compute in Execute. -/
def computedValue (i : Instr) (e : Slot) : Option Word :=
  match i with
  | .movc _ imm => some imm
  | .load _ _ imm => some (e.v1 + imm)
  | .store _ _ imm => some (e.v2 + imm)
  | .add _ _ _ => some (e.v1 + e.v2)
  | .sub _ _ _ => some (e.v1 - e.v2)
  | .and _ _ _ => some (e.v1 &&& e.v2)
  | .or _ _ _ => some (e.v1 ||| e.v2)
  | .xor _ _ _ => some (e.v1 ^^^ e.v2)
  | .mul _ _ _ | .bz _ | .bnz _ | .jump _ _ | .halt | .nop => none

/-- Is a transfer taken with this flag, and where to? -/
def takenTarget (i : Instr) (z : Bool) (e : Slot) : Option Word :=
  match i with
  | .bz imm => if z then some (e.pc + imm) else none
  | .bnz imm => if z then none else some (e.pc + imm)
  | .jump _ imm => some (e.v1 + imm)
  | .movc _ _ | .load _ _ _ | .store _ _ _ | .add _ _ _ | .sub _ _ _ | .mul _ _ _ | .and _ _ _
  | .or _ _ _ | .xor _ _ _ | .halt | .nop => none

/-- An instruction that accesses data memory. -/
def isAccess : Instr → Bool
  | .load _ _ _ | .store _ _ _ => true
  | .movc _ _ | .add _ _ _ | .sub _ _ _ | .mul _ _ _ | .and _ _ _ | .or _ _ _ | .xor _ _ _ | .bz _
  | .bnz _ | .jump _ _ | .halt | .nop => false

/-- Everything Writeback can do. -/
theorem afterWriteback_cases (s : State) :
    (s.latchW = .bubble ∧ afterWriteback s = s) ∨
    (∃ w, s.latchW = .slot w ∧ w.instr = .halt ∧
      afterWriteback s = { ({ s.atStage .writeback with retired := s.retired + 1,
                                                        stop := some .halt }).squashM.squashE.flushFront with
                           drain := true }) ∨
    (∃ w, ∃ rd, s.latchW = .slot w ∧ destOf w.instr = some rd ∧
      afterWriteback s = (((s.atStage .writeback).writeReg rd w.buf).setValid rd true).retire w) ∨
    (∃ w, s.latchW = .slot w ∧ destOf w.instr = none ∧ w.instr ≠ .halt ∧
      afterWriteback s = (s.atStage .writeback).retire w) := by
  cases h : s.latchW with
  | bubble => exact .inl ⟨rfl, by simp [afterWriteback, h]⟩
  | slot w =>
    refine .inr ?_
    cases hi : w.instr <;>
      simp [afterWriteback, h, writebackOf, hi, destOf, State.commit, State.retireOnly, State.retireHalt]

/-- Everything Memory can do: pass a slot on, load, store, redirect, drain, or raise. -/
theorem afterMemory_cases (s : State) :
    (s.latchM = .bubble ∧ afterMemory s = s.moveToW .bubble) ∨
    (∃ m, s.latchM = .slot m ∧ isAccess m.instr = false ∧ m.instr ≠ .halt ∧
      (isTransfer m.instr && m.taken) = false ∧
      afterMemory s = (s.atStage .memory).moveToW (.slot m)) ∨
    (∃ m rd rs1 imm, s.latchM = .slot m ∧ m.instr = .load rd rs1 imm ∧ s.dataAddrOK m.buf = true ∧
      afterMemory s = (s.atStage .memory).moveToW (.slot { m with buf := s.memRead m.buf })) ∨
    (∃ m rs1 rs2 imm, s.latchM = .slot m ∧ m.instr = .store rs1 rs2 imm ∧ s.dataAddrOK m.buf = true ∧
      afterMemory s = ((s.atStage .memory).memWrite m.buf m.v1).moveToW (.slot m)) ∨
    (∃ m, s.latchM = .slot m ∧ isTransfer m.instr = true ∧ m.taken = true ∧ s.instrAddrOK m.buf = true ∧
      afterMemory s = ((s.atStage .memory).redirectTo m.buf).moveToW (.slot m)) ∨
    (∃ m, s.latchM = .slot m ∧ m.instr = .halt ∧
      afterMemory s = ({ (s.atStage .memory).squashE with drain := true }).moveToW (.slot m)) ∨
    (∃ m, s.latchM = .slot m ∧ isAccess m.instr = true ∧ s.dataAddrOK m.buf = false ∧
      afterMemory s = (s.atStage .memory).raise (.dataOutOfRange m.buf m.pc)) ∨
    (∃ m, s.latchM = .slot m ∧ isTransfer m.instr = true ∧ m.taken = true ∧ s.instrAddrOK m.buf = false ∧
      afterMemory s = (s.atStage .memory).raise (.instrOutOfRange m.buf m.pc)) := by
  have hd : ∀ a, (s.atStage .memory).dataAddrOK a = s.dataAddrOK a := fun _ => rfl
  have hi' : ∀ a, (s.atStage .memory).instrAddrOK a = s.instrAddrOK a := fun _ => rfl
  have hr : ∀ a, (s.atStage .memory).memRead a = s.memRead a := fun _ => rfl
  cases h : s.latchM with
  | bubble => exact .inl ⟨rfl, by simp [afterMemory, h, State.passOn]⟩
  | slot m =>
    refine .inr ?_
    cases hi : m.instr <;>
      simp only [afterMemory, h, memoryOf, hi, isAccess, isTransfer, State.passOn, State.dataLoad,
        State.dataStore, State.transfer, State.drainInMemory, State.atStage_latchM, hd, hi', hr]
    case load rd rs1 imm =>
      cases ha : s.dataAddrOK m.buf <;> simp [hi, ha]
    case store rs1 rs2 imm =>
      cases ha : s.dataAddrOK m.buf <;> simp [hi, ha]
    case bz imm =>
      cases ht : m.taken <;> cases ha : s.instrAddrOK m.buf <;> simp [hi, ht, ha]
    case bnz imm =>
      cases ht : m.taken <;> cases ha : s.instrAddrOK m.buf <;> simp [hi, ht, ha]
    case jump rs1 imm =>
      cases ht : m.taken <;> cases ha : s.instrAddrOK m.buf <;> simp [hi, ht, ha]
    all_goals simp [hi]

/-- Everything Execute can do: compute, the two cycles of a MUL, resolve a transfer taken or not, begin
the drain, or move a NOP on. -/
theorem afterExecute_cases (s : State) :
    (s.latchE = .bubble ∧ afterExecute s = s) ∨
    (∃ e v, s.latchE = .slot e ∧ computedValue e.instr e = some v ∧
      afterExecute s = ((s.atStage .execute).setZ v).moveToM { e with buf := v }) ∨
    (∃ e, s.latchE = .slot e ∧ isMul e.instr = true ∧ s.exState = .idle ∧
      afterExecute s = { (s.atStage .execute).setZ (e.v1 * e.v2) with
                         mulBusy := true, latchE := .slot { e with buf := e.v1 * e.v2 },
                         latchM := .bubble, exState := .mul1 }) ∨
    (∃ e, s.latchE = .slot e ∧ isMul e.instr = true ∧ s.exState = .mul1 ∧
      afterExecute s = { (s.atStage .execute).moveToM e with mulBusy := true, exState := .idle }) ∨
    (∃ e t, s.latchE = .slot e ∧ isTransfer e.instr = true ∧ takenTarget e.instr s.z e = some t ∧
      afterExecute s = { ((s.atStage .execute).setZ t).moveToM { e with buf := t, taken := true } with
                         brStall := true }) ∨
    (∃ e, s.latchE = .slot e ∧ isTransfer e.instr = true ∧ takenTarget e.instr s.z e = none ∧
      afterExecute s = (s.atStage .execute).moveToM { e with taken := false }) ∨
    (∃ e, s.latchE = .slot e ∧ e.instr = .halt ∧
      afterExecute s = ({ s.atStage .execute with drain := true }).flushFront.moveToM e) ∨
    (∃ e, s.latchE = .slot e ∧ e.instr = .nop ∧ afterExecute s = (s.atStage .execute).moveToM e) := by
  cases h : s.latchE with
  | bubble => exact .inl ⟨rfl, by simp [afterExecute, h]⟩
  | slot e =>
    refine .inr ?_
    cases hi : e.instr <;>
      simp only [afterExecute, h, executeOf, hi, State.compute, State.computeTwice, State.resolve,
        State.beginDrain, State.executeNothing, State.atStage_latchE, State.atStage_exState,
        State.atStage_z, effectiveAddress, transferTarget]
    case mul rd rs1 rs2 => cases hx : s.exState <;> simp [hi, isMul, computedValue, isTransfer]
    case bz imm => cases hz : s.z <;> simp [hi, isMul, computedValue, isTransfer, takenTarget]
    case bnz imm => cases hz : s.z <;> simp [hi, isMul, computedValue, isTransfer, takenTarget]
    case jump rs1 imm => simp [hi, isMul, computedValue, isTransfer, takenTarget]
    case sub rd rs1 rs2 =>
      simp [hi, isMul, computedValue, isTransfer, BitVec.sub_eq_add_neg]
    all_goals simp [hi, isMul, computedValue, isTransfer]

/-- Everything Decode can do: nothing, hold, count a branch's wait, issue a branch, issue another
instruction. -/
theorem afterDecode_cases (s : State) :
    (((s.drain || s.mulBusy) = true ∨ s.latchD = .bubble) ∧ afterDecode s = s) ∨
    (∃ d, (s.drain || s.mulBusy) = false ∧ s.latchD = .slot d ∧ isCondBranch d.instr = false ∧
      s.ready (src1Of d.instr) (src2Of d.instr) (destOf d.instr) = false ∧
      afterDecode s = s.atStage .decode) ∨
    (∃ d, (s.drain || s.mulBusy) = false ∧ s.latchD = .slot d ∧ isCondBranch d.instr = true ∧
      s.brWait < Config.branchWait ∧
      afterDecode s = { s.atStage .decode with brWait := s.brWait + 1 }) ∨
    (∃ d, (s.drain || s.mulBusy) = false ∧ s.latchD = .slot d ∧ isCondBranch d.instr = true ∧
      Config.branchWait ≤ s.brWait ∧
      afterDecode s = { s.atStage .decode with brWait := 0, latchE := .slot d, latchD := .bubble }) ∨
    (∃ d, (s.drain || s.mulBusy) = false ∧ s.latchD = .slot d ∧ isCondBranch d.instr = false ∧
      s.ready (src1Of d.instr) (src2Of d.instr) (destOf d.instr) = true ∧
      afterDecode s = { (s.atStage .decode).claim (destOf d.instr) with
                        latchE := .slot (s.readOperands (src1Of d.instr) (src2Of d.instr) d),
                        latchD := .bubble }) := by
  by_cases hb : (s.drain || s.mulBusy) = true
  · exact .inl ⟨.inl hb, by rw [afterDecode, if_pos hb]⟩
  · have hb' : (s.drain || s.mulBusy) = false := by simpa using hb
    cases h : s.latchD with
    | bubble => exact .inl ⟨.inr rfl, by rw [afterDecode, if_neg hb, h]⟩
    | slot d =>
      refine .inr ?_
      have hr : ∀ a b c, (s.atStage .decode).ready a b c = s.ready a b c := fun _ _ _ => rfl
      have ho : ∀ a b d, (s.atStage .decode).readOperands a b d = s.readOperands a b d :=
        fun _ _ _ => rfl
      cases hc : isCondBranch d.instr with
      | true =>
        by_cases hw : s.brWait < Config.branchWait
        · exact .inr (.inl ⟨d, hb', rfl, hc, hw, by
            simp [afterDecode, hb', h, decodeOf, hc, State.waitThenIssue, hw]⟩)
        · exact .inr (.inr (.inl ⟨d, hb', rfl, hc, by omega, by
            simp [afterDecode, hb', h, decodeOf, hc, State.waitThenIssue, hw]⟩))
      | false =>
        cases hy : s.ready (src1Of d.instr) (src2Of d.instr) (destOf d.instr) with
        | true =>
          exact .inr (.inr (.inr ⟨d, hb', rfl, hc, hy, by
            simp [afterDecode, hb', h, decodeOf, hc, State.issueWhenReady, hr, ho, hy]⟩))
        | false =>
          exact .inl ⟨d, hb', rfl, hc, hy, by
            simp [afterDecode, hb', h, decodeOf, hc, State.issueWhenReady, hr, hy]⟩

/-- Everything Fetch can do: nothing, redeliver, fetch and deliver, prefetch, find no instruction. -/
theorem afterFetch_cases (s : State) :
    (afterFetch s = s) ∨
    (s.drain = false ∧ s.brStall = false ∧ s.fstate = .holdingPrefetch ∧ s.latchD = .bubble ∧
      s.mulBusy = false ∧ afterFetch s = s.redeliver) ∨
    (∃ i, s.drain = false ∧ s.brStall = false ∧ s.fstate = .normal ∧ s.imemRead s.pc = some i ∧
      s.latchD = .bubble ∧ s.mulBusy = false ∧
      afterFetch s = { s.atStage .fetch with
                       latchF := .slot (newSlot i s.pc), latchD := .slot (newSlot i s.pc),
                       pc := s.pc + 4 }) ∨
    (∃ i, s.drain = false ∧ s.brStall = false ∧ s.fstate = .normal ∧ s.imemRead s.pc = some i ∧
      (s.latchD ≠ .bubble ∨ s.mulBusy = true) ∧
      afterFetch s = { s.atStage .fetch with
                       latchF := .slot (newSlot i s.pc), pc := s.pc + 4, fstate := .holdingPrefetch }) ∨
    (s.drain = false ∧ s.brStall = false ∧ s.fstate = .normal ∧ s.imemRead s.pc = none ∧
      s.latchD = .bubble ∧ s.mulBusy = false ∧ afterFetch s = { s with latchF := .bubble }) := by
  by_cases hb : (s.drain || s.brStall) = true
  · exact .inl (by rw [afterFetch, if_pos hb])
  · have hb' : s.drain = false ∧ s.brStall = false := by simpa using hb
    have hc : ∀ x : State, x.canDeliver = true ↔ x.latchD = .bubble ∧ x.mulBusy = false := by
      intro x
      simp [State.canDeliver]
    cases hf : s.fstate with
    | holdingPrefetch =>
      cases hd : s.canDeliver with
      | true =>
        exact .inr (.inl ⟨hb'.1, hb'.2, rfl, ((hc s).1 hd).1, ((hc s).1 hd).2, by
          simp [afterFetch, hb', hf, hd]⟩)
      | false => exact .inl (by simp [afterFetch, hf, hd])
    | normal =>
      have hs : (s.atStage .fetch).canDeliver = s.canDeliver := rfl
      cases hi : s.imemRead s.pc with
      | some i =>
        cases hd : s.canDeliver with
        | true =>
          exact .inr (.inr (.inl ⟨i, hb'.1, hb'.2, rfl, rfl, ((hc s).1 hd).1, ((hc s).1 hd).2, by
            simp [afterFetch, hb', hf, hi, State.fetchInto, hs, hd]⟩))
        | false =>
          refine .inr (.inr (.inr (.inl ⟨i, hb'.1, hb'.2, rfl, rfl, ?_, by
            simp [afterFetch, hb', hf, hi, State.fetchInto, hs, hd]⟩)))
          by_contra hn
          push Not at hn
          rw [(hc s).2 ⟨hn.1, by simpa using hn.2⟩] at hd
          cases hd
      | none =>
        cases hd : s.canDeliver with
        | true =>
          exact .inr (.inr (.inr (.inr ⟨hb'.1, hb'.2, rfl, rfl, ((hc s).1 hd).1, ((hc s).1 hd).2, by
            simp [afterFetch, hb', hf, hi, hd]⟩)))
        | false => exact .inl (by simp [afterFetch, hf, hi, hd])

end Sys2Proof.Machine
end

