-- ==== Sys2Proof/Laws/Ops.lean ====
section
/-!
SUPPORT. Small facts about the shared operations: validity bits, latches, addresses of the instruction
sequence, claims.
-/

namespace Sys2Proof.Machine

open Sys2Proof

variable {s : State}

/-- Z tests the whole result (R239). -/
@[simp] theorem zeroFlag_eq (v : Word) : zeroFlag v = decide (v = 0) := by
  unfold zeroFlag
  rw [beq_eq_decide]

theorem State.isValid_setValid (r q : RegIdx) (b : Bool) (s : State) :
    (s.setValid r b).isValid q = if q = r then b else s.isValid q := by
  simp only [State.isValid, State.setValid]
  by_cases h : q = r
  · subst h
    simp
  · have h' : r.val ≠ q.val := fun e => h (Fin.ext e.symm)
    simp [Vector.getElem_set_ne, h, h']

theorem State.readReg_writeReg (r q : RegIdx) (v : Word) (s : State) :
    (s.writeReg r v).readReg q = if q = r then v else s.readReg q := by
  simp only [State.readReg, State.writeReg]
  by_cases h : q = r
  · subst h
    simp
  · have h' : r.val ≠ q.val := fun e => h (Fin.ext e.symm)
    simp [Vector.getElem_set_ne, h, h']

theorem State.isValid_releaseClaim (r? : Option RegIdx) (q : RegIdx) (s : State) :
    (s.releaseClaim r?).isValid q = if r? = some q then true else s.isValid q := by
  cases r? with
  | none => simp [State.releaseClaim]
  | some r => simp [State.releaseClaim, State.isValid_setValid, eq_comm]

theorem State.isValid_claim (r? : Option RegIdx) (q : RegIdx) (s : State) :
    (s.claim r?).isValid q = if r? = some q then false else s.isValid q := by
  cases r? with
  | none => simp [State.claim]
  | some r => simp [State.claim, State.isValid_setValid, eq_comm]

/-- The validity bits depend on the bitmap alone. -/
theorem State.isValid_congr {a b : State} (h : a.valid = b.valid) (r : RegIdx) :
    a.isValid r = b.isValid r := by
  simp [State.isValid, h]

@[simp] theorem Latch.has_bubble (p : Slot → Bool) : Latch.bubble.has p = false := rfl

@[simp] theorem Latch.has_slot (c : Slot) (p : Slot → Bool) : (Latch.slot c).has p = p c := rfl

@[simp] theorem Latch.dest_bubble : Latch.bubble.dest? = none := rfl

@[simp] theorem Latch.dest_slot (c : Slot) : (Latch.slot c).dest? = destOf c.instr := rfl

@[simp] theorem Latch.claims_bubble (r : RegIdx) : Latch.bubble.claims r = 0 := rfl

theorem Latch.claims_slot (c : Slot) (r : RegIdx) :
    (Latch.slot c).claims r = if destOf c.instr = some r then 1 else 0 := rfl

theorem Latch.claims_congr {a b : Slot} (h : a.instr = b.instr) (r : RegIdx) :
    (Latch.slot a).claims r = (Latch.slot b).claims r := by
  simp [Latch.claims_slot, h]

@[simp] theorem Latch.follows_bubble (pc : Word) : Latch.bubble.follows pc := by
  intro c h
  cases h

@[simp] theorem Latch.follows_slot (c : Slot) (pc : Word) :
    (Latch.slot c).follows pc ↔ c.pc = pc + 4 := by
  simp [Latch.follows]

/-- A transfer and a HALT claim nothing. -/
theorem destOf_transfer {i : Instr} (h : isTransfer i = true) : destOf i = none := by
  cases i <;> simp_all [isTransfer, destOf]

theorem destOf_condBranch {i : Instr} (h : isCondBranch i = true) : destOf i = none := by
  cases i <;> simp_all [isCondBranch, destOf]

/-- The instruction sequence is read by its own contents alone. -/
theorem State.imemRead_congr {a b : State} (h : a.prog = b.prog) (pc : Word) :
    a.imemRead pc = b.imemRead pc := by
  simp [State.imemRead, State.instrAddrOK, h]

theorem State.lastPC_congr {a b : State} (h : a.prog = b.prog) : a.lastPC = b.lastPC := by
  simp [State.lastPC, h]

/-- `IMemRead` answers exactly where `InstrAddrOK` holds (R85). -/
theorem State.imemRead_isSome (s : State) (a : Word) : (s.imemRead a).isSome = s.instrAddrOK a := by
  unfold State.imemRead
  cases h : s.instrAddrOK a with
  | false => rfl
  | true =>
    simp only [State.instrAddrOK, Bool.and_eq_true, decide_eq_true_eq] at h
    simp [h.2]

/-- An instruction address that is in the sequence, in numbers. -/
theorem State.imemRead_bounds {s : State} {a : Word} {i : Instr} (h : s.imemRead a = some i) :
    4000 ≤ a.toNat ∧ a.toNat % 4 = 0 ∧ (a.toNat - 4000) / 4 < s.prog.length := by
  have ho : s.instrAddrOK a = true := by
    rw [← State.imemRead_isSome, h]
    rfl
  unfold State.instrAddrOK instrIndex Config.baseAddr Config.iStride at ho
  rw [Bool.and_eq_true, Bool.and_eq_true, decide_eq_true_iff, decide_eq_true_iff,
    decide_eq_true_iff] at ho
  omega

theorem FromProgram_bubble (s : State) : s.FromProgram .bubble := by
  intro c h
  cases h

theorem FromProgram_slot {s : State} {c : Slot} :
    s.FromProgram (.slot c) ↔ s.imemRead c.pc = some c.instr := by
  simp [State.FromProgram]

theorem FromProgram_congr {a b : State} (h : a.prog = b.prog) (l : Latch) :
    a.FromProgram l ↔ b.FromProgram l := by
  simp only [State.FromProgram, State.imemRead_congr h]

end Sys2Proof.Machine
end

