-- ==== Sys2Proof/Laws/Frames.lean ====
section
/-!
SUPPORT. What an instruction leaves unchanged in each stage, and what each stage procedure leaves unchanged.
-/

namespace Sys2Proof.Machine

open Sys2Proof

theorem fetchInto_frame (i : Instr) (s : State) :
    (s.fetchInto i).x = s.x ∧ (s.fetchInto i).valid = s.valid ∧ (s.fetchInto i).z = s.z ∧
      (s.fetchInto i).pc = s.pc + 4 ∧ (s.fetchInto i).dmem = s.dmem := by
  unfold State.fetchInto
  split <;> simp

theorem decodeOf_frame (i : Instr) (s : State) :
    (decodeOf i s).x = s.x ∧ (decodeOf i s).z = s.z ∧ (decodeOf i s).pc = s.pc ∧
      (decodeOf i s).dmem = s.dmem := by
  unfold decodeOf State.waitThenIssue State.issueWhenReady
  repeat' split
  all_goals simp

theorem executeOf_frame (i : Instr) (s : State) :
    (executeOf i s).x = s.x ∧ (executeOf i s).valid = s.valid ∧ (executeOf i s).pc = s.pc ∧
      (executeOf i s).dmem = s.dmem := by
  cases i <;>
    simp only [executeOf, State.compute, State.computeTwice, State.resolve, State.beginDrain,
      State.executeNothing] <;> split <;> try simp
  all_goals (split <;> simp)

theorem memoryOf_frame (i : Instr) (s : State) :
    (memoryOf i s).x = s.x ∧ (memoryOf i s).z = s.z := by
  cases i <;>
    simp only [memoryOf, State.passOn, State.dataLoad, State.dataStore, State.transfer,
      State.drainInMemory]
  all_goals (repeat' split)
  all_goals simp

theorem writebackOf_frame (i : Instr) (s : State) :
    (writebackOf i s).z = s.z ∧ (writebackOf i s).pc = s.pc ∧ (writebackOf i s).dmem = s.dmem := by
  cases i <;> simp only [writebackOf, State.commit, State.retireOnly, State.retireHalt] <;> split <;> simp

/-- A writer commits to its own destination (R150). -/
theorem writebackOf_writer {i : Instr} {rd : RegIdx} (h : destOf i = some rd) (s : State) :
    writebackOf i s = s.commit rd := by
  cases i <;> simp [destOf] at h <;> subst h <;> rfl

/-- BZ, BNZ and JUMP do the same in Memory (R164). -/
theorem memoryOf_transfer {i : Instr} (h : isTransfer i = true) (s : State) :
    memoryOf i s = s.transfer := by
  cases i <;> simp [isTransfer] at h <;> rfl

theorem afterWriteback_frame (s : State) :
    (afterWriteback s).prog = s.prog ∧ (afterWriteback s).dmemWords = s.dmemWords ∧ (afterWriteback s).dmem = s.dmem ∧
    (afterWriteback s).z = s.z ∧ (afterWriteback s).pc = s.pc ∧ (afterWriteback s).outcome = s.outcome ∧
    (afterWriteback s).cycle = s.cycle ∧ (afterWriteback s).maxCycles = s.maxCycles ∧ (afterWriteback s).latchW = s.latchW
    ∧ (afterWriteback s).brStall = s.brStall ∧ (afterWriteback s).mulBusy = s.mulBusy := by
  rcases afterWriteback_cases s with ⟨-, e⟩ | ⟨w, -, -, e⟩ | ⟨w, rd, -, -, e⟩ | ⟨w, -, -, -, e⟩ <;> simp [e]

theorem afterMemory_frame (s : State) :
    (afterMemory s).prog = s.prog ∧ (afterMemory s).dmemWords = s.dmemWords ∧ 
    (afterMemory s).z = s.z ∧  (afterMemory s).x = s.x ∧ (afterMemory s).stop = s.stop ∧ (afterMemory s).retired = s.retired ∧
    (afterMemory s).cycle = s.cycle ∧ (afterMemory s).maxCycles = s.maxCycles ∧ (afterMemory s).mulBusy = s.mulBusy := by
  rcases afterMemory_cases s with ⟨-, e⟩ | ⟨m, -, -, -, -, e⟩ | ⟨m, rd, rs1, imm, -, -, -, e⟩ |
    ⟨m, rs1, rs2, imm, -, -, -, e⟩ | ⟨m, -, -, -, -, e⟩ | ⟨m, -, -, e⟩ | ⟨m, -, -, -, e⟩ | ⟨m, -, -, -, -, e⟩ <;> simp [e]

theorem afterExecute_frame (s : State) :
    (afterExecute s).prog = s.prog ∧ (afterExecute s).dmemWords = s.dmemWords ∧ (afterExecute s).dmem = s.dmem ∧
    (afterExecute s).x = s.x ∧ (afterExecute s).valid = s.valid ∧ (afterExecute s).pc = s.pc ∧ (afterExecute s).outcome = s.outcome ∧
    (afterExecute s).stop = s.stop ∧ (afterExecute s).retired = s.retired ∧ (afterExecute s).latchW = s.latchW ∧
    (afterExecute s).cycle = s.cycle ∧ (afterExecute s).maxCycles = s.maxCycles := by
  rcases afterExecute_cases s with ⟨-, e⟩ | ⟨c, v, -, -, e⟩ | ⟨c, -, -, -, e⟩ | ⟨c, -, -, -, e⟩ | ⟨c, t, -, -, -, e⟩ |
    ⟨c, -, -, -, e⟩ | ⟨c, -, -, e⟩ | ⟨c, -, -, e⟩ <;> simp [e]

theorem afterDecode_frame (s : State) :
    (afterDecode s).prog = s.prog ∧ (afterDecode s).dmemWords = s.dmemWords ∧ (afterDecode s).dmem = s.dmem ∧
    (afterDecode s).x = s.x ∧ (afterDecode s).z = s.z ∧ (afterDecode s).pc = s.pc ∧ (afterDecode s).outcome = s.outcome ∧
    (afterDecode s).stop = s.stop ∧ (afterDecode s).retired = s.retired ∧ (afterDecode s).latchW = s.latchW ∧ (afterDecode s).latchM = s.latchM ∧
    (afterDecode s).latchF = s.latchF ∧ (afterDecode s).fstate = s.fstate ∧ (afterDecode s).drain = s.drain ∧ (afterDecode s).brStall = s.brStall ∧ 
    (afterDecode s).exState = s.exState ∧ (afterDecode s).mulBusy = s.mulBusy ∧
    (afterDecode s).cycle = s.cycle ∧ (afterDecode s).maxCycles = s.maxCycles := by
  rcases afterDecode_cases s with ⟨-, e⟩ | ⟨d, -, -, -, -, e⟩ | ⟨d, -, -, -, -, e⟩ | ⟨d, -, -, -, -, e⟩ | ⟨d, -, -, -, -, e⟩ <;> simp [e]

theorem afterFetch_frame (s : State) :
    (afterFetch s).prog = s.prog ∧ (afterFetch s).dmemWords = s.dmemWords ∧ (afterFetch s).dmem = s.dmem ∧
    (afterFetch s).x = s.x ∧ (afterFetch s).z = s.z ∧ (afterFetch s).valid = s.valid ∧ (afterFetch s).outcome = s.outcome ∧
    (afterFetch s).stop = s.stop ∧ (afterFetch s).retired = s.retired ∧ (afterFetch s).latchW = s.latchW ∧ (afterFetch s).latchM = s.latchM ∧
    (afterFetch s).latchE = s.latchE ∧ (afterFetch s).drain = s.drain ∧ (afterFetch s).brStall = s.brStall ∧ 
    (afterFetch s).exState = s.exState ∧ (afterFetch s).mulBusy = s.mulBusy ∧ (afterFetch s).brWait = s.brWait ∧
    (afterFetch s).cycle = s.cycle ∧ (afterFetch s).maxCycles = s.maxCycles := by
  rcases afterFetch_cases s with e | ⟨-, -, -, -, -, e⟩ | ⟨i, -, -, -, -, -, -, e⟩ | ⟨i, -, -, -, -, -, e⟩ | ⟨-, -, -, -, -, -, e⟩ <;> simp [e]

end Sys2Proof.Machine
end

