-- ==== Sys2Proof/Laws/Memory.lean ====
section
/-!
SUPPORT. The canonical form of the data memory is kept by every memory operation, and what a memory
operation leaves readable.
-/

namespace Sys2Proof.Machine

open Sys2Proof

/-- A higher bound on the addresses is the stronger form. -/
theorem Memory.wfFrom_mono {lo lo' : Nat} (h : lo' ≤ lo) :
    ∀ m : Memory, m.wfFrom lo = true → m.wfFrom lo' = true
  | [], _ => rfl
  | (b, w) :: rest, hm => by
    simp only [Memory.wfFrom, Bool.and_eq_true, decide_eq_true_eq] at hm ⊢
    exact ⟨by omega, hm.2⟩

/-- An address below every listed one is unlisted. -/
theorem Memory.read_below {a lo : Nat} (h : a < lo) :
    ∀ m : Memory, m.wfFrom lo = true → m.read a = 0
  | [], _ => rfl
  | (b, w) :: rest, hm => by
    simp only [Memory.wfFrom, Bool.and_eq_true, decide_eq_true_eq] at hm
    rw [Memory.read, if_neg (by omega)]
    exact Memory.read_below (by omega) rest hm.2.2

/-- A cell below a canonical rest keeps the form. -/
theorem Memory.wfFrom_cons {lo a : Nat} {v : Word} {m : Memory} (ha : lo ≤ a)
    (hm : m.wfFrom (a + 1) = true) : (Memory.cons a v m).wfFrom lo = true := by
  unfold Memory.cons
  split
  · exact Memory.wfFrom_mono (by omega) m hm
  · rename_i hv
    simp only [Memory.wfFrom, Bool.and_eq_true, decide_eq_true_eq]
    exact ⟨ha, hv, hm⟩

/-- Reading past an added cell. -/
theorem Memory.read_cons {a b : Nat} {v : Word} {m : Memory} (hm : m.wfFrom (a + 1) = true) :
    (Memory.cons a v m).read b = if b = a then v else m.read b := by
  unfold Memory.cons
  split
  · rename_i hv
    subst hv
    split
    · subst b
      exact Memory.read_below (Nat.lt_succ_self a) m hm
    · rfl
  · rfl

/-- A write keeps the canonical form. -/
theorem Memory.wfFrom_write {lo a : Nat} {v : Word} (ha : lo ≤ a) :
    ∀ m : Memory, m.wfFrom lo = true → (m.write a v).wfFrom lo = true
  | [], _ => Memory.wfFrom_cons ha rfl
  | (b, w) :: rest, hm => by
    have hm' := hm
    simp only [Memory.wfFrom, Bool.and_eq_true, decide_eq_true_eq] at hm'
    obtain ⟨hb, hw, hrest⟩ := hm'
    unfold Memory.write
    split
    · refine Memory.wfFrom_cons ha ?_
      simp only [Memory.wfFrom, Bool.and_eq_true, decide_eq_true_eq]
      exact ⟨by omega, hw, hrest⟩
    · split
      · subst a
        exact Memory.wfFrom_cons ha hrest
      · simp only [Memory.wfFrom, Bool.and_eq_true, decide_eq_true_eq]
        exact ⟨hb, hw, Memory.wfFrom_write (by omega) rest hrest⟩

/-- A write keeps the canonical form. -/
theorem Memory.wf_write {a : Nat} {v : Word} {m : Memory} (hm : m.wf = true) :
    (m.write a v).wf = true :=
  Memory.wfFrom_write (Nat.zero_le a) m hm

/-- Building a memory from words gives the canonical form. -/
theorem Memory.wfFrom_ofWordsFrom :
    ∀ (ws : List Word) (a : Nat), (Memory.ofWordsFrom a ws).wfFrom a = true
  | [], _ => rfl
  | _ :: rest, a =>
    Memory.wfFrom_cons (Nat.le_refl a)
      (Memory.wfFrom_mono (by omega) _ (Memory.wfFrom_ofWordsFrom rest (a + 4)))

/-- The initial data memory is in canonical form. -/
theorem Memory.wf_ofWords (ws : List Word) : (Memory.ofWords ws).wf = true :=
  Memory.wfFrom_ofWordsFrom ws 0

/-- The reset memory is in canonical form. -/
theorem reset_memory_wf : State.reset.dmem.wf = true := rfl

/-- An added cell whose address is in range. -/
theorem Memory.inRange_cons {n a : Nat} {v : Word} {m : Memory} (h4 : a % 4 = 0) (hn : a < 4 * n)
    (hm : m.inRange n = true) : (Memory.cons a v m).inRange n = true := by
  unfold Memory.cons
  split
  · exact hm
  · simp only [Memory.inRange, List.all_cons, Bool.and_eq_true, decide_eq_true_eq] at hm ⊢
    exact ⟨⟨h4, hn⟩, hm⟩

/-- A write to a word of the memory lists no address outside it. -/
theorem Memory.inRange_write {n a : Nat} {v : Word} (h4 : a % 4 = 0) (hn : a < 4 * n) :
    ∀ m : Memory, m.inRange n = true → (m.write a v).inRange n = true
  | [], _ => Memory.inRange_cons h4 hn rfl
  | (b, w) :: rest, hm => by
    have hrest : Memory.inRange n rest = true := by
      simp only [Memory.inRange, List.all_cons, Bool.and_eq_true] at hm
      exact hm.2
    unfold Memory.write
    split
    · exact Memory.inRange_cons h4 hn hm
    · split
      · exact Memory.inRange_cons h4 hn hrest
      · have h := Memory.inRange_write (v := v) h4 hn rest hrest
        simp only [Memory.inRange, List.all_cons, Bool.and_eq_true] at hm h ⊢
        exact ⟨hm.1, h⟩

/-- The initial data memory lists only words of it. -/
theorem Memory.inRange_ofWordsFrom (n : Nat) :
    ∀ (ws : List Word) (a : Nat), a % 4 = 0 → a + 4 * ws.length ≤ 4 * n →
      (Memory.ofWordsFrom a ws).inRange n = true
  | [], _, _, _ => rfl
  | _ :: rest, a, h4, hn => by
    simp only [List.length_cons] at hn
    exact Memory.inRange_cons h4 (by omega)
      (Memory.inRange_ofWordsFrom n rest (a + 4) (by omega) (by omega))

/-- Reading after a write of a canonical memory. -/
theorem Memory.read_write {a b lo : Nat} {v : Word} :
    ∀ m : Memory, m.wfFrom lo = true → (m.write a v).read b = if b = a then v else m.read b
  | [], _ => Memory.read_cons rfl
  | (c, w) :: rest, hm => by
    have hm' := hm
    simp only [Memory.wfFrom, Bool.and_eq_true, decide_eq_true_eq] at hm'
    obtain ⟨-, hw, hrest⟩ := hm'
    unfold Memory.write
    split
    · refine Memory.read_cons ?_
      simp only [Memory.wfFrom, Bool.and_eq_true, decide_eq_true_eq]
      exact ⟨by omega, hw, hrest⟩
    · split
      · subst a
        rw [Memory.read_cons hrest]
        by_cases hb : b = c
        · simp [hb]
        · simp [hb, Memory.read]
      · rename_i h1 h2
        simp only [Memory.read, Memory.read_write rest hrest]
        by_cases hb : b = c
        · rw [if_pos hb, if_pos hb, if_neg (by omega)]
        · rw [if_neg hb, if_neg hb]

/-- The words of the initial data memory, word k at 4k (R80). -/
theorem Memory.read_ofWordsFrom :
    ∀ (ws : List Word) (a k : Nat) (v : Word), ws[k]? = some v → (Memory.ofWordsFrom a ws).read (a + 4 * k) = v
  | [], _, _, _, h => by simp at h
  | w :: rest, a, k, v, h => by
    have hm : (Memory.ofWordsFrom (a + 4) rest).wfFrom (a + 1) = true :=
      Memory.wfFrom_mono (by omega) _ (Memory.wfFrom_ofWordsFrom rest (a + 4))
    rw [Memory.ofWordsFrom, Memory.read_cons hm]
    cases k with
    | zero => simpa using h
    | succ k =>
      rw [if_neg (by omega), show a + 4 * (k + 1) = a + 4 + 4 * k by omega]
      exact Memory.read_ofWordsFrom rest (a + 4) k v (by simpa using h)

end Sys2Proof.Machine
end

