-- ==== Sys2Proof/Laws/Control.lean ====
section
/-!
SUPPORT. The control-state invariants and the fetched-in-place invariant, stage by stage.
-/

namespace Sys2Proof.Machine

open Sys2Proof

variable {s : State}

/-! ### `State.MulInE` -/
theorem mulInE_writeback (h : s.MulInE) : (afterWriteback s).MulInE := by
  unfold State.MulInE at *
  rcases afterWriteback_cases s with ⟨-, e⟩ | ⟨w, -, -, e⟩ | ⟨w, rd, -, -, e⟩ | ⟨w, -, -, -, e⟩ <;> rw [e] <;> first | (simp; done) | simpa using h

theorem mulInE_memory (h : s.MulInE) : (afterMemory s).MulInE := by
  unfold State.MulInE at *
  rcases afterMemory_cases s with ⟨-, e⟩ | ⟨m, -, -, -, -, e⟩ | ⟨m, rd, rs1, imm, -, -, -, e⟩ |
    ⟨m, rs1, rs2, imm, -, -, -, e⟩ | ⟨m, -, -, -, -, e⟩ | ⟨m, -, -, e⟩ | ⟨m, -, -, -, e⟩ | ⟨m, -, -, -, -, e⟩ <;> rw [e] <;> first | (simp; done) | simpa using h

theorem mulInE_execute (h : s.MulInE) : (afterExecute s).MulInE := by
  unfold State.MulInE at *
  rcases afterExecute_cases s with ⟨-, e⟩ | ⟨c, v, hc, hv, e⟩ | ⟨c, -, hm, -, e⟩ | ⟨c, -, -, -, e⟩ | ⟨c, t, hc, ht, -, e⟩ |
    ⟨c, hc, ht, -, e⟩ | ⟨c, hc, hi, e⟩ | ⟨c, hc, hi, e⟩ <;> rw [e]
  · exact h
  · intro hx
    have := h (by simpa using hx)
    cases hi : c.instr <;> simp_all [computedValue, isMul]
  · simp [hm]
  · simp
  · intro hx
    have := h (by simpa using hx)
    cases hi : c.instr <;> simp_all [isTransfer, isMul]
  · intro hx
    have := h (by simpa using hx)
    cases hi : c.instr <;> simp_all [isTransfer, isMul]
  · intro hx
    have := h (by simpa using hx)
    simp_all [isMul]
  · intro hx
    have := h (by simpa using hx)
    simp_all [isMul]

/-- Decode leaves E alone unless it is empty. -/
theorem mulInE_decode (hE : s.latchE = .bubble ∨ s.mulBusy = true) (h : s.MulInE) : (afterDecode s).MulInE := by
  unfold State.MulInE at *
  rcases afterDecode_cases s with ⟨-, e⟩ | ⟨d, -, -, -, -, e⟩ | ⟨d, -, -, -, -, e⟩ | ⟨d, hb, -, -, -, e⟩ | ⟨d, hb, -, -, -, e⟩ <;> rw [e]
  · exact h
  · simpa using h
  · simpa using h
  · intro hx
    have := h (by simpa using hx)
    simp_all
  · intro hx
    have := h (by simpa using hx)
    simp_all

theorem mulInE_fetch (h : s.MulInE) : (afterFetch s).MulInE := by
  have f := afterFetch_frame s
  unfold State.MulInE at *
  simp_all

/-! ### `State.BranchWaits` -/
theorem branchWaits_writeback (h : s.BranchWaits) : (afterWriteback s).BranchWaits := by
  unfold State.BranchWaits at *
  rcases afterWriteback_cases s with ⟨-, e⟩ | ⟨w, -, -, e⟩ | ⟨w, rd, -, -, e⟩ | ⟨w, -, -, -, e⟩ <;> rw [e] <;> first | (simp; done) | simpa using h

theorem branchWaits_memory (h : s.BranchWaits) : (afterMemory s).BranchWaits := by
  unfold State.BranchWaits at *
  rcases afterMemory_cases s with ⟨-, e⟩ | ⟨m, -, -, -, -, e⟩ | ⟨m, rd, rs1, imm, -, -, -, e⟩ |
    ⟨m, rs1, rs2, imm, -, -, -, e⟩ | ⟨m, -, -, -, -, e⟩ | ⟨m, -, -, e⟩ | ⟨m, -, -, -, e⟩ | ⟨m, -, -, -, -, e⟩ <;> rw [e] <;> first | (simp; done) | simpa using h

theorem branchWaits_execute (h : s.BranchWaits) : (afterExecute s).BranchWaits := by
  unfold State.BranchWaits at *
  rcases afterExecute_cases s with ⟨-, e⟩ | ⟨c, v, hc, hv, e⟩ | ⟨c, -, hm, -, e⟩ | ⟨c, -, -, -, e⟩ | ⟨c, t, hc, ht, -, e⟩ |
    ⟨c, hc, ht, -, e⟩ | ⟨c, hc, hi, e⟩ | ⟨c, hc, hi, e⟩ <;> rw [e] <;> first | (simp; done) | simpa using h

theorem branchWaits_decode (h : s.BranchWaits) : (afterDecode s).BranchWaits := by
  unfold State.BranchWaits at *
  rcases afterDecode_cases s with ⟨-, e⟩ | ⟨d, -, -, -, -, e⟩ | ⟨d, -, hd, hc, hw, e⟩ | ⟨d, hb, -, -, -, e⟩ | ⟨d, hb, hd, hc, -, e⟩ <;> rw [e]
  · exact h
  · simpa using h
  · simp [hd, hc]; omega
  · simp
  · simp_all

theorem branchWaits_fetch (h : s.BranchWaits) : (afterFetch s).BranchWaits := by
  unfold State.BranchWaits at *
  rcases afterFetch_cases s with e | ⟨-, -, -, hd, -, e⟩ | ⟨i, -, -, -, -, hd, -, e⟩ | ⟨i, -, -, -, -, -, e⟩ | ⟨-, -, -, -, -, -, e⟩ <;> rw [e]
  · exact h
  · simp_all
  · simp_all
  · simpa using h
  · simpa using h

/-! ### `State.PrefetchHeld` -/
theorem prefetchHeld_writeback (h : s.PrefetchHeld) : (afterWriteback s).PrefetchHeld := by
  unfold State.PrefetchHeld at *
  rcases afterWriteback_cases s with ⟨-, e⟩ | ⟨w, -, -, e⟩ | ⟨w, rd, -, -, e⟩ | ⟨w, -, -, -, e⟩ <;> rw [e] <;> first | (simp; done) | simpa using h

theorem prefetchHeld_memory (h : s.PrefetchHeld) : (afterMemory s).PrefetchHeld := by
  unfold State.PrefetchHeld at *
  rcases afterMemory_cases s with ⟨-, e⟩ | ⟨m, -, -, -, -, e⟩ | ⟨m, rd, rs1, imm, -, -, -, e⟩ |
    ⟨m, rs1, rs2, imm, -, -, -, e⟩ | ⟨m, -, -, -, -, e⟩ | ⟨m, -, -, e⟩ | ⟨m, -, -, -, e⟩ | ⟨m, -, -, -, -, e⟩ <;> rw [e] <;> first | (simp; done) | simpa using h

theorem prefetchHeld_execute (h : s.PrefetchHeld) : (afterExecute s).PrefetchHeld := by
  unfold State.PrefetchHeld at *
  rcases afterExecute_cases s with ⟨-, e⟩ | ⟨c, v, hc, hv, e⟩ | ⟨c, -, hm, -, e⟩ | ⟨c, -, -, -, e⟩ | ⟨c, t, hc, ht, -, e⟩ |
    ⟨c, hc, ht, -, e⟩ | ⟨c, hc, hi, e⟩ | ⟨c, hc, hi, e⟩ <;> rw [e] <;> first | (simp; done) | simpa using h

theorem prefetchHeld_decode (h : s.PrefetchHeld) : (afterDecode s).PrefetchHeld := by
  have f := afterDecode_frame s
  unfold State.PrefetchHeld at *
  simp_all

theorem prefetchHeld_fetch (h : s.PrefetchHeld) : (afterFetch s).PrefetchHeld := by
  unfold State.PrefetchHeld at *
  rcases afterFetch_cases s with e | ⟨-, -, -, hd, -, e⟩ | ⟨i, -, -, hf, -, hd, -, e⟩ | ⟨i, -, -, -, -, -, e⟩ | ⟨-, -, hf, -, -, -, e⟩ <;> rw [e]
  · exact h
  · simp
  · simp [hf]
  · simp
  · simp [hf]

/-! ### `State.StallWhileTaken` -/
theorem stall_writeback (hW : ∀ w, s.latchW = .slot w → w.instr = .halt → s.latchM = .bubble) (h : s.StallWhileTaken) :
    (afterWriteback s).StallWhileTaken := by
  unfold State.StallWhileTaken at *
  rcases afterWriteback_cases s with ⟨-, e⟩ | ⟨w, hw, hi, e⟩ | ⟨w, rd, -, -, e⟩ | ⟨w, -, -, -, e⟩ <;> rw [e]
  · exact h
  · have := hW w hw hi
    simp_all
  · simpa using h
  · simpa using h

theorem stall_memory (h : s.StallWhileTaken) : (afterMemory s).StallWhileTaken := by
  unfold State.StallWhileTaken at *
  rcases afterMemory_cases s with ⟨hm, e⟩ | ⟨m, hm, ha, hi, ht, e⟩ | ⟨m, rd, rs1, imm, hm, hi, -, e⟩ |
    ⟨m, rs1, rs2, imm, hm, hi, -, e⟩ | ⟨m, hm, hi, ht, -, e⟩ | ⟨m, hm, hi, e⟩ | ⟨m, hm, hi, -, e⟩ | ⟨m, hm, hi, ht, -, e⟩ <;> rw [e]
  · simp_all
  · obtain ⟨h1, h2, h3⟩ := h
    simp only [hm, Latch.has_slot] at h1 h2
    have : m.taken = false := by
      cases hx : m.taken <;> simp_all
    simp_all
  · simp_all [isTransfer]
  · simp_all [isTransfer]
  · simp_all
  · simp_all [isTransfer]
  · simpa using h
  · simpa using h

theorem stall_execute (hM : s.latchM = .bubble) (h : s.StallWhileTaken) : (afterExecute s).StallWhileTaken := by
  unfold State.StallWhileTaken at *
  rcases afterExecute_cases s with ⟨-, e⟩ | ⟨c, v, hc, hv, e⟩ | ⟨c, hc, hm, -, e⟩ | ⟨c, hc, -, -, e⟩ | ⟨c, t, hc, ht, -, e⟩ |
    ⟨c, hc, ht, -, e⟩ | ⟨c, hc, hi, e⟩ | ⟨c, hc, hi, e⟩ <;> rw [e]
  · exact h
  all_goals simp_all

theorem stall_decode (h : s.StallWhileTaken) : (afterDecode s).StallWhileTaken := by
  unfold State.StallWhileTaken at *
  rcases afterDecode_cases s with ⟨-, e⟩ | ⟨d, -, -, -, -, e⟩ | ⟨d, -, hd, hc, hw, e⟩ | ⟨d, hb, hd, -, -, e⟩ | ⟨d, hb, hd, hc, -, e⟩ <;> rw [e]
  · exact h
  · simpa using h
  · simpa using h
  · simp_all
  · simp_all [State.readOperands]

theorem stall_fetch (h : s.StallWhileTaken) : (afterFetch s).StallWhileTaken := by
  unfold State.StallWhileTaken at *
  rcases afterFetch_cases s with e | ⟨-, -, -, hd, -, e⟩ | ⟨i, -, -, hf, -, hd, -, e⟩ | ⟨i, -, -, -, -, -, e⟩ | ⟨-, -, hf, -, -, -, e⟩ <;> rw [e]
  · exact h
  all_goals simp_all [newSlot]

/-! ### `State.MemoryOK` -/
theorem memoryOK_memory (h : s.MemoryOK) : (afterMemory s).MemoryOK := by
  unfold State.MemoryOK at *
  rcases afterMemory_cases s with ⟨hm, e⟩ | ⟨m, hm, ha, hi, ht, e⟩ | ⟨m, rd, rs1, imm, hm, hi, -, e⟩ |
    ⟨m, rs1, rs2, imm, hm, hi, ha, e⟩ | ⟨m, hm, hi, ht, -, e⟩ | ⟨m, hm, hi, e⟩ | ⟨m, hm, hi, -, e⟩ | ⟨m, hm, hi, ht, -, e⟩ <;> rw [e]
  case inr.inr.inr.inl =>
    simp only [State.dataAddrOK, Bool.and_eq_true, decide_eq_true_eq] at ha
    simp only [State.moveToW_dmem, State.memWrite_dmem, State.atStage_dmem, State.moveToW_dmemWords, State.memWrite_dmemWords,
      State.atStage_dmemWords]
    exact ⟨Memory.wf_write h.1, Memory.inRange_write ha.1 ha.2 _ h.2.1, h.2.2⟩
  all_goals simpa using h


/-! ### `State.DrainEmpties` -/

/-- `State.DrainEmpties` between Writeback and Memory, when W has retired. -/
def State.DrainMid (s : State) : Prop :=
  s.drain = true → s.latchF = .bubble ∧ s.latchD = .bubble ∧ s.latchE = .bubble ∧
      (s.stop = some .halt ∨ (s.latchM.has fun m => decide (m.instr = .halt)) = true)

theorem drain_writeback (hs : s.stop = none) (h : s.DrainEmpties) : (afterWriteback s).DrainMid := by
  unfold State.DrainEmpties State.DrainMid at *
  rcases afterWriteback_cases s with ⟨hw, e⟩ | ⟨w, hw, hi, e⟩ | ⟨w, rd, hw, hi, e⟩ | ⟨w, hw, -, hi, e⟩ <;> rw [e]
  · simp_all
  · simp
  · have : w.instr ≠ .halt := by rintro hx; simp [hx, destOf] at hi
    simp_all
  · simp_all

theorem drain_memory (hM : ∀ m, s.latchM = .slot m → m.instr = .halt → s.drain = true) (h : s.DrainMid) : (afterMemory s).DrainEmpties := by
  unfold State.DrainEmpties State.DrainMid at *
  rcases afterMemory_cases s with ⟨hm, e⟩ | ⟨m, hm, ha, hi, ht, e⟩ | ⟨m, rd, rs1, imm, hm, hi, -, e⟩ |
    ⟨m, rs1, rs2, imm, hm, hi, -, e⟩ | ⟨m, hm, hi, ht, -, e⟩ | ⟨m, hm, hi, e⟩ | ⟨m, hm, hi, -, e⟩ | ⟨m, hm, hi, ht, -, e⟩ <;> rw [e]
  · simp_all
  · simp_all
  · simp_all
  · simp_all
  · intro hd
    have := h (by simpa using hd)
    simp_all
  · intro _
    have := h (hM m hm hi)
    simp_all
  · simp_all; tauto
  · simp_all; tauto

theorem drain_execute (h : s.DrainEmpties) : (afterExecute s).DrainEmpties := by
  unfold State.DrainEmpties at *
  rcases afterExecute_cases s with ⟨-, e⟩ | ⟨c, v, hc, hv, e⟩ | ⟨c, hc, hm, -, e⟩ | ⟨c, hc, -, -, e⟩ | ⟨c, t, hc, ht, -, e⟩ |
    ⟨c, hc, ht, -, e⟩ | ⟨c, hc, hi, e⟩ | ⟨c, hc, hi, e⟩ <;> rw [e]
  · exact h
  all_goals simp_all

theorem drain_decode (h : s.DrainEmpties) : (afterDecode s).DrainEmpties := by
  unfold State.DrainEmpties at *
  rcases afterDecode_cases s with ⟨-, e⟩ | ⟨d, -, -, -, -, e⟩ | ⟨d, -, hd, hc, hw, e⟩ | ⟨d, hb, hd, -, -, e⟩ | ⟨d, hb, hd, hc, -, e⟩ <;> rw [e]
  · exact h
  all_goals simp_all

theorem drain_fetch (h : s.DrainEmpties) : (afterFetch s).DrainEmpties := by
  unfold State.DrainEmpties at *
  rcases afterFetch_cases s with e | ⟨hn, -, -, hd, -, e⟩ | ⟨i, hn, -, hf, -, hd, -, e⟩ | ⟨i, hn, -, -, -, -, e⟩ | ⟨hn, -, hf, -, -, -, e⟩ <;> rw [e]
  · exact h
  all_goals simp_all

/-! ### `State.FetchedInPlace` -/
theorem inPlace_writeback (h : s.FetchedInPlace) : (afterWriteback s).FetchedInPlace := by
  have f := (afterWriteback_frame s).1
  unfold State.FetchedInPlace at *
  simp only [FromProgram_congr f]
  rcases afterWriteback_cases s with ⟨-, e⟩ | ⟨w, hw, hi, e⟩ | ⟨w, rd, -, -, e⟩ | ⟨w, -, -, -, e⟩ <;> rw [e]
  · exact h
  · simp_all [FromProgram_bubble]
  · simpa using h
  · simpa using h

theorem inPlace_memory (h : s.FetchedInPlace) : (afterMemory s).FetchedInPlace := by
  have f := (afterMemory_frame s).1
  unfold State.FetchedInPlace at *
  simp only [FromProgram_congr f]
  rcases afterMemory_cases s with ⟨hm, e⟩ | ⟨m, hm, ha, hi, ht, e⟩ | ⟨m, rd, rs1, imm, hm, hi, -, e⟩ |
    ⟨m, rs1, rs2, imm, hm, hi, -, e⟩ | ⟨m, hm, hi, ht, ha, e⟩ | ⟨m, hm, hi, e⟩ | ⟨m, hm, hi, -, e⟩ | ⟨m, hm, hi, ht, -, e⟩ <;> rw [e]
  case inr.inr.inr.inr.inl =>
    have ha' := ha
    rw [← State.imemRead_isSome] at ha'
    obtain ⟨i, hi'⟩ := Option.isSome_iff_exists.1 ha'
    have := (State.imemRead_bounds hi').2.1
    simp_all [FromProgram_bubble]
  all_goals simp_all [FromProgram_bubble, FromProgram_slot]

theorem inPlace_execute (h : s.FetchedInPlace) : (afterExecute s).FetchedInPlace := by
  have f := (afterExecute_frame s).1
  unfold State.FetchedInPlace at *
  simp only [FromProgram_congr f]
  rcases afterExecute_cases s with ⟨-, e⟩ | ⟨c, v, hc, hv, e⟩ | ⟨c, hc, hm, -, e⟩ | ⟨c, hc, -, -, e⟩ | ⟨c, t, hc, ht, -, e⟩ |
    ⟨c, hc, ht, -, e⟩ | ⟨c, hc, hi, e⟩ | ⟨c, hc, hi, e⟩ <;> rw [e] <;> simp_all [FromProgram_bubble, FromProgram_slot]

theorem inPlace_decode (h : s.FetchedInPlace) : (afterDecode s).FetchedInPlace := by
  have f := (afterDecode_frame s).1
  unfold State.FetchedInPlace at *
  simp only [FromProgram_congr f]
  rcases afterDecode_cases s with ⟨-, e⟩ | ⟨d, -, -, -, -, e⟩ | ⟨d, -, hd, hc, hw, e⟩ | ⟨d, hb, hd, -, -, e⟩ | ⟨d, hb, hd, hc, -, e⟩ <;> rw [e] <;>
   simp_all [FromProgram_bubble, FromProgram_slot, State.readOperands]

theorem grid_add {a : Word} (h : a.toNat % 4 = 0) : (a + 4).toNat % 4 = 0 := by
  rw [BitVec.toNat_add]
  have : (4 : Word).toNat = 4 := rfl
  omega

theorem inPlace_fetch (h : s.FetchedInPlace) : (afterFetch s).FetchedInPlace := by
  have f := (afterFetch_frame s).1
  unfold State.FetchedInPlace at *
  simp only [FromProgram_congr f]
  have := grid_add h.1
  rcases afterFetch_cases s with e | ⟨-, -, -, hd, -, e⟩ | ⟨i, -, -, hf, hi, hd, -, e⟩ | ⟨i, -, -, -, hi, -, e⟩ | ⟨-, -, hf, -, -, -, e⟩ <;> rw [e] <;>
    simp_all [FromProgram_bubble, FromProgram_slot, newSlot]

end Sys2Proof.Machine
end

