-- ==== Sys2Proof/Laws/Encoding.lean ====
section
/-!
SUPPORT. The packed word and its fields, as numbers.
-/

namespace Sys2Proof

theorem toNat_join {m n : Nat} (a : BitVec m) (b : BitVec n) :
    (a ++ b).toNat = a.toNat * 2 ^ n + b.toNat := by
  rw [BitVec.toNat_append, ← Nat.shiftLeft_add_eq_or_of_lt b.isLt, Nat.shiftLeft_eq]

/-- A packed word as a number: the fields at their places (R114). -/
theorem pack_toNat (c : BitVec 4) (rd rs1 rs2 : RegIdx) (imm : Word) :
    (Rec64.pack c rd rs1 rs2 imm).toNat =
      (((c.toNat * 32 + rd.val) * 32 + rs1.val) * 32 + rs2.val) * 2 ^ 32 + imm.toNat := by
  have h : (Rec64.pack c rd rs1 rs2 imm).toNat =
    ((((((0 : BitVec 13) ++ c) ++ BitVec.ofFin (w := 5) rd) ++ BitVec.ofFin (w := 5) rs1) ++
      BitVec.ofFin (w := 5) rs2) ++ imm).toNat := rfl
  rw [h, toNat_join, toNat_join, toNat_join, toNat_join, toNat_join]
  simp

/-- Every field of a packed word reads back. -/
theorem fields_pack (c : BitVec 4) (rd rs1 rs2 : RegIdx) (imm : Word) :
    Rec64.reserved (Rec64.pack c rd rs1 rs2 imm) = 0 ∧ Rec64.code (Rec64.pack c rd rs1 rs2 imm) = c ∧
      Rec64.rd (Rec64.pack c rd rs1 rs2 imm) = rd ∧ Rec64.rs1 (Rec64.pack c rd rs1 rs2 imm) = rs1 ∧
      Rec64.rs2 (Rec64.pack c rd rs1 rs2 imm) = rs2 ∧ Rec64.imm (Rec64.pack c rd rs1 rs2 imm) = imm := by
  have h := pack_toNat c rd rs1 rs2 imm
  have hc := c.isLt
  have h1 := rd.isLt
  have h2 := rs1.isLt
  have h3 := rs2.isLt
  have h4 := imm.isLt
  have field : ∀ k n : Nat, ((Rec64.pack c rd rs1 rs2 imm).extractLsb' k n).toNat =
      ((((c.toNat * 32 + rd.val) * 32 + rs1.val) * 32 + rs2.val) * 2 ^ 32 + imm.toNat) / 2 ^ k % 2 ^ n := by
    intro k n
    rw [BitVec.extractLsb'_toNat, h, Nat.shiftRight_eq_div_pow]
  refine ⟨BitVec.eq_of_toNat_eq ?_, BitVec.eq_of_toNat_eq ?_, Fin.ext ?_, Fin.ext ?_, Fin.ext ?_,
    BitVec.eq_of_toNat_eq ?_⟩
  · show (BitVec.extractLsb' 51 13 _).toNat = 0
    rw [field]
    omega
  · show (BitVec.extractLsb' 47 4 _).toNat = _
    rw [field]
    omega
  · show (BitVec.extractLsb' 42 5 _).toNat = _
    rw [field]
    omega
  · show (BitVec.extractLsb' 37 5 _).toNat = _
    rw [field]
    omega
  · show (BitVec.extractLsb' 32 5 _).toNat = _
    rw [field]
    omega
  · show (BitVec.extractLsb' 0 32 _).toNat = _
    rw [field]
    omega

theorem ofCode_code (op : Opcode) : Opcode.ofCode op.code = some op := by
  cases op <;> rfl

/-- The mask of R115 keeps bits 63:47. -/
theorem mask_toNat (w : Rec64) : (w &&& opcodeMask).toNat = w.toNat / 2 ^ 47 * 2 ^ 47 := by
  rw [BitVec.toNat_and]
  have : opcodeMask.toNat = (2 ^ 17 - 1) <<< 47 := by decide
  rw [this]
  have hw := w.isLt
  apply Nat.eq_of_testBit_eq
  intro k
  rw [Nat.testBit_and, Nat.testBit_shiftLeft, Nat.testBit_two_pow_sub_one, ← Nat.shiftRight_eq_div_pow,
    ← Nat.shiftLeft_eq, Nat.testBit_shiftLeft, Nat.testBit_shiftRight]
  by_cases h : k ≥ 47
  · have : 47 + (k - 47) = k := by omega
    simp only [h, decide_true, Bool.true_and, this]
    have big : 17 ≤ k - 47 → w.toNat.testBit k = false := fun hk =>
      Nat.testBit_lt_two_pow (lt_of_lt_of_le hw (Nat.pow_le_pow_right (by omega) (by omega)))
    by_cases hk : k - 47 < 17
    · simp [hk]
    · simp [hk, big (by omega)]
  · simp [h]

theorem pattern_toNat (op : Opcode) : op.pattern.toNat = op.code.toNat * 2 ^ 47 := by
  cases op <;> decide

/-- A packed word matches the row of its op code (R115). -/
theorem pack_matches (op : Opcode) (rd rs1 rs2 : RegIdx) (imm : Word) :
    Rec64.pack op.code rd rs1 rs2 imm &&& opcodeMask = op.pattern := by
  apply BitVec.eq_of_toNat_eq
  rw [mask_toNat, pack_toNat, pattern_toNat]
  have h1 := rd.isLt
  have h2 := rs1.isLt
  have h3 := rs2.isLt
  have h4 := imm.isLt
  omega

/-- The reserved bits 63:51 as a number (R114). -/
theorem reserved_iff (w : Rec64) : Rec64.reserved w = 0 ↔ w.toNat / 2 ^ 51 = 0 := by
  have hw := w.isLt
  constructor
  · intro h
    have := congrArg BitVec.toNat h
    simp only [Rec64.reserved, BitVec.extractLsb'_toNat, Nat.shiftRight_eq_div_pow] at this
    simp at this
    omega
  · intro h
    apply BitVec.eq_of_toNat_eq
    simp only [Rec64.reserved, BitVec.extractLsb'_toNat, Nat.shiftRight_eq_div_pow, h]
    rfl

/-- The op code, bits 50:47, as a number (R114). -/
theorem code_toNat (w : Rec64) : (Rec64.code w).toNat = w.toNat / 2 ^ 47 % 16 := by
  simp only [Rec64.code, BitVec.extractLsb'_toNat, Nat.shiftRight_eq_div_pow]

/-- `rd`, bits 46:42 (R117). -/
theorem rd_eq (w : Rec64) : Rec64.rd w = Fin.ofNat 32 (w.toNat / 2 ^ 42) := by
  apply Fin.ext
  show (BitVec.extractLsb' 42 5 w).toNat = _
  simp only [BitVec.extractLsb'_toNat, Nat.shiftRight_eq_div_pow]; rfl

/-- `rs1`, bits 41:37 (R117). -/
theorem rs1_eq (w : Rec64) : Rec64.rs1 w = Fin.ofNat 32 (w.toNat / 2 ^ 37) := by
  apply Fin.ext
  show (BitVec.extractLsb' 37 5 w).toNat = _
  simp only [BitVec.extractLsb'_toNat, Nat.shiftRight_eq_div_pow]; rfl

/-- `rs2`, bits 36:32 (R117). -/
theorem rs2_eq (w : Rec64) : Rec64.rs2 w = Fin.ofNat 32 (w.toNat / 2 ^ 32) := by
  apply Fin.ext
  show (BitVec.extractLsb' 32 5 w).toNat = _
  simp only [BitVec.extractLsb'_toNat, Nat.shiftRight_eq_div_pow]; rfl

/-- `imm`, bits 31:0 (R116). -/
theorem imm_eq (w : Rec64) : Rec64.imm w = BitVec.ofNat 32 w.toNat := by
  apply BitVec.eq_of_toNat_eq
  simp [Rec64.imm, BitVec.extractLsb'_toNat]

/-- A word matches a row when its reserved bits are 0 and its op code is the row's (R115). -/
theorem match_iff (w : Rec64) (op : Opcode) :
    w &&& opcodeMask = op.pattern ↔ w.toNat / 2 ^ 51 = 0 ∧ Rec64.code w = op.code := by
  have hw := w.isLt
  have hc := op.code.isLt
  constructor
  · intro h
    have := congrArg BitVec.toNat h
    rw [mask_toNat, pattern_toNat] at this
    refine ⟨by omega, BitVec.eq_of_toNat_eq ?_⟩
    rw [code_toNat]; omega
  · rintro ⟨h1, h2⟩
    apply BitVec.eq_of_toNat_eq
    rw [mask_toNat, pattern_toNat, ← h2, code_toNat]
    omega

/-- A word that matches a row decodes to that row's opcode with its own fields (R118). -/
theorem decode_match {w : Rec64} {op : Opcode} (h : w &&& opcodeMask = op.pattern) :
    decode w = .ok (op.build (Rec64.rd w) (Rec64.rs1 w) (Rec64.rs2 w) (Rec64.imm w)) := by
  obtain ⟨h1, h2⟩ := (match_iff w op).1 h
  unfold decode
  rw [if_pos ((reserved_iff w).2 h1), h2, ofCode_code]

end Sys2Proof
end

