-- ==== Sys2Proof/Laws/Launch.lean ====
section
/-!
SUPPORT. What the launch does with a sequence that is in order and with one that is not.
-/

namespace Sys2Proof.Machine

open Sys2Proof

/-- Whether an instruction of the sequence is in order does not depend on its index. -/
theorem load_ok_any {item : ProgramItem} {k : Nat} (h : ∃ i, item.load 0 = .ok i) : ∃ i, item.load k = .ok i := by
  obtain ⟨i, h⟩ := h
  cases item with
  | rec64 w =>
    simp only [ProgramItem.load] at h ⊢
    cases hd : decode w <;> simp [hd] at h ⊢
  | record r =>
    simp only [ProgramItem.load] at h ⊢
    cases hd : r.toInstr with
    | ok j => simp
    | error e => cases e <;> simp [hd] at h

/-- The first instruction that is not in order decides the error (R318). -/
theorem loadProgram_error {e : LaunchError} : ∀ (before after : List ProgramItem) (item : ProgramItem) (k : Nat),
    (∀ it ∈ before, ∃ i, it.load 0 = .ok i) → item.load (k + before.length) = .error e →
    loadProgram k (before ++ item :: after) = .error e
  | [], after, item, k, _, h => by simp at h; simp [loadProgram, h]
  | b :: bs, after, item, k, hb, h => by
    obtain ⟨i, hi⟩ := load_ok_any (k := k) (hb b (by simp))
    have := loadProgram_error bs after item (k + 1) (fun it hit => hb it (by simp [hit])) (by rw [← h]; congr 1; simp; omega)
    simp [loadProgram, hi, this]

/-- The launch of a sequence with a first error is refused with it (R318, R340). -/
theorem launch_error {e : LaunchError} (inp : LaunchInput) (before after : List ProgramItem) (item : ProgramItem)
    (hb : ∀ it ∈ before, ∃ i, it.load 0 = .ok i) (h : item.load before.length = .error e) :
    launch { inp with program := some (before ++ item :: after) } = .refused (.launchRefused e) := by
  have := loadProgram_error before after item 0 hb (by simpa using h)
  unfold launch
  cases before <;> simp_all

/-- A sequence in order is loaded instruction by instruction (R66). -/
theorem loadProgram_ok :
    ∀ (items : List ProgramItem) (k : Nat), (∀ it ∈ items, ∃ i, it.load 0 = .ok i) →
      ∃ prog, loadProgram k items = .ok prog ∧ prog.length = items.length ∧
        ∀ (n : Nat) (item : ProgramItem), items[n]? = some item →
          ∃ i, item.load (k + n) = .ok i ∧ prog[n]? = some i
  | [], k, _ => ⟨[], rfl, rfl, by simp⟩
  | it :: its, k, h => by
    obtain ⟨i, hi⟩ := load_ok_any (k := k) (h it (by simp))
    obtain ⟨prog, h1, h2, h3⟩ := loadProgram_ok its (k + 1) fun x hx => h x (by simp [hx])
    refine ⟨i :: prog, by simp [loadProgram, hi, h1], by simp [h2], ?_⟩
    intro n item hn
    cases n with
    | zero =>
      simp only [List.getElem?_cons_zero, Option.some.injEq] at hn
      subst hn
      exact ⟨i, hi, rfl⟩
    | succ n =>
      obtain ⟨j, hj, hp⟩ := h3 n item (by simpa using hn)
      exact ⟨j, by rw [← hj]; congr 1; omega, by simpa using hp⟩

/-- What a launch that is not refused answers: the launched state of R66. -/
theorem launch_next {inp : LaunchInput} {t : State} (h : launch inp = .next t) :
    ∃ prog, prog ≠ [] ∧ t = State.launched prog inp.rInit (Memory.ofWords inp.dmemInit)
      inp.dmemInit.length inp.zInit inp.maxCycles := by
  unfold launch at h
  split at h
  · cases h
  · cases h
  · rename_i item rest _
    split at h
    · cases h
    · rename_i prog hp
      refine ⟨prog, ?_, by cases h; rfl⟩
      rintro rfl
      simp only [loadProgram] at hp
      split at hp
      · cases hp
      · split at hp <;> cases hp

end Sys2Proof.Machine
end

