-- ==== Sys2Proof/Laws/Scoreboard.lean ====
section
/-!
SUPPORT. The scoreboard invariant, stage by stage.
-/

namespace Sys2Proof.Machine

open Sys2Proof

variable {s : State}

/-- The scoreboard invariant with the claims of M and E: between Writeback and Memory, when W has
retired. -/
def State.ScoreME (s : State) : Prop :=
  ∀ r, s.latchM.claims r + s.latchE.claims r = if s.isValid r then 0 else 1

/-- The scoreboard invariant with the claims of W, M and E. -/
def State.ScoreWME (s : State) : Prop :=
  ∀ r, s.latchW.claims r + s.latchM.claims r + s.latchE.claims r = if s.isValid r then 0 else 1

theorem score_writeback (hW : ∀ w, s.latchW = .slot w → w.instr = .halt → s.latchM = .bubble ∧ s.latchE = .bubble)
    (h : s.ScoreWME) : (afterWriteback s).ScoreME := by
  intro r
  have hr := h r
  rcases afterWriteback_cases s with ⟨hw, e⟩ | ⟨w, hw, hi, e⟩ | ⟨w, rd, hw, hi, e⟩ | ⟨w, hw, hn, hi, e⟩ <;> rw [e]
  · simpa [hw] using hr
  · obtain ⟨h1, h2⟩ := hW w hw hi
    simp only [hw, h1, h2, Latch.claims_slot, hi, destOf] at hr
    rw [State.isValid_congr (b := s) (by simp [State.squashE, State.squashM, State.releaseClaim, h1, h2])]
    simpa using hr
  · have hv : ((((s.atStage .writeback).writeReg rd w.buf).setValid rd true).retire w).isValid r = if r = rd then true else s.isValid r := by
      rw [State.isValid_congr (State.retire_valid _ _), State.isValid_setValid]; rfl
    rw [hv]
    simp only [State.retire_latchM, State.retire_latchE, State.setValid_latchM, State.setValid_latchE, State.writeReg_latchM, State.writeReg_latchE, State.atStage_latchM, State.atStage_latchE]
    simp only [hw, Latch.claims_slot, hi] at hr
    by_cases hx : r = rd
    · subst hx
      simp at hr ⊢
      split at hr <;> omega
    · have : ¬ (some rd = some r) := by simpa [eq_comm] using hx
      simp [hx, this] at hr ⊢
      omega
  · simp only [hw, Latch.claims_slot, hn] at hr
    have : ((s.atStage .writeback).retire w).isValid r = s.isValid r := rfl
    simp [this]
    simpa using hr

theorem score_memory (hM : ∀ m, s.latchM = .slot m → m.instr = .halt → s.latchE = .bubble) (h : s.ScoreME)
    (hn : (afterMemory s).hasRaised = false) : (afterMemory s).ScoreWME := by
  intro r
  have hr := h r
  rcases afterMemory_cases s with ⟨hm, e⟩ | ⟨m, hm, ha, hi, ht, e⟩ | ⟨m, rd, rs1, imm, hm, hi, -, e⟩ |
    ⟨m, rs1, rs2, imm, hm, hi, -, e⟩ | ⟨m, hm, hi, ht, ha, e⟩ | ⟨m, hm, hi, e⟩ | ⟨m, hm, hi, -, e⟩ | ⟨m, hm, hi, ht, -, e⟩ <;> rw [e]
  · rw [State.isValid_congr (b := s) (by simp)]
    simpa [hm] using hr
  · rw [State.isValid_congr (b := s) (by simp)]
    simpa [hm] using hr
  · rw [State.isValid_congr (b := s) (by simp)]
    simpa [hm, Latch.claims_slot] using hr
  · rw [State.isValid_congr (b := s) (by simp)]
    simpa [hm] using hr
  · have hv : (((s.atStage .memory).redirectTo m.buf).moveToW (.slot m)).isValid r = if s.latchE.dest? = some r then true else s.isValid r := by
      rw [State.isValid_congr (State.moveToW_valid _ _), State.isValid_congr (State.redirectTo_valid _ _), State.isValid_releaseClaim]
      rfl
    rw [hv]
    simp [hm, Latch.claims_slot, destOf_transfer hi] at hr ⊢
    unfold Latch.claims at hr
    split at hr <;> simp_all
  · have hE := hM m hm hi
    rw [State.isValid_congr (b := s) (by simp [hE, State.releaseClaim])]
    simpa [hm, hE, Latch.claims_slot, hi, destOf] using hr
  · simp [e, State.hasRaised] at hn
  · simp [e, State.hasRaised] at hn

theorem score_memory_raised (h : s.ScoreME)
    (hn : (afterMemory s).hasRaised = true) (ho : s.hasRaised = false) : (afterMemory s).ScoreME := by
  have hk : ∀ t : State, t.outcome = s.outcome → t.hasRaised = false := by
    intro t ht
    simpa [State.hasRaised, ht] using ho
  intro r
  have hr := h r
  rcases afterMemory_cases s with ⟨hm, e⟩ | ⟨m, hm, ha, hi, ht, e⟩ | ⟨m, rd, rs1, imm, hm, hi, -, e⟩ |
    ⟨m, rs1, rs2, imm, hm, hi, -, e⟩ | ⟨m, hm, hi, ht, ha, e⟩ | ⟨m, hm, hi, e⟩ | ⟨m, hm, hi, -, e⟩ | ⟨m, hm, hi, ht, -, e⟩
  iterate 6 (rw [e, hk _ (by simp)] at hn; cases hn)
  all_goals rw [e]; exact hr

theorem score_execute (hM : s.latchM = .bubble) (h : s.ScoreWME) : (afterExecute s).ScoreWME := by
  intro r
  have hr := h r
  have f := afterExecute_frame s
  rw [State.isValid_congr f.2.2.2.2.1]
  rcases afterExecute_cases s with ⟨-, e⟩ | ⟨c, v, hc, hv, e⟩ | ⟨c, hc, hm, -, e⟩ | ⟨c, hc, -, -, e⟩ | ⟨c, t, hc, ht, -, e⟩ |
    ⟨c, hc, ht, -, e⟩ | ⟨c, hc, hi, e⟩ | ⟨c, hc, hi, e⟩ <;> rw [e]
  · exact hr
  all_goals simp only [hc, hM, Latch.claims_slot, Latch.claims_bubble] at hr
  all_goals simpa [Latch.claims_slot, hM] using hr

theorem score_decode (hE : s.latchE = .bubble ∨ s.mulBusy = true) (h : s.ScoreWME) : (afterDecode s).ScoreWME := by
  intro r
  have hr := h r
  rcases afterDecode_cases s with ⟨-, e⟩ | ⟨d, -, -, -, -, e⟩ | ⟨d, -, hd, hc, hw, e⟩ | ⟨d, hb, hd, hc, -, e⟩ | ⟨d, hb, hd, hc, hy, e⟩ <;> rw [e]
  · exact hr
  · exact hr
  · exact hr
  · have hE' : s.latchE = .bubble := by simp_all
    simp [hE'] at hr
    simp [Latch.claims_slot, destOf_condBranch hc]
    exact hr
  · have hE' : s.latchE = .bubble := by simp_all
    simp [hE'] at hr
    have hv : ∀ l : Latch, ({ (s.atStage .decode).claim (destOf d.instr) with latchE := l, latchD := .bubble } : State).isValid r =
        if destOf d.instr = some r then false else s.isValid r := by
      intro l
      rw [show ({ (s.atStage .decode).claim (destOf d.instr) with latchE := l, latchD := .bubble } : State).isValid r = ((s.atStage .decode).claim (destOf d.instr)).isValid r from rfl, State.isValid_claim]
      rfl
    rw [hv]
    simp [Latch.claims_slot, State.readOperands]
    by_cases hx : destOf d.instr = some r
    · have : s.isValid r = true := by
        simp [State.ready, hx, State.operandValid] at hy
        exact hy.2
      simp [hx, this] at hr ⊢
      omega
    · simpa [hx] using hr

theorem score_fetch (h : s.ScoreWME) : (afterFetch s).ScoreWME := by
  intro r
  have f := afterFetch_frame s
  have := h r
  rw [State.isValid_congr f.2.2.2.2.2.1]
  simp_all

end Sys2Proof.Machine
end

