-- ==== Sys2Proof/Laws/Order.lean ====
section
/-!
SUPPORT. Program order in flight, stage by stage.
-/

namespace Sys2Proof.Machine

open Sys2Proof

variable {s : State}

theorem frontPc_congr {a b : State} (hD : a.latchD = b.latchD) (hF : a.latchF = b.latchF) (hf : a.fstate = b.fstate) (hp : a.pc = b.pc) :
   a.frontPc = b.frontPc := by
  simp [State.frontPc, hD, hF, hf, hp]

theorem inOrder_congr {a b : State} (hD : a.latchD = b.latchD) (hF : a.latchF = b.latchF) (hf : a.fstate = b.fstate) (hp : a.pc = b.pc)
   (hE : a.latchE = b.latchE) (hM : a.latchM = b.latchM) (hW : a.latchW = b.latchW) (hd : a.drain = b.drain) (h : b.InOrder) : a.InOrder := by
  have hfr := frontPc_congr hD hF hf hp
  obtain ⟨h1, h2, h3, h4, h5, h6, h7, h8, h9, h10, h11, h12⟩ := h
  constructor <;> simp only [hD, hF, hf, hp, hE, hM, hW, hd, hfr] <;> assumption

theorem inOrder_writeback (h : s.InOrder) : (afterWriteback s).InOrder := by
  rcases afterWriteback_cases s with ⟨hw, e⟩ | ⟨w, hw, hi, e⟩ | ⟨w, rd, hw, hi, e⟩ | ⟨w, hw, -, hi, e⟩ <;> rw [e]
  · exact h
  · constructor <;> simp
  · exact inOrder_congr (by simp) (by simp) (by simp) (by simp) (by simp) (by simp) (by simp) (by simp) h
  · exact inOrder_congr (by simp) (by simp) (by simp) (by simp) (by simp) (by simp) (by simp) (by simp) h

/-- Behind a transfer that has just redirected, D is empty. -/
def State.TakenClear (s : State) : Prop := ∀ w, s.latchW = .slot w → w.taken = true → s.latchD = .bubble

theorem takenFalse {m : Slot} (hs : s.StallWhileTaken) (hm : s.latchM = .slot m) (ht : (isTransfer m.instr && m.taken) = false) : m.taken = false := by
  have := hs.2.1
  simp only [hm, Latch.has_slot] at this
  cases hx : m.taken <;> simp_all

theorem takenClear_memory (hs : s.StallWhileTaken) (hr : (afterMemory s).hasRaised = false) : (afterMemory s).TakenClear := by
  intro w
  have hl : ∀ {m : Slot} {i}, s.latchM = .slot m → m.instr = i → isTransfer i = false → m.taken = false := by
    intro m i hm hi hf
    exact takenFalse hs hm (by simp [hi, hf])
  rcases afterMemory_cases s with ⟨hm, e⟩ | ⟨m, hm, ha, hi, ht, e⟩ | ⟨m, rd, rs1, imm, hm, hi, -, e⟩ |
    ⟨m, rs1, rs2, imm, hm, hi, -, e⟩ | ⟨m, hm, hi, ht, -, e⟩ | ⟨m, hm, hi, e⟩ | ⟨m, hm, hi, -, e⟩ | ⟨m, hm, hi, ht, -, e⟩ <;> rw [e]
  · simp
  · have := takenFalse hs hm ht
    simp; rintro rfl; simp [this]
  · have := hl hm hi rfl
    simp; rintro rfl; simp [this]
  · have := hl hm hi rfl
    simp; rintro rfl; simp [this]
  · simp
  · have := hl hm hi rfl
    simp; rintro rfl; simp [this]
  · simp [e, State.hasRaised] at hr
  · simp [e, State.hasRaised] at hr

/-- A slot that moves from M to W without a redirect keeps program order. -/
theorem inOrder_passed {t : State} {m m' : Slot} (h : s.InOrder) (hm : s.latchM = .slot m) (hpc : m'.pc = m.pc)
    (ht : m'.taken = false) (hi : m'.instr ≠ .halt) (hD : t.latchD = s.latchD) (hF : t.latchF = s.latchF)
    (hf : t.fstate = s.fstate) (hp : t.pc = s.pc) (hE : t.latchE = s.latchE) (hM : t.latchM = .bubble)
    (hW : t.latchW = .slot m') (hd : t.drain = s.drain) : t.InOrder := by
  have hfr := frontPc_congr hD hF hf hp
  obtain ⟨h1, h2, h3, h4, h5, h6, h7, h8, h9, h10, h11, h12⟩ := h
  constructor <;> simp only [hD, hF, hf, hp, hE, hM, hW, hd, hfr] <;> simp_all

theorem inOrder_memory (hs : s.StallWhileTaken) (h : s.InOrder) : (afterMemory s).InOrder := by
  have hl : ∀ {m : Slot} {i}, s.latchM = .slot m → m.instr = i → isTransfer i = false → m.taken = false := by
    intro m i hm hi hf
    exact takenFalse hs hm (by simp [hi, hf])
  rcases afterMemory_cases s with ⟨hm, e⟩ | ⟨m, hm, ha, hi, ht, e⟩ | ⟨m, rd, rs1, imm, hm, hi, -, e⟩ |
    ⟨m, rs1, rs2, imm, hm, hi, -, e⟩ | ⟨m, hm, hi, ht, -, e⟩ | ⟨m, hm, hi, e⟩ | ⟨m, hm, hi, -, e⟩ | ⟨m, hm, hi, ht, -, e⟩ <;> rw [e]
  · have hfr : (s.moveToW .bubble).frontPc = s.frontPc := rfl
    obtain ⟨h1, h2, h3, h4, h5, h6, h7, h8, h9, h10, h11, h12⟩ := h
    constructor <;> (try simp only [hfr]) <;> simp_all
  · exact inOrder_passed (m' := m) h hm rfl (takenFalse hs hm ht) hi rfl rfl rfl rfl rfl rfl rfl rfl
  · exact inOrder_passed (m' := { m with buf := s.memRead m.buf }) h hm rfl (show m.taken = false from hl hm hi rfl) (by simp [hi]) rfl rfl rfl rfl rfl rfl rfl rfl
  · exact inOrder_passed (m' := m) h hm rfl (hl hm hi rfl) (by simp [hi]) rfl rfl rfl rfl rfl rfl rfl rfl
  · constructor <;> simp [ht]
    rintro hx; simp [hx, isTransfer] at hi
  · have h10 := h.heldAfterD
    have h11 := h.pcAfterD
    have h12 := h.pcAfterHeld
    refine ⟨by simp, by simp, by simp, by simp, by simp, by simp, by simp, by simp, by simp, ?_, ?_, ?_⟩
    · simpa using h10
    · simpa using h11
    · simpa using h12
  · exact inOrder_congr (b := s) rfl rfl rfl rfl rfl rfl rfl rfl h
  · exact inOrder_congr (b := s) rfl rfl rfl rfl rfl rfl rfl rfl h

/-- A slot that moves from E to M keeps program order. -/
theorem inOrder_moved {t : State} {e e' : Slot} (hdr : s.DrainEmpties) (h : s.InOrder) (he : s.latchE = .slot e)
    (hpc : e'.pc = e.pc) (hi : e'.instr ≠ .halt) (hD : t.latchD = s.latchD) (hF : t.latchF = s.latchF)
    (hf : t.fstate = s.fstate) (hp : t.pc = s.pc) (hE : t.latchE = .bubble) (hM' : t.latchM = .slot e')
    (hM : s.latchM = .bubble) (hW : t.latchW = s.latchW) (hd : t.drain = s.drain) : t.InOrder := by
  have hfr := frontPc_congr hD hF hf hp
  have hnd : s.drain = false := by
    cases hx : s.drain with
    | false => rfl
    | true => have := (hdr hx).2.2.1; simp_all
  obtain ⟨h1, h2, h3, h4, h5, h6, h7, h8, h9, h10, h11, h12⟩ := h
  constructor <;> simp only [hD, hF, hf, hp, hE, hM', hW, hd, hfr] <;> simp_all

/-- The first cycle of a MUL keeps program order: E holds it. -/
theorem inOrder_mul {c : Slot} (hM : s.latchM = .bubble) (h : s.InOrder) (hc : s.latchE = .slot c) :
    ({ (s.atStage .execute).setZ (c.v1 * c.v2) with
        mulBusy := true, latchE := .slot { c with buf := c.v1 * c.v2 },
        latchM := .bubble, exState := .mul1 } : State).InOrder := by
  obtain ⟨h1, h2, h3, h4, h5, h6, h7, h8, h9, h10, h11, h12⟩ := h
  have hfr : ({ (s.atStage .execute).setZ (c.v1 * c.v2) with
                       mulBusy := true, latchE := .slot { c with buf := c.v1 * c.v2 },
                       latchM := .bubble, exState := .mul1 } : State).frontPc = s.frontPc := rfl
  constructor <;> (try simp only [hfr]) <;> simp_all

/-- A HALT that executes keeps program order: nothing is left in front of it. -/
theorem inOrder_drain {c : Slot} (hM : s.latchM = .bubble) (hdr : s.DrainEmpties) (h : s.InOrder)
    (hc : s.latchE = .slot c) :
    (({ s.atStage .execute with drain := true }).flushFront.moveToM c).InOrder := by
  have hnd : s.drain = false := by
    cases hx : s.drain with
    | false => rfl
    | true => have := (hdr hx).2.2.1; simp_all
  obtain ⟨h1, h2, h3, h4, h5, h6, h7, h8, h9, h10, h11, h12⟩ := h
  constructor <;> simp_all

theorem inOrder_execute (hM : s.latchM = .bubble) (hdr : s.DrainEmpties) (h : s.InOrder) : (afterExecute s).InOrder := by
  rcases afterExecute_cases s with ⟨-, e⟩ | ⟨c, v, hc, hv, e⟩ | ⟨c, hc, hm, -, e⟩ | ⟨c, hc, hm, -, e⟩ | ⟨c, t, hc, ht, -, e⟩ |
    ⟨c, hc, ht, -, e⟩ | ⟨c, hc, -, e⟩ | ⟨c, hc, hi, e⟩ <;> rw [e]
  · exact h
  · exact inOrder_moved (e' := { c with buf := v }) hdr h hc rfl (by rintro hx; simp at hx; simp [hx, computedValue] at hv)
      rfl rfl rfl rfl rfl rfl hM rfl rfl
  · exact inOrder_mul hM h hc
  · exact inOrder_moved (e' := c) hdr h hc rfl (by rintro hx; simp [hx, isMul] at hm) rfl rfl rfl rfl rfl rfl hM rfl rfl
  · exact inOrder_moved (e' := { c with buf := t, taken := true }) hdr h hc rfl
      (by rintro hx; simp at hx; simp [hx, isTransfer] at ht) rfl rfl rfl rfl rfl rfl hM rfl rfl
  · exact inOrder_moved (e' := { c with taken := false }) hdr h hc rfl
      (by rintro hx; simp at hx; simp [hx, isTransfer] at ht) rfl rfl rfl rfl rfl rfl hM rfl rfl
  · exact inOrder_drain hM hdr h hc
  · exact inOrder_moved (e' := c) hdr h hc rfl (by simp [hi]) rfl rfl rfl rfl rfl rfl hM rfl rfl

theorem takenClear_execute (h : s.TakenClear) : (afterExecute s).TakenClear := by
  unfold State.TakenClear at *
  rcases afterExecute_cases s with ⟨-, e⟩ | ⟨c, v, hc, hv, e⟩ | ⟨c, hc, hm, -, e⟩ | ⟨c, hc, hm, -, e⟩ | ⟨c, t, hc, ht, -, e⟩ |
    ⟨c, hc, ht, -, e⟩ | ⟨c, hc, hi, e⟩ | ⟨c, hc, hi, e⟩ <;> rw [e] <;> simp_all

theorem inOrder_decode (hE : s.latchE = .bubble ∨ s.mulBusy = true) (hp : s.PrefetchHeld) (ht : s.TakenClear)
    (h : s.InOrder) : (afterDecode s).InOrder := by
  have key : ∀ (t : State) (d d' : Slot), s.latchD = .slot d → s.drain = false → s.latchE = .bubble → d'.pc = d.pc → 
      t.latchD = .bubble → t.latchF = s.latchF → t.fstate = s.fstate → t.pc = s.pc → t.latchE = .slot d' → t.latchM = s.latchM →
      t.latchW = s.latchW → t.drain = s.drain → t.InOrder := by
    intro t d d' hd hdr he hpc hD hF hf hp' hE hM hW hdr'
    have hfr : t.frontPc = d.pc + 4 := by
      obtain ⟨h1, h2, h3, h4, h5, h6, h7, h8, h9, h10, h11, h12⟩ := h
      simp only [State.frontPc, hD, hF, hf, hp']
      cases hx : s.fstate with
      | normal => exact h11 d hd hx
      | holdingPrefetch =>
        cases hy : s.latchF with
        | bubble => exact absurd hy (hp hx)
        | slot f => exact h10 d f hd hx hy
    have hfs : s.frontPc = d.pc := by simp [State.frontPc, hd]
    obtain ⟨h1, h2, h3, h4, h5, h6, h7, h8, h9, h10, h11, h12⟩ := h
    constructor <;> simp only [hD, hF, hf, hp', hE, hM, hW, hdr', hfr]
    · exact h1
    · exact h2
    · intro w hw htk
      have := ht w hw htk
      simp_all
    · exact h4
    · intro m hm
      simp only [Latch.follows_slot]
      rw [hpc, ← hfs]
      exact h8 hdr he m hm
    · intro w hw hm
      simp only [Latch.follows_slot]
      rw [hpc, ← hfs]
      refine h9 hdr he hm w hw ?_
      cases hx : w.taken with
      | false => rfl
      | true => have := ht w hw hx; simp_all
    · simp [hpc]
    · simp
    · simp
    · simp
    · simp
    · exact h12
  rcases afterDecode_cases s with ⟨-, e⟩ | ⟨d, -, -, -, -, e⟩ | ⟨d, -, hd, hc, hw, e⟩ | ⟨d, hb, hd, -, -, e⟩ | ⟨d, hb, hd, hc, -, e⟩ <;> rw [e]
  · exact h
  · exact inOrder_congr (b := s) rfl rfl rfl rfl rfl rfl rfl rfl h
  · exact inOrder_congr (b := s) rfl rfl rfl rfl rfl rfl rfl rfl h
  · exact key _ d d hd (by simp_all) (by simp_all) rfl rfl rfl rfl rfl rfl rfl rfl rfl
  · exact key _ d (s.readOperands (src1Of d.instr) (src2Of d.instr) d) hd (by simp_all) (by simp_all) rfl rfl (by simp) (by simp) (by simp) rfl (by simp) (by simp) (by simp)

theorem inOrder_fetch (hp : s.PrefetchHeld) (h : s.InOrder) : (afterFetch s).InOrder := by
  have key : ∀ t : State, t.frontPc = s.frontPc → t.latchE = s.latchE → t.latchM = s.latchM → t.latchW = s.latchW → t.drain = s.drain → 
      (∀ d f, t.latchD = .slot d → t.fstate = .holdingPrefetch → t.latchF = .slot f → f.pc = d.pc + 4) →
      (∀ d, t.latchD = .slot d → t.fstate = .normal → t.pc = d.pc + 4) →
      (∀ f, t.fstate = .holdingPrefetch → t.latchF = .slot f → t.pc = f.pc + 4) → t.InOrder := by
    intro t hfr hE hM hW hdr a b c
    obtain ⟨h1, h2, h3, h4, h5, h6, h7, h8, h9, h10, h11, h12⟩ := h
    constructor <;> (try simp only [hE, hM, hW, hdr, hfr]) <;> assumption
  have h' := h
  obtain ⟨h1, h2, h3, h4, h5, h6, h7, h8, h9, h10, h11, h12⟩ := h'
  rcases afterFetch_cases s with e | ⟨-, -, hf, hd, -, e⟩ | ⟨i, -, -, hf, -, hd, -, e⟩ | ⟨i, -, -, hf, -, hb, e⟩ | ⟨-, -, hf, -, hd, -, e⟩ <;> rw [e]
  · exact h
  · cases hy : s.latchF with
    | bubble => exact absurd hy (hp hf)
    | slot f =>
      refine key _ ?_ rfl rfl rfl rfl ?_ ?_ ?_
      · simp [State.frontPc, hd, hf, hy]
      · simp
      · simp [hy]; exact h12 f hf hy
      · simp
  · refine key _ ?_ rfl rfl rfl rfl ?_ ?_ ?_
    · simp [State.frontPc, hd, hf, newSlot]
    · simp [hf]
    · simp [newSlot]
    · simp [hf]
  · refine key _ ?_ rfl rfl rfl rfl ?_ ?_ ?_
    · cases hy : s.latchD <;> simp [State.frontPc, hf, newSlot, hy]
    · intro d f hd _ hx
      simp at hd hx
      subst hx
      exact h11 d hd hf
    · simp
    · simp [newSlot]
  · refine key _ ?_ rfl rfl rfl rfl ?_ ?_ ?_
    · simp [State.frontPc, hd, hf]
    · simp [hd]
    · simp [hd]
    · simp

end Sys2Proof.Machine
end

