-- ==== Sys2Proof/Laws/PerInstr.lean ====
section
/-!
SUPPORT. Statements about every instruction, one lemma per constructor: the word of an instruction matches
the row of the opcode table that its opcode has (spec/30_encoding.md R114, R115).
-/

namespace Sys2Proof.Laws.WordShape

open Sys2Proof

/-- The word of an instruction, masked, is the `match` value of its row (R115). -/
def Statement (i : Instr) : Prop :=
  encode i &&& 0xFFFF800000000000#64 = i.op.pattern

theorem movc (rd : RegIdx) (imm : Word) : Statement (.movc rd imm) :=
  pack_matches .movc rd 0 0 imm

theorem load (rd rs1 : RegIdx) (imm : Word) : Statement (.load rd rs1 imm) :=
  pack_matches .load rd rs1 0 imm

theorem store (rs1 rs2 : RegIdx) (imm : Word) : Statement (.store rs1 rs2 imm) :=
  pack_matches .store 0 rs1 rs2 imm

theorem add (rd rs1 rs2 : RegIdx) : Statement (.add rd rs1 rs2) :=
  pack_matches .add rd rs1 rs2 0

theorem sub (rd rs1 rs2 : RegIdx) : Statement (.sub rd rs1 rs2) :=
  pack_matches .sub rd rs1 rs2 0

theorem mul (rd rs1 rs2 : RegIdx) : Statement (.mul rd rs1 rs2) :=
  pack_matches .mul rd rs1 rs2 0

theorem and (rd rs1 rs2 : RegIdx) : Statement (.and rd rs1 rs2) :=
  pack_matches .and rd rs1 rs2 0

theorem or (rd rs1 rs2 : RegIdx) : Statement (.or rd rs1 rs2) :=
  pack_matches .or rd rs1 rs2 0

theorem xor (rd rs1 rs2 : RegIdx) : Statement (.xor rd rs1 rs2) :=
  pack_matches .xor rd rs1 rs2 0

theorem bz (imm : Word) : Statement (.bz imm) :=
  pack_matches .bz 0 0 0 imm

theorem bnz (imm : Word) : Statement (.bnz imm) :=
  pack_matches .bnz 0 0 0 imm

theorem jump (rs1 : RegIdx) (imm : Word) : Statement (.jump rs1 imm) :=
  pack_matches .jump 0 rs1 0 imm

theorem halt : Statement .halt :=
  pack_matches .halt 0 0 0 0

theorem nop : Statement .nop :=
  pack_matches .nop 0 0 0 0

end Sys2Proof.Laws.WordShape
end

