-- ==== Sys2Proof/Laws/Progress.lean ====
section
/-!
SUPPORT. That the run goes on, stage by stage, and that an abort leaves the faulting instruction in M.
-/

namespace Sys2Proof.Machine

open Sys2Proof

variable {s : State}

/-! ### Addresses of the sequence -/

/-- The address after the last holds no instruction. -/
theorem none_after_last {w c : Word} {i j : Instr} (hf : s.ProgramFits) (hw : s.imemRead w = some i)
    (hl : w.toNat = s.lastPC) (hc : s.imemRead c = some j) (h : c = w + 4) : False := by
  have b1 := State.imemRead_bounds hw
  have b2 := State.imemRead_bounds hc
  unfold State.ProgramFits Config.baseAddr Config.iStride at hf
  unfold State.lastPC Config.baseAddr Config.iStride at hl
  have h4 : (4 : Word).toNat = 4 := rfl
  have : c.toNat = (w.toNat + 4) % 2 ^ 32 := by rw [h, BitVec.toNat_add, h4]
  omega

/-- The address after any other instruction holds one. -/
theorem some_after_not_last {w : Word} {i : Instr} (hf : s.ProgramFits) (hw : s.imemRead w = some i)
    (hl : w.toNat ≠ s.lastPC) : (s.imemRead (w + 4)).isSome = true := by
  have b1 := State.imemRead_bounds hw
  unfold State.ProgramFits Config.baseAddr Config.iStride at hf
  unfold State.lastPC Config.baseAddr Config.iStride at hl
  have h4 : (4 : Word).toNat = 4 := rfl
  have : (w + 4).toNat = (w.toNat + 4) % 2 ^ 32 := by rw [BitVec.toNat_add, h4]
  rw [State.imemRead_isSome]
  unfold State.instrAddrOK instrIndex Config.baseAddr Config.iStride
  rw [Bool.and_eq_true, Bool.and_eq_true, decide_eq_true_iff, decide_eq_true_iff, decide_eq_true_iff]
  omega

/-- Nothing is in flight behind the last instruction of the sequence. -/
theorem last_alone (hf : s.ProgramFits) (hp : s.FetchedInPlace) (ho : s.InOrder) {w : Slot}
    (hw : s.latchW = .slot w) (hl : w.pc.toNat = s.lastPC) : s.latchM = .bubble ∧ s.latchE = .bubble := by
  obtain ⟨-, -, -, pE, pM, pW⟩ := hp
  have hM : s.latchM = .bubble := by
    cases hm : s.latchM with
    | bubble => rfl
    | slot m => exact (none_after_last hf (pW w hw) hl (pM m hm) (ho.memAfterW w hw m hm)).elim
  refine ⟨hM, ?_⟩
  cases he : s.latchE with
  | bubble => rfl
  | slot e => exact (none_after_last hf (pW w hw) hl (pE e he) (ho.exAfterW w hw hM e he)).elim

/-! ### The next address -/

/-- Fetch does not move the next address. -/
theorem frontPc_fetch (hp : s.PrefetchHeld) : (afterFetch s).frontPc = s.frontPc := by
  rcases afterFetch_cases s with e | ⟨-, -, hf, hd, -, e⟩ | ⟨i, -, -, hf, -, hd, -, e⟩ |
    ⟨i, -, -, hf, -, hb, e⟩ | ⟨-, -, hf, -, hd, -, e⟩ <;> rw [e]
  · cases hy : s.latchF with
    | bubble => exact absurd hy (hp hf)
    | slot f => simp [State.frontPc, hd, hf, hy]
  · simp [State.frontPc, hd, hf, newSlot]
  · cases hy : s.latchD <;> simp [State.frontPc, hf, newSlot, hy]
  · simp [State.frontPc, hd, hf]

/-- When D issues, the next address is the one after it. -/
theorem frontPc_issue {t : State} {d : Slot} (hp : s.PrefetchHeld) (h : s.InOrder) (hd : s.latchD = .slot d)
    (hD : t.latchD = .bubble) (hF : t.latchF = s.latchF) (hf : t.fstate = s.fstate) (hpc : t.pc = s.pc) :
    t.frontPc = d.pc + 4 := by
  simp only [State.frontPc, hD, hF, hf, hpc]
  cases hx : s.fstate with
  | normal => exact h.pcAfterD d hd hx
  | holdingPrefetch =>
    cases hy : s.latchF with
    | bubble => exact absurd hy (hp hx)
    | slot f => exact h.heldAfterD d f hd hx hy

/-! ### `State.GoesOn` -/

/-- `State.GoesOn` between Writeback and Memory, when W has retired. -/
def State.GoesOnME (s : State) : Prop :=
  s.stop = none → (s.imemRead s.frontPc).isSome = true ∨ s.brStall = true ∨ s.drain = true ∨
    s.lastIn s.latchM = true ∨ s.lastIn s.latchE = true

theorem State.lastIn_congr {a b : State} (h : a.prog = b.prog) (l : Latch) : a.lastIn l = b.lastIn l := by
  simp [State.lastIn, State.lastPC_congr h]

@[simp] theorem State.lastIn_bubble (s : State) : s.lastIn .bubble = false := rfl

theorem State.lastIn_slot (s : State) (c : Slot) :
    s.lastIn (.slot c) = decide (c.pc.toNat = s.lastPC) := rfl

theorem goesOn_writeback (h : s.GoesOn) : (afterWriteback s).GoesOnME := by
  intro hs
  have same : ∀ (t : State) (w : Slot), s.latchW = .slot w → t.stop = none →
      t.stop = (if w.pc.toNat = s.lastPC then some .lastInstruction else s.stop) → t.prog = s.prog →
      t.frontPc = s.frontPc → t.brStall = s.brStall → t.drain = s.drain → t.latchM = s.latchM →
      t.latchE = s.latchE → (t.imemRead t.frontPc).isSome = true ∨ t.brStall = true ∨ t.drain = true ∨
        t.lastIn t.latchM = true ∨ t.lastIn t.latchE = true := by
    intro t w hw hn ht hp hfr hb hd hM hE
    rw [hn] at ht
    split at ht
    · cases ht
    · rename_i hl
      have := h ht.symm
      rw [hw, State.lastIn_slot, decide_eq_false hl] at this
      simpa [State.imemRead_congr hp, State.lastIn_congr hp, hfr, hb, hd, hM, hE] using this
  rcases afterWriteback_cases s with ⟨hw, e⟩ | ⟨w, hw, hi, e⟩ | ⟨w, rd, hw, hi, e⟩ | ⟨w, hw, -, hi, e⟩ <;>
    rw [e] at hs ⊢
  · simpa [hw] using h hs
  · simp at hs
  · exact same _ w hw hs rfl rfl rfl rfl rfl rfl rfl
  · exact same _ w hw hs rfl rfl rfl rfl rfl rfl rfl

theorem goesOn_memory (hst : s.StallWhileTaken) (h : s.GoesOnME) : (afterMemory s).GoesOn := by
  intro hs
  have pass : ∀ (t : State) (m m' : Slot), s.latchM = .slot m → m.taken = false → m'.pc = m.pc →
      t.stop = s.stop → t.stop = none → t.prog = s.prog → t.frontPc = s.frontPc → t.drain = s.drain →
      t.latchE = s.latchE → t.latchW = .slot m' →
      (t.imemRead t.frontPc).isSome = true ∨ t.brStall = true ∨ t.drain = true ∨
        t.lastIn t.latchW = true ∨ t.lastIn t.latchM = true ∨ t.lastIn t.latchE = true := by
    intro t m m' hm ht hpc hst' hn hp hfr hd hE hW
    have hb : s.brStall = false := by rw [hst.1, hm]; exact ht
    have := h (hst' ▸ hn)
    rw [hb, hm, State.lastIn_slot] at this
    rw [State.imemRead_congr hp, hfr, hd, hE, hW, State.lastIn_slot, hpc, State.lastPC_congr hp,
      State.lastIn_congr hp (l := s.latchE)]
    simp only [Bool.false_eq_true, false_or] at this
    tauto
  have hl : ∀ {m : Slot} {i}, s.latchM = .slot m → m.instr = i → isTransfer i = false →
      m.taken = false := fun hm hi hf => takenFalse hst hm (by simp [hi, hf])
  rcases afterMemory_cases s with ⟨hm, e⟩ | ⟨m, hm, ha, hi, ht, e⟩ | ⟨m, rd, rs1, imm, hm, hi, -, e⟩ |
    ⟨m, rs1, rs2, imm, hm, hi, -, e⟩ | ⟨m, hm, hi, ht, hok, e⟩ | ⟨m, hm, hi, e⟩ | ⟨m, hm, hi, -, e⟩ |
    ⟨m, hm, hi, ht, -, e⟩ <;> rw [e] at hs ⊢
  · have := h hs
    rw [hst.1, hm] at this
    have hfr : (s.moveToW .bubble).frontPc = s.frontPc := rfl
    have hi : ∀ a, (s.moveToW .bubble).imemRead a = s.imemRead a := fun _ => rfl
    have hla : ∀ l, (s.moveToW .bubble).lastIn l = s.lastIn l := fun _ => rfl
    rw [hfr, hi, hla, hla, hla]
    simp only [Latch.has_bubble, Bool.false_eq_true, false_or, State.lastIn_bubble] at this
    simp only [State.moveToW_latchE, State.moveToW_drain]
    tauto
  · exact pass _ m m hm (takenFalse hst hm ht) rfl rfl hs rfl rfl rfl rfl rfl
  · exact pass _ m { m with buf := s.memRead m.buf } hm (hl hm hi rfl) rfl rfl hs rfl rfl rfl rfl rfl
  · exact pass _ m m hm (hl hm hi rfl) rfl rfl hs rfl rfl rfl rfl rfl
  · refine .inl ?_
    rw [State.imemRead_isSome]
    have hfr : (((s.atStage .memory).redirectTo m.buf).moveToW (.slot m)).frontPc = m.buf := by
      simp [State.frontPc]
    rw [hfr, ← State.imemRead_isSome, State.imemRead_congr (b := s) (by simp), State.imemRead_isSome]
    exact hok
  · exact .inr (.inr (.inl rfl))
  · have := h hs
    exact this.imp_right (Or.imp_right (Or.imp_right Or.inr))
  · have := h hs
    exact this.imp_right (Or.imp_right (Or.imp_right Or.inr))

theorem goesOn_execute (hM : s.latchM = .bubble) (h : s.GoesOn) : (afterExecute s).GoesOn := by
  intro hs
  have pass : ∀ (t : State) (c c' : Slot), s.latchE = .slot c → c'.pc = c.pc → t.stop = s.stop →
      t.stop = none → t.prog = s.prog → t.frontPc = s.frontPc → t.brStall = s.brStall →
      t.drain = s.drain → (t.latchE = .slot c' ∨ t.latchM = .slot c') → t.latchW = s.latchW →
      (t.imemRead t.frontPc).isSome = true ∨ t.brStall = true ∨ t.drain = true ∨
        t.lastIn t.latchW = true ∨ t.lastIn t.latchM = true ∨ t.lastIn t.latchE = true := by
    intro t c c' hc hpc hst hn hp hfr hb hd hl hW
    have := h (hst ▸ hn)
    rw [hM, hc, State.lastIn_slot] at this
    rw [State.imemRead_congr hp, hfr, hb, hd, hW, State.lastIn_congr hp]
    have hcl : t.lastIn (.slot c') = decide (c.pc.toNat = s.lastPC) := by
      rw [State.lastIn_slot, hpc, State.lastPC_congr hp]
    rcases hl with hl | hl
    · rw [hl, hcl]
      simp only [State.lastIn_bubble, Bool.false_eq_true, false_or] at this
      tauto
    · rw [hl, hcl]
      simp only [State.lastIn_bubble, Bool.false_eq_true, false_or] at this
      tauto
  rcases afterExecute_cases s with ⟨-, e⟩ | ⟨c, v, hc, hv, e⟩ | ⟨c, hc, hm, -, e⟩ | ⟨c, hc, hm, -, e⟩ |
    ⟨c, t, hc, ht, -, e⟩ | ⟨c, hc, ht, -, e⟩ | ⟨c, hc, hi, e⟩ | ⟨c, hc, hi, e⟩ <;> rw [e] at hs ⊢
  · exact h hs
  · exact pass _ c { c with buf := v } hc rfl rfl hs rfl rfl rfl rfl (.inr rfl) rfl
  · exact pass _ c { c with buf := c.v1 * c.v2 } hc rfl rfl hs rfl rfl rfl rfl (.inl rfl) rfl
  · exact pass _ c c hc rfl rfl hs rfl rfl rfl rfl (.inr rfl) rfl
  · exact .inr (.inl rfl)
  · exact pass _ c { c with taken := false } hc rfl rfl hs rfl rfl rfl rfl (.inr rfl) rfl
  · exact .inr (.inr (.inl (by simp)))
  · exact pass _ c c hc rfl rfl hs rfl rfl rfl rfl (.inr rfl) rfl

theorem goesOn_decode (hp : s.PrefetchHeld)
    (hf : s.ProgramFits) (hip : s.FetchedInPlace) (ho : s.InOrder) (h : s.GoesOn) :
    (afterDecode s).GoesOn := by
  have issue : ∀ (t : State) (d d' : Slot), s.latchD = .slot d → d'.pc = d.pc → t.latchD = .bubble →
      t.latchF = s.latchF → t.fstate = s.fstate → t.pc = s.pc → t.latchE = .slot d' →
      t.prog = s.prog → t.GoesOn := by
    intro t d d' hd hpc hD hF hfs hpc' hE' hpr _
    by_cases hl : d.pc.toNat = s.lastPC
    · exact .inr (.inr (.inr (.inr (.inr (by
        rw [hE', State.lastIn_slot, hpc, State.lastPC_congr hpr]; exact decide_eq_true hl)))))
    · refine .inl ?_
      rw [frontPc_issue hp ho hd hD hF hfs hpc', State.imemRead_congr hpr]
      exact some_after_not_last hf (hip.2.2.1 d hd) hl
  rcases afterDecode_cases s with ⟨-, e⟩ | ⟨d, -, -, -, -, e⟩ | ⟨d, -, hd, hc, hw, e⟩ |
    ⟨d, hb, hd, -, -, e⟩ | ⟨d, hb, hd, hc, -, e⟩ <;> rw [e]
  · exact h
  · exact h
  · exact h
  · exact issue _ d d hd rfl rfl rfl rfl rfl rfl rfl
  · exact issue _ d (s.readOperands (src1Of d.instr) (src2Of d.instr) d) hd rfl rfl (by simp) (by simp)
      (by simp) rfl (by simp)

theorem goesOn_fetch (hp : s.PrefetchHeld) (h : s.GoesOn) : (afterFetch s).GoesOn := by
  intro hs
  have f := afterFetch_frame s
  rw [frontPc_fetch hp, State.imemRead_congr f.1, State.lastIn_congr f.1, State.lastIn_congr f.1,
    State.lastIn_congr f.1]
  simp only [f] at hs ⊢
  exact h hs

/-! ### `State.AbortInM` -/

theorem abortInM_memory (hr : s.hasRaised = false) : (afterMemory s).AbortInM := by
  intro f hf
  have no : ∀ t : State, t.outcome = s.outcome → t.outcome ≠ .aborted f := by
    intro t ht hx
    simp [State.hasRaised, ← ht, hx] at hr
  rcases afterMemory_cases s with ⟨hm, e⟩ | ⟨m, hm, ha, hi, ht, e⟩ | ⟨m, rd, rs1, imm, hm, hi, -, e⟩ |
    ⟨m, rs1, rs2, imm, hm, hi, -, e⟩ | ⟨m, hm, hi, ht, ha, e⟩ | ⟨m, hm, hi, e⟩ | ⟨m, hm, hi, ha, e⟩ |
    ⟨m, hm, hi, ht, ha, e⟩
  iterate 6 (rw [e] at hf; exact absurd hf (no _ (by simp)))
  · rw [e] at hf ⊢
    have hk : ((s.atStage .memory).raise (.dataOutOfRange m.buf m.pc)).dataAddrOK m.buf = false := ha
    cases hj : m.instr <;> simp_all [State.errorOf, isAccess]
  · rw [e] at hf ⊢
    have hk : ((s.atStage .memory).raise (.instrOutOfRange m.buf m.pc)).instrAddrOK m.buf = false := ha
    cases hj : m.instr <;> simp_all [State.errorOf, isTransfer]

end Sys2Proof.Machine
end

