-- ==== Sys2Proof/Laws/Sequential.lean ====
section
/-!
SUPPORT. The sequential machine beside the pipeline: no stage but Decode changes the architectural state a
pipeline state stands for, and Decode advances it by the instruction it issues.
-/

namespace Sys2Proof.Machine

open Sys2Proof

variable {s : State}

/-! ### The sequential machine -/

/-- The sequential machine reads the sequence as Fetch does. -/
theorem seqFetch_eq (s : State) (a : Word) : seqFetch s.prog a = s.imemRead a := by
  unfold seqFetch State.imemRead State.instrAddrOK instrIndex Config.baseAddr Config.iStride
  by_cases h : 4000 ≤ a.toNat ∧ (a.toNat - 4000) % 4 = 0
  · rw [if_pos h]
    by_cases h2 : (a.toNat - 4000) / 4 < s.prog.length
    · rw [if_pos]
      rw [Bool.and_eq_true, Bool.and_eq_true]
      exact ⟨⟨decide_eq_true h.1, decide_eq_true h.2⟩, decide_eq_true h2⟩
    · rw [if_neg]
      · exact List.getElem?_eq_none (by omega)
      · rw [Bool.and_eq_true]
        exact fun hx => h2 (of_decide_eq_true hx.2)
  · rw [if_neg h, if_neg]
    rw [Bool.and_eq_true, Bool.and_eq_true]
    exact fun hx => h ⟨of_decide_eq_true hx.1.1, of_decide_eq_true hx.1.2⟩

theorem isLastPc_eq (s : State) (pc : Word) : isLastPc s.prog pc = decide (pc.toNat = s.lastPC) := rfl

theorem dataAddrOK_iff (a : Word) :
    s.dataAddrOK a = true ↔ a.toNat % 4 = 0 ∧ a.toNat < 4 * s.dmemWords := by
  simp [State.dataAddrOK]

@[simp] theorem Arch.finishW_bubble (p : List Instr) (a : Arch) : Arch.finishW p .bubble a = a := rfl

@[simp] theorem Arch.finishM_bubble (p : List Instr) (n : Nat) (a : Arch) :
    Arch.finishM p n .bubble a = a := rfl

@[simp] theorem Arch.finishE_bubble (p : List Instr) (n : Nat) (a : Arch) :
    Arch.finishE p n .bubble a = a := rfl

/-- An architectural state whose next instruction is at `q`. -/
def Arch.nextAt (q : Word) (a : Arch) : Arch := { a with status := .running q }

/-- What an instruction does not depend on where the next one was said to be. -/
theorem effect_nextAt (p : List Instr) (n : Nat) (i : Instr) (pc v1 v2 q : Word) (a : Arch) :
    (a.nextAt q).effect p n i pc v1 v2 = a.effect p n i pc v1 v2 := by
  cases i <;> rfl

/-- An operand that is not read does not matter. -/
theorem effect_operands (p : List Instr) (n : Nat) (i : Instr) (pc v1 v2 v1' v2' : Word) (a : Arch)
    (h1 : src1Of i ≠ none → v1 = v1') (h2 : src2Of i ≠ none → v2 = v2') :
    a.effect p n i pc v1 v2 = a.effect p n i pc v1' v2' := by
  cases i <;> simp_all [src1Of, src2Of, Arch.effect]

/-! ### Completing what is in flight -/

/-- Completing an instruction hands the next address on, or ends the run whatever it was. -/
def Blind (g : Arch → Arch) : Prop :=
  ∀ a : Arch, (∃ b : Arch, ∀ q, g (a.nextAt q) = b.nextAt q) ∨
    (∃ b : Arch, (∀ q, b.status ≠ .running q) ∧ ∀ q, g (a.nextAt q) = b)

theorem retire_blind (p : List Instr) (pc : Word) : Blind (Arch.retire p pc) := by
  intro a
  by_cases h : isLastPc p pc = true
  · exact .inr ⟨a.retire p pc, by simp [Arch.retire, h], fun q => by simp [Arch.retire, h, Arch.nextAt]⟩
  · exact .inl ⟨{ a with retired := a.retired + 1 }, fun q => by simp [Arch.retire, h, Arch.nextAt]⟩

theorem retireHalt_blind : Blind Arch.retireHalt := fun a =>
  .inr ⟨a.retireHalt, by simp [Arch.retireHalt], fun _ => rfl⟩

theorem finishW_blind (p : List Instr) (l : Latch) : Blind (Arch.finishW p l) := by
  intro a
  cases l with
  | bubble => exact .inl ⟨a, fun q => rfl⟩
  | slot w =>
    by_cases h : w.instr = .halt
    · simpa [Arch.finishW, h] using retireHalt_blind a
    · have := retire_blind p w.pc (a.commit w.instr w.buf)
      have hc : ∀ q, (a.nextAt q).commit w.instr w.buf = (a.commit w.instr w.buf).nextAt q := by
        intro q
        simp only [Arch.commit]
        split <;> rfl
      simpa [Arch.finishW, h, hc] using this

theorem finishM_blind (p : List Instr) (n : Nat) (l : Latch) (ht : (l.has fun m => m.taken) = false) :
    Blind (Arch.finishM p n l) := by
  intro a
  have fail : ∀ f : Fault, (∃ b : Arch, ∀ q, ({ a.nextAt q with status := .failed f } : Arch) = b.nextAt q) ∨
      (∃ b : Arch, (∀ q, b.status ≠ .running q) ∧ ∀ q, ({ a.nextAt q with status := .failed f } : Arch) = b) :=
    fun f => .inr ⟨{ a with status := .failed f }, by simp, fun _ => rfl⟩
  cases l with
  | bubble => exact .inl ⟨a, fun q => rfl⟩
  | slot m =>
    simp only [Latch.has_slot] at ht
    cases hi : m.instr with
    | load rd rs1 imm =>
      by_cases h : m.buf.toNat % 4 = 0 ∧ m.buf.toNat < 4 * n
      · simpa [Arch.finishM, hi, h, Arch.nextAt] using
          retire_blind p m.pc { a with x := a.x.set rd (a.dmem.read m.buf.toNat) }
      · simpa only [Arch.finishM, hi, if_neg h] using fail (.dataOutOfRange m.buf m.pc)
    | store rs1 rs2 imm =>
      by_cases h : m.buf.toNat % 4 = 0 ∧ m.buf.toNat < 4 * n
      · simpa [Arch.finishM, hi, h, Arch.nextAt] using
          retire_blind p m.pc { a with dmem := a.dmem.write m.buf.toNat m.v1 }
      · simpa only [Arch.finishM, hi, if_neg h] using fail (.dataOutOfRange m.buf m.pc)
    | halt => simpa [Arch.finishM, hi] using retireHalt_blind a
    | bz imm | bnz imm | jump rs1 imm => simpa [Arch.finishM, hi, ht] using retire_blind p m.pc a
    | _ =>
      simpa [Arch.finishM, hi, Arch.commit, destOf, Arch.nextAt] using
        retire_blind p m.pc (a.commit m.instr m.buf)

theorem finishM_not_running (p : List Instr) (n : Nat) (l : Latch) (ht : (l.has fun m => m.taken) = false)
    (b : Arch) (hb : ∀ q, b.status ≠ .running q) : ∀ q, (Arch.finishM p n l b).status ≠ .running q := by
  intro q
  cases l with
  | bubble => exact hb q
  | slot m =>
    simp only [Latch.has_slot] at ht
    have hr : ∀ c : Arch, c.status = b.status → (Arch.retire p m.pc c).status ≠ .running q := by
      intro c hc
      unfold Arch.retire
      simp only [hc]
      split
      · simp
      · exact hb q
    cases hi : m.instr <;> simp only [Arch.finishM, hi, ht, Arch.commit, destOf, Arch.retireHalt] <;>
      repeat' split
    all_goals first | (exact hr _ rfl) | simp_all

/-- Completing W and then an M that does not redirect. -/
theorem finishWM_blind (p : List Instr) (n : Nat) (lW lM : Latch) (ht : (lM.has fun m => m.taken) = false) :
    Blind (fun a => Arch.finishM p n lM (Arch.finishW p lW a)) := by
  intro a
  rcases finishW_blind p lW a with ⟨b, hb⟩ | ⟨b, hn, hb⟩
  · rcases finishM_blind p n lM ht b with ⟨c, hc⟩ | ⟨c, hn, hc⟩
    · exact .inl ⟨c, fun q => by simp only [hb, hc]⟩
    · exact .inr ⟨c, hn, fun q => by simp only [hb, hc]⟩
  · exact .inr ⟨Arch.finishM p n lM b, finishM_not_running p n lM ht b hn, fun q => by simp only [hb]⟩

/-- A taken transfer says itself where the next instruction is. -/
theorem finishM_taken (p : List Instr) (n : Nat) (m : Slot) (a : Arch) (q : Word)
    (hi : isTransfer m.instr = true) (ht : m.taken = true) :
    Arch.finishM p n (.slot m) (a.nextAt q) = Arch.finishM p n (.slot m) a := by
  cases hj : m.instr <;> simp_all [Arch.finishM, isTransfer, Arch.nextAt]

/-- Completing M is completing W for a slot that neither accesses memory nor redirects. -/
theorem finishM_pass (p : List Instr) (n : Nat) (m : Slot) (a : Arch) (ha : isAccess m.instr = false)
    (hi : m.instr ≠ .halt) (ht : m.taken = false) :
    Arch.finishW p (.slot m) a = Arch.finishM p n (.slot m) a := by
  cases hj : m.instr <;>
    simp_all only [Arch.finishM, Arch.finishW, Arch.commit, destOf, isAccess, reduceCtorEq, if_false,
      Bool.false_eq_true, not_true_eq_false, ne_eq]

/-- Completing M redirects. -/
theorem finishM_redirect (p : List Instr) (n : Nat) (m : Slot) (a : Arch) (hi : isTransfer m.instr = true)
    (ht : m.taken = true) (hok : (seqFetch p m.buf).isSome = true) :
    Arch.finishW p (.slot m) { a with status := .running m.buf } = Arch.finishM p n (.slot m) a := by
  cases hj : m.instr <;>
    simp_all only [Arch.finishM, Arch.finishW, Arch.commit, destOf, isTransfer, reduceCtorEq, if_false,
      if_true]

theorem finishE_ended (p : List Instr) (n : Nat) (l : Latch) {a : Arch} (h : ∀ q, a.status ≠ .running q) :
    Arch.finishE p n l a = a := by
  cases l with
  | bubble => rfl
  | slot e =>
    cases hs : a.status with
    | running q => exact absurd hs (h q)
    | stopped c => simp [Arch.finishE, hs]
    | failed f => simp [Arch.finishE, hs]

@[simp] theorem Arch.retire_x (p : List Instr) (pc : Word) (a : Arch) : (a.retire p pc).x = a.x := rfl

theorem commit_x (i : Instr) (v : Word) (a : Arch) (r : RegIdx) (h : destOf i ≠ some r) :
    (a.commit i v).x[r] = a.x[r] := by
  cases hd : destOf i with
  | none => simp [Arch.commit, hd]
  | some rd =>
    have : rd.val ≠ r.val := fun e => h (by rw [hd, Fin.ext e])
    simp [Arch.commit, hd, Vector.getElem_set_ne, this]

/-- Completing W leaves every register it has not claimed. -/
theorem finishW_x (p : List Instr) (l : Latch) (a : Arch) (r : RegIdx) (h : l.dest? ≠ some r) :
    (Arch.finishW p l a).x[r] = a.x[r] := by
  cases l with
  | bubble => rfl
  | slot w =>
    by_cases hh : w.instr = .halt
    · simp [Arch.finishW, hh, Arch.retireHalt]
    · simpa [Arch.finishW, hh] using commit_x _ w.buf a r h

/-- Completing M leaves every register it has not claimed. -/
theorem finishM_x (p : List Instr) (n : Nat) (l : Latch) (a : Arch) (r : RegIdx) (h : l.dest? ≠ some r) :
    (Arch.finishM p n l a).x[r] = a.x[r] := by
  cases l with
  | bubble => rfl
  | slot m =>
    have ne : ∀ rd : RegIdx, some rd ≠ some r → rd.val ≠ r.val := fun rd h e => h (by rw [Fin.ext e])
    simp only [Latch.dest_slot] at h
    cases hi : m.instr <;> simp only [hi, destOf] at h <;>
      simp only [Arch.finishM, hi, Arch.retire, Arch.commit, destOf, Arch.retireHalt] <;> repeat' split
    all_goals first | rfl | simp [Vector.getElem_set_ne, ne _ h]

/-! ### The architectural state between the stages -/

/-- The architectural state between Writeback and Memory, when W has retired. -/
def State.archME (s : State) : Arch :=
  match s.stop with
  | some c => { s.committed with status := .stopped c }
  | none => s.completeME s.committed

/-- A stop stands alone: nothing is in M or E. -/
def State.StopAlone (s : State) : Prop := s.stop ≠ none → s.latchM = .bubble ∧ s.latchE = .bubble

theorem arch_stop {c : StopCause} (h : s.stop = some c) :
    s.arch = { s.committed with status := .stopped c } := by
  simp [State.arch, h]

theorem arch_go (h : s.stop = none) (hr : s.hasRaised = false) :
    s.arch = s.completeME (Arch.finishW s.prog s.latchW s.committed) := by
  simp [State.arch, h, hr]

theorem archME_stop {c : StopCause} (h : s.stop = some c) :
    s.archME = { s.committed with status := .stopped c } := by
  simp [State.archME, h]

theorem archME_go (h : s.stop = none) : s.archME = s.completeME s.committed := by
  simp [State.archME, h]

/-- With M and E empty nothing is left to complete there. -/
theorem completeME_empty (hM : s.latchM = .bubble) (hE : s.latchE = .bubble) (a : Arch) :
    s.completeME a = a := by
  simp [State.completeME, hM, hE]

theorem completeME_bubble (hM : s.latchM = .bubble) (a : Arch) :
    s.completeME a = Arch.finishE s.prog s.dmemWords s.latchE a := by
  simp [State.completeME, hM]

theorem stopAlone_writeback (hs : s.stop = none) (hf : s.ProgramFits) (hp : s.FetchedInPlace)
    (ho : s.InOrder) : (afterWriteback s).StopAlone := by
  intro hn
  rcases afterWriteback_cases s with ⟨hw, e⟩ | ⟨w, hw, hi, e⟩ | ⟨w, rd, hw, hi, e⟩ | ⟨w, hw, hd, hi, e⟩ <;>
    rw [e] at hn ⊢
  · exact absurd hs hn
  · simp
  · have hl : w.pc.toNat = s.lastPC := by
      by_contra hx
      have : ((((s.atStage .writeback).writeReg rd w.buf).setValid rd true).lastPC) = s.lastPC := rfl
      simp [this, hx, hs] at hn
    simpa using last_alone hf hp ho hw hl
  · have hl : w.pc.toNat = s.lastPC := by
      by_contra hx
      have : (s.atStage .writeback).lastPC = s.lastPC := rfl
      simp [this, hx, hs] at hn
    simpa using last_alone hf hp ho hw hl

/-- Writeback commits what was owed: the architectural state stays. -/
theorem arch_writeback (hs : s.stop = none) (hr : s.hasRaised = false) (hf : s.ProgramFits)
    (hp : s.FetchedInPlace) (ho : s.InOrder) (hd : s.DrainEmpties) : (afterWriteback s).archME = s.arch := by
  rw [arch_go hs hr]
  have go : ∀ t : State, t.stop = none → t.prog = s.prog → t.dmemWords = s.dmemWords →
      t.latchM = s.latchM → t.latchE = s.latchE →
      t.committed = Arch.finishW s.prog s.latchW s.committed →
      t.archME = s.completeME (Arch.finishW s.prog s.latchW s.committed) := by
    intro t hs hp hn hM hE hb
    rw [archME_go hs, hb]
    simp only [State.completeME, hp, hn, hM, hE]
  rcases afterWriteback_cases s with ⟨hw, e⟩ | ⟨w, hw, hi, e⟩ | ⟨w, rd, hw, hi, e⟩ | ⟨w, hw, hdst, hi, e⟩ <;>
    rw [e]
  · exact go _ hs rfl rfl rfl rfl (by rw [hw]; rfl)
  · obtain ⟨hdr, hM⟩ := ho.haltInW w hw hi
    rw [completeME_empty hM (hd hdr).2.2.1, archME_stop (c := .halt) (by simp)]
    simp [hw, Arch.finishW, hi, State.committed, Arch.retireHalt]
  · have hh : w.instr ≠ .halt := by
      rintro hx
      simp [hx, destOf] at hi
    have hlp : ((((s.atStage .writeback).writeReg rd w.buf).setValid rd true).lastPC) = s.lastPC := rfl
    by_cases hl : w.pc.toNat = s.lastPC
    · obtain ⟨hM, hE⟩ := last_alone hf hp ho hw hl
      rw [completeME_empty hM hE, archME_stop (c := .lastInstruction) (by simp [hlp, hl])]
      simp [hw, Arch.finishW, hh, State.committed, Arch.commit, hi, Arch.retire, isLastPc_eq, hl]
    · refine go _ (by simp [hlp, hl, hs]) rfl rfl rfl rfl ?_
      have hfr : ((((s.atStage .writeback).writeReg rd w.buf).setValid rd true).retire w).frontPc =
        s.frontPc := rfl
      simp [hw, Arch.finishW, hh, State.committed, Arch.commit, hi, Arch.retire, isLastPc_eq, hl, hfr]
  · have hlp : (s.atStage .writeback).lastPC = s.lastPC := rfl
    by_cases hl : w.pc.toNat = s.lastPC
    · obtain ⟨hM, hE⟩ := last_alone hf hp ho hw hl
      rw [completeME_empty hM hE, archME_stop (c := .lastInstruction) (by simp [hlp, hl])]
      simp [hw, Arch.finishW, hi, State.committed, Arch.commit, hdst, Arch.retire, isLastPc_eq, hl]
    · refine go _ (by simp [hlp, hl, hs]) rfl rfl rfl rfl ?_
      have hfr : ((s.atStage .writeback).retire w).frontPc = s.frontPc := rfl
      simp [hw, Arch.finishW, hi, State.committed, Arch.commit, hdst, Arch.retire, isLastPc_eq, hl, hfr]

/-- Memory moves what M held to W, or fails with it: the architectural state stays. -/
theorem arch_memory (hst : s.StallWhileTaken) (ha : s.StopAlone) (hr : s.hasRaised = false) :
    (afterMemory s).arch = s.archME := by
  have hf := afterMemory_frame s
  cases hs : s.stop with
  | some c =>
    have hM := (ha (by simp [hs])).1
    have e : afterMemory s = s.moveToW .bubble := by simp [afterMemory, hM, State.passOn]
    rw [archME_stop hs, e, arch_stop (c := c) (by simp [hs])]
    rfl
  | none =>
    rw [archME_go hs]
    have hsn : (afterMemory s).stop = none := by rw [hf.2.2.2.2.1, hs]
    have raised : ∀ t : State, t = afterMemory s → t.hasRaised = true → t.committed = s.committed →
        t.latchM = s.latchM → t.latchE = s.latchE → t.arch = s.completeME s.committed := by
      rintro t rfl hx hb hM hE
      simp only [State.arch, hsn, hx, if_true, hb, State.completeME, hM, hE, hf.1, hf.2.1]
    -- a slot that goes on to W
    have pass : ∀ (t : State) (m m' : Slot), t = afterMemory s → t.outcome = s.outcome →
        s.latchM = .slot m → m.taken = false → t.latchM = .bubble → t.latchE = s.latchE →
        t.latchW = .slot m' → Arch.finishW s.prog (.slot m') t.committed =
          Arch.finishM s.prog s.dmemWords (.slot m) s.committed → t.arch = s.completeME s.committed := by
      rintro t m m' rfl ho hm ht hM hE hW hb
      rw [arch_go hsn (by simpa [State.hasRaised, ho] using hr), completeME_bubble hM]
      simp only [State.completeME, hm, Latch.has_slot, ht, hf.1, hf.2.1, hE, hW, hb]
      rfl
    have hl : ∀ {m : Slot} {i}, s.latchM = .slot m → m.instr = i → isTransfer i = false →
        m.taken = false := fun hm hi hf => takenFalse hst hm (by simp [hi, hf])
    rcases afterMemory_cases s with ⟨hm, e⟩ | ⟨m, hm, hacc, hi, ht, e⟩ | ⟨m, rd, rs1, imm, hm, hi, hok, e⟩ |
      ⟨m, rs1, rs2, imm, hm, hi, hok, e⟩ | ⟨m, hm, hi, ht, hok, e⟩ | ⟨m, hm, hi, e⟩ | ⟨m, hm, hi, -, e⟩ |
      ⟨m, hm, hi, ht, -, e⟩
    · rw [arch_go hsn (by rw [e]; exact hr), e, completeME_bubble rfl, completeME_bubble hm]
      rfl
    · refine pass _ m m rfl (by rw [e]; rfl) hm (takenFalse hst hm ht) (by rw [e]; rfl) (by rw [e]; rfl)
        (by rw [e]; rfl) ?_
      have htk := takenFalse hst hm ht
      have hb : (afterMemory s).committed = s.committed := by rw [e]; rfl
      rw [hb]
      exact finishM_pass _ _ m _ hacc hi htk
    · refine pass _ m { m with buf := s.memRead m.buf } rfl (by rw [e]; rfl) hm (hl hm hi rfl)
        (by rw [e]; rfl) (by rw [e]; rfl) (by rw [e]; rfl) ?_
      rw [dataAddrOK_iff] at hok
      have hb : (afterMemory s).committed = s.committed := by rw [e]; rfl
      have hrd : s.memRead m.buf = s.committed.dmem.read m.buf.toNat := rfl
      rw [hb, hrd]
      simp [Arch.finishM, Arch.finishW, Arch.commit, destOf, hi, hok]
    · refine pass _ m m rfl (by rw [e]; rfl) hm (hl hm hi rfl) (by rw [e]; rfl) (by rw [e]; rfl)
        (by rw [e]; rfl) ?_
      rw [dataAddrOK_iff] at hok
      have hb : (afterMemory s).committed =
          { s.committed with dmem := s.committed.dmem.write m.buf.toNat m.v1 } := by rw [e]; rfl
      rw [hb]
      simp [Arch.finishM, Arch.finishW, Arch.commit, destOf, hi, hok]
    · have hb : (afterMemory s).committed = { s.committed with status := .running m.buf } := by
        rw [e]
        simp [State.committed, State.frontPc]
      have hW : (afterMemory s).latchW = .slot m := by rw [e]; rfl
      rw [← State.imemRead_isSome, ← seqFetch_eq] at hok
      rw [arch_go hsn (by rw [e]; simpa [State.hasRaised] using hr), completeME_empty (by rw [e]; rfl)
        (by rw [e]; simp), hf.1, hb, hW]
      simp only [State.completeME, hm, Latch.has_slot, ht, if_true]
      exact finishM_redirect _ _ m _ hi ht hok
    · have htk : m.taken = false := hl hm hi rfl
      have hW : (afterMemory s).latchW = .slot m := by rw [e]; rfl
      have hb : ∃ q, (afterMemory s).committed = s.committed.nextAt q := by
        rw [e]
        exact ⟨_, by simp [State.committed, Arch.nextAt]; rfl⟩
      obtain ⟨q, hb⟩ := hb
      rw [arch_go hsn (by rw [e]; simpa [State.hasRaised] using hr), completeME_empty (by rw [e]; rfl)
        (by rw [e]; simp), hf.1, hb, hW]
      simp only [State.completeME, hm, Latch.has_slot, htk, Arch.finishM, Arch.finishW, hi, if_true]
      rw [if_neg (by simp), finishE_ended _ _ _ (by simp [Arch.retireHalt])]
      rfl
    · exact raised _ rfl (by rw [e]; rfl) (by rw [e]; rfl) (by rw [e]; rfl) (by rw [e]; rfl)
    · exact raised _ rfl (by rw [e]; rfl) (by rw [e]; rfl) (by rw [e]; rfl) (by rw [e]; rfl)

/-- With an instruction behind it, what is in W only writes its register and counts. -/
theorem finishW_plain {c : Slot} (hf : s.ProgramFits) (hp : s.FetchedInPlace) (ho : s.InOrder)
    (hd : s.DrainEmpties) (hE : s.latchE = .slot c) :
    ∃ (f : Vector Word 32 → Vector Word 32) (k : Nat), ∀ a : Arch,
      Arch.finishW s.prog s.latchW a = { a with x := f a.x, retired := a.retired + k } := by
  cases hw : s.latchW with
  | bubble => exact ⟨id, 0, fun a => rfl⟩
  | slot w =>
    have hl : ¬ w.pc.toNat = s.lastPC := by
      intro hx
      have := (last_alone hf hp ho hw hx).2
      simp_all
    have hh : w.instr ≠ .halt := by
      intro hx
      have := hd (ho.haltInW w hw hx).1
      simp_all
    cases hx : destOf w.instr with
    | none =>
      exact ⟨id, 1, fun a => by simp [Arch.finishW, hh, Arch.commit, hx, Arch.retire, isLastPc_eq, hl]⟩
    | some rd =>
      exact ⟨fun x => x.set rd w.buf, 1, fun a => by
        simp [Arch.finishW, hh, Arch.commit, hx, Arch.retire, isLastPc_eq, hl]⟩

/-- Execute computes what completing E would: the architectural state stays. -/
theorem arch_execute (hM : s.latchM = .bubble) (hr : s.hasRaised = false) (hf : s.ProgramFits)
    (hp : s.FetchedInPlace) (hd : s.DrainEmpties) (ho : s.InOrder) (hm : s.MulInE) (ha : s.StopAlone) :
    (afterExecute s).arch = s.arch := by
  have hfx := afterExecute_frame s
  cases hs : s.stop with
  | some c =>
    have hE := (ha (by simp [hs])).2
    have e : afterExecute s = s := by simp [afterExecute, hE]
    rw [e]
  | none =>
    have hs' : (afterExecute s).stop = none := by rw [hfx.2.2.2.2.2.2.2.1, hs]
    have hr' : (afterExecute s).hasRaised = false := by
      simpa [State.hasRaised, hfx.2.2.2.2.2.2.1] using hr
    cases hE : s.latchE with
    | bubble =>
      have e : afterExecute s = s := by simp [afterExecute, hE]
      rw [e]
    | slot c =>
      have hdr : s.drain = false := by
        cases hx : s.drain with
        | false => rfl
        | true =>
          have := (hd hx).2.2.1
          simp_all
      have hfr := ho.frontAfterE hdr c hE
      obtain ⟨f, k, hF⟩ := finishW_plain hf hp ho hd hE
      have hb0 : s.committed =
          { x := s.x, z := s.z, dmem := s.dmem, retired := s.retired, status := .running (c.pc + 4) } := by
        simp [State.committed, hfr]
      rw [arch_go hs hr, arch_go hs' hr', completeME_bubble hM, hE, hfx.1, hfx.2.2.2.2.2.2.2.2.2.1, hF, hF]
      -- what E was becomes what M is
      have moved : ∀ (e' : Slot) (z : Bool) (q : Word), (afterExecute s).latchM = .slot e' →
          (afterExecute s).latchE = .bubble →
          (afterExecute s).committed = { s.committed with z := z, status := .running q } →
          Arch.finishM s.prog s.dmemWords (.slot e') ⟨f s.x, z, s.dmem, s.retired + k, .running q⟩ =
            Arch.effect s.prog s.dmemWords c.instr c.pc c.v1 c.v2
              ⟨f s.x, s.z, s.dmem, s.retired + k, .running (c.pc + 4)⟩ →
          (afterExecute s).completeME
              { (afterExecute s).committed with
                x := f (afterExecute s).committed.x
                retired := (afterExecute s).committed.retired + k } =
            Arch.finishE s.prog s.dmemWords (.slot c)
              { s.committed with x := f s.committed.x, retired := s.committed.retired + k } := by
        intro e' z q hM' hE' hb heq
        simp only [State.completeME, hM', hE', hb, hb0, hfx.1, hfx.2.1, Arch.finishE_bubble, ite_self]
        exact heq
      rcases afterExecute_cases s with ⟨hx, -⟩ | ⟨e, v, hc, hv, h⟩ | ⟨e, hc, hi, hx, h⟩ | ⟨e, hc, hi, hx, h⟩ |
        ⟨e, t, hc, ht, htk, h⟩ | ⟨e, hc, ht, htk, h⟩ | ⟨e, hc, hi, h⟩ | ⟨e, hc, hi, h⟩
      · simp [hE] at hx
      all_goals
        obtain rfl : e = c := by simpa [hE] using hc.symm
      · refine moved { e with buf := v } (decide (v = 0)) (e.pc + 4) (by rw [h]; rfl) (by rw [h]; rfl)
          (by rw [h, hb0]; simp [State.committed, State.frontPc]; exact hfr) ?_
        clear h hfx hF hd hp hf ho hm moved
        cases hi : e.instr <;> simp only [hi, computedValue, Option.some.injEq, reduceCtorEq] at hv <;>
          subst hv <;>
          simp only [Arch.finishM, Arch.effect, Arch.result, Arch.complete, Arch.commit, destOf, Arch.retire]
      · have hb : (afterExecute s).committed = { s.committed with z := decide (e.v1 * e.v2 = 0) } := by
          rw [h]
          simp [State.committed, State.frontPc]
        have hl : (afterExecute s).latchM = .bubble := by rw [h]
        have hle : (afterExecute s).latchE = .slot { e with buf := e.v1 * e.v2 } := by rw [h]
        rw [completeME_bubble hl, hb, hle, hfx.1, hfx.2.1, hb0]
        cases hj : e.instr <;> simp only [hj, isMul, reduceCtorEq] at hi
        simp [Arch.finishE, hj, Arch.effect, Arch.result, Arch.complete]
      · refine moved e s.z (e.pc + 4) (by rw [h]; rfl) (by rw [h]; rfl)
          (by rw [h, hb0]; simp [State.committed, State.frontPc]; exact hfr) ?_
        have := hm hx
        cases hj : e.instr <;> simp only [hj, isMul, reduceCtorEq] at hi
        simp [hE, hj, isMul] at this
        simp [Arch.finishM, hj, Arch.effect, Arch.result, Arch.complete, Arch.commit, destOf, Arch.retire,
          this]
      · refine moved { e with buf := t, taken := true } (decide (t = 0)) (e.pc + 4) (by rw [h]; rfl)
          (by rw [h]; rfl) (by rw [h, hb0]; simp [State.committed, State.frontPc]; exact hfr) ?_
        clear h hfx hF hd hp hf ho hm moved
        cases hi : e.instr <;> simp only [hi, isTransfer, reduceCtorEq] at ht <;>
          simp only [hi, takenTarget] at htk <;>
          simp only [Arch.finishM, Arch.effect, Arch.goto, Arch.complete, Arch.retire] <;> repeat' split
        all_goals simp_all
      · refine moved { e with taken := false } s.z (e.pc + 4) (by rw [h]; rfl) (by rw [h]; rfl)
          (by rw [h, hb0]; simp [State.committed, State.frontPc]; exact hfr) ?_
        clear h hfx hF hd hp hf ho hm moved
        cases hi : e.instr <;> simp only [hi, isTransfer, reduceCtorEq] at ht <;>
          simp only [hi, takenTarget] at htk <;>
          simp only [Arch.finishM, Arch.effect, Arch.complete, Arch.retire] <;> repeat' split
        all_goals simp_all
      · refine moved e s.z (afterExecute s).frontPc (by rw [h]; rfl) (by rw [h]; rfl)
          (by rw [h, hb0]; simp [State.committed]) ?_
        simp [Arch.finishM, hi, Arch.effect, Arch.retireHalt]
      · refine moved e s.z (e.pc + 4) (by rw [h]; rfl) (by rw [h]; rfl)
          (by rw [h, hb0]; simp [State.committed, State.frontPc]; exact hfr) ?_
        simp [Arch.finishM, hi, Arch.effect, Arch.complete, Arch.commit, destOf, Arch.retire]

/-- Issuing an instruction is one step of the sequential machine: behind a taken transfer or a stop it is
not on the path, else its operands are what the older instructions leave (R223). -/
theorem arch_issue {t : State} {d d' : Slot} (hst : s.StallWhileTaken) (hp : s.FetchedInPlace)
    (hsc : s.ScoreWME) (hr : s.hasRaised = false) (hd : s.latchD = .slot d) (he : s.latchE = .bubble)
    (hpc : d'.pc = d.pc) (hi : d'.instr = d.instr)
    (h1 : ∀ r, src1Of d.instr = some r → s.isValid r = true ∧ d'.v1 = s.x[r])
    (h2 : ∀ r, src2Of d.instr = some r → s.isValid r = true ∧ d'.v2 = s.x[r])
    (hE : t.latchE = .slot d') (hM : t.latchM = s.latchM) (hW : t.latchW = s.latchW) (hx : t.x = s.x)
    (hz : t.z = s.z) (hm : t.dmem = s.dmem) (hc : t.retired = s.retired) (hs : t.stop = s.stop)
    (ho : t.outcome = s.outcome) (hpr : t.prog = s.prog) (hn : t.dmemWords = s.dmemWords) :
    t.arch = s.arch ∨ t.arch = seqStep s.prog s.dmemWords s.arch := by
  have hb : t.committed = s.committed.nextAt t.frontPc := by
    simp [State.committed, hx, hz, hm, hc, Arch.nextAt]
  cases hst' : s.stop with
  | some c =>
    left
    rw [arch_stop hst', arch_stop (by rw [hs, hst']), hb]
    rfl
  | none =>
    have hfs : s.frontPc = d.pc := by simp [State.frontPc, hd]
    have hb' : s.committed = s.committed.nextAt d.pc := by simp [State.committed, hfs, Arch.nextAt]
    rw [arch_go hst' hr, arch_go (by rw [hs, hst']) (by simpa [State.hasRaised, ho] using hr), hb]
    simp only [State.completeME, hpr, hn, hM, hW, hE, he, Arch.finishE_bubble, ite_self]
    generalize t.frontPc = q
    cases htk : s.latchM.has fun m => m.taken with
    | true =>
      left
      simp only [if_true]
      have hmt := hst.2.1
      cases hm : s.latchM with
      | bubble => simp [hm] at htk
      | slot m =>
        simp only [hm, Latch.has_slot] at htk hmt
        have hit : isTransfer m.instr = true := by simpa [htk] using hmt
        rcases finishW_blind s.prog s.latchW s.committed with ⟨b, hbw⟩ | ⟨b, -, hbw⟩
        · have hp := hbw d.pc
          rw [← hb'] at hp
          rw [hp, hbw q, finishM_taken _ _ _ _ _ hit htk, finishM_taken _ _ _ _ _ hit htk]
        · have hp := hbw d.pc
          rw [← hb'] at hp
          rw [hp, hbw q]
    | false =>
      simp only [Bool.false_eq_true, if_false]
      rcases finishWM_blind s.prog s.dmemWords s.latchW s.latchM htk s.committed with ⟨b, hg⟩ | ⟨b, hn, hg⟩
      · right
        have hgq := hg q
        have hgp := hg d.pc
        simp only at hgq hgp
        have hxb : ∀ r, s.isValid r = true → b.x[r] = s.x[r] := by
          intro r hv
          have hcl := hsc r
          have hW' : s.latchW.dest? ≠ some r := by
            intro hx
            simp [hv, Latch.claims, hx] at hcl
          have hM' : s.latchM.dest? ≠ some r := by
            intro hx
            simp [hv, Latch.claims, hx] at hcl
          have e1 := finishM_x s.prog s.dmemWords s.latchM
            (Arch.finishW s.prog s.latchW (s.committed.nextAt q)) r hM'
          rw [congrArg Arch.x hgq, finishW_x s.prog s.latchW (s.committed.nextAt q) r hW'] at e1
          simpa [Arch.nextAt, State.committed] using e1
        rw [← hb'] at hgp
        rw [hgq, hgp]
        have hfe : Arch.finishE s.prog s.dmemWords (.slot d') (b.nextAt q) =
          (b.nextAt q).effect s.prog s.dmemWords d'.instr d'.pc d'.v1 d'.v2 := rfl
        have hsq : seqFetch s.prog d.pc = some d.instr := by rw [seqFetch_eq, hp.2.2.1 d hd]
        have hss : seqStep s.prog s.dmemWords (b.nextAt d.pc) =
            (b.nextAt d.pc).effect s.prog s.dmemWords d.instr d.pc
              ((b.nextAt d.pc).operand (src1Of d.instr)) ((b.nextAt d.pc).operand (src2Of d.instr)) := by
          simp only [seqStep, Arch.nextAt, hsq]
        rw [hfe, hss, effect_nextAt, effect_nextAt, hpc, hi]
        apply effect_operands
        · intro hne
          cases h : src1Of d.instr with
          | none => exact absurd h hne
          | some r =>
            obtain ⟨hv, e⟩ := h1 r h
            rw [e, ← hxb r hv]
            rfl
        · intro hne
          cases h : src2Of d.instr with
          | none => exact absurd h hne
          | some r =>
            obtain ⟨hv, e⟩ := h2 r h
            rw [e, ← hxb r hv]
            rfl
      · left
        have hgq := hg q
        have hgp := hg d.pc
        simp only at hgq hgp
        rw [← hb'] at hgp
        rw [hgq, finishE_ended _ _ _ hn, hgp]

/-- Decode leaves the architectural state or advances it by the instruction it issues. -/
theorem arch_decode (hE : s.latchE = .bubble ∨ s.mulBusy = true) (hst : s.StallWhileTaken)
    (hp : s.FetchedInPlace) (hsc : s.ScoreWME) (hr : s.hasRaised = false) :
    (afterDecode s).arch = s.arch ∨ (afterDecode s).arch = seqStep s.prog s.dmemWords s.arch := by
  rcases afterDecode_cases s with ⟨-, e⟩ | ⟨d, -, -, -, -, e⟩ | ⟨d, -, hd, hc, hw, e⟩ |
    ⟨d, hb, hd, hc, -, e⟩ | ⟨d, hb, hd, hc, hy, e⟩ <;> rw [e]
  · exact .inl rfl
  · exact .inl rfl
  · exact .inl rfl
  · refine arch_issue hst hp hsc hr hd (by simp_all) rfl rfl ?_ ?_ rfl rfl rfl rfl rfl rfl rfl rfl rfl rfl rfl
    · intro r hr
      cases hi : d.instr <;> simp [hi, src1Of, isCondBranch] at hr hc
    · intro r hr
      cases hi : d.instr <;> simp [hi, src2Of, isCondBranch] at hr hc
  · simp only [State.ready, Bool.and_eq_true] at hy
    refine arch_issue (d' := s.readOperands (src1Of d.instr) (src2Of d.instr) d) hst hp hsc hr hd
      (by simp_all) rfl rfl ?_ ?_ rfl (by simp) (by simp) (by simp) (by simp) (by simp) (by simp) (by simp)
      (by simp) (by simp) (by simp)
    · intro r hr
      have := hy.1.1
      simp only [hr, State.operandValid] at this
      exact ⟨this, by simp [State.readOperands, hr, State.operandValue, State.readReg]⟩
    · intro r hr
      have := hy.1.2
      simp only [hr, State.operandValid] at this
      exact ⟨this, by simp [State.readOperands, hr, State.operandValue, State.readReg]⟩

/-- The architectural state depends on no other part of the state. -/
theorem arch_congr {a b : State} (hb : a.committed = b.committed) (hW : a.latchW = b.latchW)
    (hM : a.latchM = b.latchM) (hE : a.latchE = b.latchE) (hs : a.stop = b.stop)
    (ho : a.hasRaised = b.hasRaised) (hp : a.prog = b.prog) (hn : a.dmemWords = b.dmemWords) :
    a.arch = b.arch := by
  simp only [State.arch, State.completeME, hb, hW, hM, hE, hs, ho, hp, hn]

/-- Fetch leaves the architectural state. -/
theorem arch_fetch (hp : s.PrefetchHeld) : (afterFetch s).arch = s.arch := by
  have hf := afterFetch_frame s
  apply arch_congr <;> simp [State.committed, State.hasRaised, hf, frontPc_fetch hp]

end Sys2Proof.Machine
end

