-- ==== Sys2Proof/Laws/Tick.lean ====
section
/-!
SUPPORT. The stages put together: what the body of a tick keeps.
-/

namespace Sys2Proof.Machine

open Sys2Proof

variable {s : State}

/-- Memory always empties M, unless it raises (R160). -/
theorem afterMemory_bubble (hr : (afterMemory s).hasRaised = false) : (afterMemory s).latchM = .bubble := by
  rcases afterMemory_cases s with ⟨hm, e⟩ | ⟨m, hm, ha, hi, ht, e⟩ | ⟨m, rd, rs1, imm, hm, hi, -, e⟩ |
    ⟨m, rs1, rs2, imm, hm, hi, -, e⟩ | ⟨m, hm, hi, ht, ha, e⟩ | ⟨m, hm, hi, e⟩ | ⟨m, hm, hi, -, e⟩ | ⟨m, hm, hi, ht, -, e⟩
  iterate 6 (rw [e]; rfl)
  all_goals (rw [e] at hr; simp [State.hasRaised] at hr)

/-- Execute empties E, but for a MUL cycle (R143). -/
theorem afterExecute_free : (afterExecute s).latchE = .bubble ∨ (afterExecute s).mulBusy = true := by
  rcases afterExecute_cases s with ⟨h, e⟩ | ⟨c, v, hc, hv, e⟩ | ⟨c, hc, hm, -, e⟩ | ⟨c, hc, -, -, e⟩ | ⟨c, t, hc, ht, -, e⟩ |
    ⟨c, hc, ht, -, e⟩ | ⟨c, hc, hi, e⟩ | ⟨c, hc, hi, e⟩ <;> rw [e] <;> simp_all

/-- Writeback counts at most one instruction (R151). -/
theorem afterWriteback_retired : (afterWriteback s).retired ≤ s.retired + 1 := by
  rcases afterWriteback_cases s with ⟨hw, e⟩ | ⟨w, hw, hi, e⟩ | ⟨w, rd, hw, hi, e⟩ | ⟨w, hw, hd, hi, e⟩ <;> rw [e] <;> simp

/-- When Memory raises: which instruction is in M, what it raises and why, and that nothing but the run status
changes (R162, R163, R165). -/
theorem afterMemory_raised (h0 : s.hasRaised = false) (hr : (afterMemory s).hasRaised = true) :
    ∃ m f, s.latchM = .slot m ∧ afterMemory s = (s.atStage .memory).raise f ∧
      ((f = .dataOutOfRange m.buf m.pc ∧ isAccess m.instr = true ∧ s.dataAddrOK m.buf = false) ∨
        (f = .instrOutOfRange m.buf m.pc ∧ isTransfer m.instr = true ∧ m.taken = true ∧
          s.instrAddrOK m.buf = false)) := by
  rcases afterMemory_cases s with ⟨hm, e⟩ | ⟨m, hm, ha, hi, ht, e⟩ | ⟨m, rd, rs1, imm, hm, hi, -, e⟩ |
    ⟨m, rs1, rs2, imm, hm, hi, -, e⟩ | ⟨m, hm, hi, ht, ha, e⟩ | ⟨m, hm, hi, e⟩ | ⟨m, hm, hi, ha, e⟩ | ⟨m, hm, hi, ht, ha, e⟩
  iterate 6
    exfalso
    rw [e] at hr
    simp only [State.hasRaised] at h0 hr
    simp_all
  · exact ⟨m, _, hm, e, .inl ⟨rfl, hi, ha⟩⟩
  · exact ⟨m, _, hm, e, .inr ⟨rfl, hi, ht, ha⟩⟩

/-- The stages after Memory raise nothing. -/
theorem afterFront_outcome (s : State) : (afterFront s).outcome = s.outcome := by
  unfold afterFront
  rw [(afterFetch_frame _).2.2.2.2.2.2.1, (afterDecode_frame _).2.2.2.2.2.2.1,
    (afterExecute_frame _).2.2.2.2.2.2.1]

/-- A tick that raises is Writeback, the raise and the count (R144, R314). -/
theorem afterTick_raised (hr : (afterTick s).hasRaised = true) :
    (afterMemory (afterWriteback s.beginTick)).hasRaised = true ∧
      afterTick s = (afterMemory (afterWriteback s.beginTick)).endTick := by
  have ho : ∀ t : State, (afterFront t).endTick.hasRaised = t.hasRaised := by
    intro t
    show (afterFront t).hasRaised = t.hasRaised
    simp only [State.hasRaised, afterFront_outcome]
  unfold afterTick at hr ⊢
  dsimp only at hr ⊢
  split at hr
  · rename_i h
    exact ⟨h, if_pos h⟩
  · rename_i h
    rw [ho] at hr
    exact absurd hr h

/-- A tick before its count (R144). -/
def bodyOfTick (s : State) : State :=
  let t := afterMemory (afterWriteback s.beginTick)
  if t.hasRaised then t else afterFront t

theorem afterTick_body (s : State) : afterTick s = (bodyOfTick s).endTick := by
  unfold afterTick bodyOfTick
  dsimp only
  split <;> rfl

/-- What the body `t` of a tick of a running state `s` keeps. -/
structure TickOK (s t : State) : Prop where
  score : if t.hasRaised then t.ScoreME else t.ScoreWME
  mulInE : t.MulInE
  branchWaits : t.BranchWaits
  prefetchHeld : t.PrefetchHeld
  stall : t.StallWhileTaken
  drain : t.DrainEmpties
  inPlace : t.FetchedInPlace
  memoryOK : t.MemoryOK
  inOrder : t.InOrder
  goesOn : s.prog ≠ [] → t.GoesOn
  abortInM : t.AbortInM
  arch : t.arch = s.arch ∨ t.arch = seqStep s.prog s.dmemWords s.arch
  prog : t.prog = s.prog ∧ t.dmemWords = s.dmemWords
  outcome : t.hasRaised = false → t.outcome = s.outcome
  retired : t.retired ≤ s.retired + 1
  cycle : t.cycle = s.cycle ∧ t.maxCycles = s.maxCycles
  stopRaised : t.hasRaised = true → t.stop = none

/-- The invariant is kept by the body of a tick, stage after stage. -/
theorem tickOK (h : s.Inv) (ho : s.outcome = .running) : TickOK s (bodyOfTick s) := by
  obtain ⟨hsb, hmul, hbr, hpf, hst, hdr, hip, hmem, hrest, hsa, hco, hab, hgo, hio, hfit⟩ := h
  have hstop : s.stop = none := hsa.1 ho
  have hnr : s.hasRaised = false := by simp [State.hasRaised, ho]
  have hsc : s.ScoreWME := fun r => by simpa [State.claimCount, hnr] using hsb r
  -- Writeback
  have hmul1 := mulInE_writeback (s := s.beginTick) hmul
  have hbr1 := branchWaits_writeback (s := s.beginTick) hbr
  have hpf1 := prefetchHeld_writeback (s := s.beginTick) hpf
  have hst1 := stall_writeback (s := s.beginTick) (fun w hw hi => (hio.haltInW w hw hi).2) hst
  have hdr1 := drain_writeback (s := s.beginTick) hstop hdr
  have hip1 := inPlace_writeback (s := s.beginTick) hip
  have hfx1 := afterWriteback_frame s.beginTick
  have hmem1 : (afterWriteback s.beginTick).MemoryOK := by
    unfold State.MemoryOK
    rw [hfx1.2.2.1, hfx1.2.1]
    exact hmem
  have hio1 := inOrder_writeback (s := s.beginTick) (inOrder_congr (b := s) rfl rfl rfl rfl rfl rfl rfl rfl hio)
  have hfit1 : (afterWriteback s.beginTick).ProgramFits := by
    unfold State.ProgramFits
    rw [hfx1.1]
    exact hfit
  have hsc1 := score_writeback (s := s.beginTick)
    (fun w hw hi => ⟨(hio.haltInW w hw hi).2, (hdr (hio.haltInW w hw hi).1).2.2.1⟩) hsc
  have hgo1 := fun hq => goesOn_writeback (s := s.beginTick) (hgo hq)
  have hal1 := stopAlone_writeback (s := s.beginTick) hstop hfit hip
    (inOrder_congr (b := s) rfl rfl rfl rfl rfl rfl rfl rfl hio)
  have har1 := arch_writeback (s := s.beginTick) hstop hnr hfit hip
    (inOrder_congr (b := s) rfl rfl rfl rfl rfl rfl rfl rfl hio) hdr
  have hrt1 := afterWriteback_retired (s := s.beginTick)
  have har0 : s.beginTick.arch = s.arch := rfl
  have hbp : s.beginTick.prog = s.prog := rfl
  have hbn : s.beginTick.dmemWords = s.dmemWords := rfl
  have hbo : s.beginTick.outcome = s.outcome := rfl
  have hbc : s.beginTick.cycle = s.cycle := rfl
  have hbm : s.beginTick.maxCycles = s.maxCycles := rfl
  have hbr0 : s.beginTick.retired = s.retired := rfl
  unfold bodyOfTick
  dsimp only
  rw [har0] at har1
  rw [hbp, hbn, hbo, hbc, hbm] at hfx1
  rw [hbr0] at hrt1
  generalize afterWriteback s.beginTick = s1 at *
  -- Memory
  have hmul2 := mulInE_memory hmul1
  have hbr2 := branchWaits_memory hbr1
  have hpf2 := prefetchHeld_memory hpf1
  have hst2 := stall_memory hst1
  have hdr2 := drain_memory hio1.haltInM hdr1
  have hip2 := inPlace_memory hip1
  have hfx2 := afterMemory_frame s1
  have hmem2 := memoryOK_memory hmem1
  have hio2 := inOrder_memory hst1 hio1
  have hr1 : s1.hasRaised = false := by
    simp [State.hasRaised, hfx1, ho]
  have har2 := arch_memory hst1 hal1 hr1
  have hgo2 := fun hq => goesOn_memory hst1 (hgo1 hq)
  have hab2 := abortInM_memory hr1
  cases hr : (afterMemory s1).hasRaised with
  | true =>
    rw [if_pos rfl]
    refine ⟨?_, hmul2, hbr2, hpf2, hst2, hdr2, hip2, hmem2, hio2, hgo2, hab2, .inl (by rw [har2, har1]), ?_, ?_, ?_, ?_, ?_⟩
    · rw [hr, if_pos rfl]; exact score_memory_raised hsc1 hr hr1
    · rw [hfx2.1, hfx2.2.1]; exact ⟨hfx1.1, hfx1.2.1⟩
    · rw [hr]; intro hx; cases hx
    · rw [hfx2.2.2.2.2.2.1]; exact hrt1
    · rw [hfx2.2.2.2.2.2.2.1, hfx2.2.2.2.2.2.2.2.1]; exact ⟨hfx1.2.2.2.2.2.2.1, hfx1.2.2.2.2.2.2.2.1⟩
    · intro _
      rw [hfx2.2.2.2.2.1]
      by_contra hn
      have hM := (hal1 hn).1
      simp [afterMemory, hM, State.passOn, State.hasRaised, hfx1, ho] at hr
  | false =>
    rw [if_neg (by simp)]
    have hM2 := afterMemory_bubble hr
    have hsc2 := score_memory (fun m hm hi => (hdr1 (hio1.haltInM m hm hi)).2.2.1) hsc1 hr
    have htc2 := takenClear_memory hst1 hr
    have ho2 : (afterMemory s1).outcome = s1.outcome := by
      rcases afterMemory_cases s1 with ⟨hm, e⟩ | ⟨m, hm, ha, hi, ht, e⟩ | ⟨m, rd, rs1, imm, hm, hi, -, e⟩ |
        ⟨m, rs1, rs2, imm, hm, hi, -, e⟩ | ⟨m, hm, hi, ht, ha, e⟩ | ⟨m, hm, hi, e⟩ | ⟨m, hm, hi, -, e⟩ | ⟨m, hm, hi, ht, -, e⟩
      iterate 6 (rw [e]; simp)
      all_goals (rw [e] at hr; simp [State.hasRaised] at hr)
    clear hab2
    have hal2 : (afterMemory s1).StopAlone := by
      intro hn
      rw [hfx2.2.2.2.2.1] at hn
      obtain ⟨hM, hE⟩ := hal1 hn
      exact ⟨hM2, by simp [afterMemory, hM, State.passOn, hE]⟩
    have hfit2 : (afterMemory s1).ProgramFits := by
      unfold State.ProgramFits
      rw [hfx2.1]
      exact hfit1
    have hp2 : (afterMemory s1).prog = s.prog ∧ (afterMemory s1).dmemWords = s.dmemWords :=
      ⟨hfx2.1.trans hfx1.1, hfx2.2.1.trans hfx1.2.1⟩
    have hrt2 : (afterMemory s1).retired ≤ s.retired + 1 := by rw [hfx2.2.2.2.2.2.1]; exact hrt1
    have hcy2 : (afterMemory s1).cycle = s.cycle ∧ (afterMemory s1).maxCycles = s.maxCycles := by
      rw [hfx2.2.2.2.2.2.2.1, hfx2.2.2.2.2.2.2.2.1]; exact ⟨hfx1.2.2.2.2.2.2.1, hfx1.2.2.2.2.2.2.2.1⟩
    rw [har1] at har2
    rw [hfx1.2.2.2.2.2.1] at ho2
    unfold afterFront
    clear hfx2
    generalize afterMemory s1 = s2 at *
    -- Execute
    have hmul3 := mulInE_execute hmul2
    have hbr3 := branchWaits_execute hbr2
    have hpf3 := prefetchHeld_execute hpf2
    have hst3 := stall_execute hM2 hst2
    have hdr3 := drain_execute hdr2
    have hip3 := inPlace_execute hip2
    have hfx3 := afterExecute_frame s2
    have hio3 := inOrder_execute hM2 hdr2 hio2
    have hsc3 := score_execute hM2 hsc2
    have htc3 := takenClear_execute htc2
    have har3 := arch_execute hM2 hr hfit2 hip2 hdr2 hio2 hmul2 hal2
    have hgo3 := fun hq => goesOn_execute hM2 (hgo2 hq)
    have hfit3 : (afterExecute s2).ProgramFits := by
      unfold State.ProgramFits
      rw [hfx3.1]
      exact hfit2
    have hr3 : (afterExecute s2).hasRaised = false := by
      simpa [State.hasRaised, hfx3.2.2.2.2.2.2.1] using hr
    have hfree := afterExecute_free (s := s2)
    have hmem3 : (afterExecute s2).MemoryOK := by
      unfold State.MemoryOK
      rw [hfx3.2.2.1, hfx3.2.1]
      exact hmem2
    rw [har2] at har3
    rw [hp2.1, hp2.2, hcy2.1, hcy2.2, ho2] at hfx3
    generalize afterExecute s2 = s3 at *
    -- Decode
    have hmul4 := mulInE_decode hfree hmul3
    have hbr4 := branchWaits_decode hbr3
    have hpf4 := prefetchHeld_decode hpf3
    have hst4 := stall_decode hst3
    have hdr4 := drain_decode hdr3
    have hip4 := inPlace_decode hip3
    have hfx4 := afterDecode_frame s3
    have hio4 := inOrder_decode hfree hpf3 htc3 hio3
    have hsc4 := score_decode hfree hsc3
    have har4 := arch_decode hfree hst3 hip3 hsc3 hr3
    have hgo4 := fun hq => goesOn_decode hpf3 hfit3 hip3 hio3 (hgo3 hq)
    have hmem4 : (afterDecode s3).MemoryOK := by
      unfold State.MemoryOK
      rw [hfx4.2.2.1, hfx4.2.1]
      exact hmem3
    rw [har3, hfx3.1, hfx3.2.1] at har4
    generalize afterDecode s3 = s4 at *
    have hfx5 := afterFetch_frame s4
    have har5 := arch_fetch hpf4
    have hgo5 := fun hq => goesOn_fetch hpf4 (hgo4 hq)
    have hmem5 : (afterFetch s4).MemoryOK := by
      unfold State.MemoryOK
      rw [hfx5.2.2.1, hfx5.2.1]
      exact hmem4
    have ho5 : (afterFetch s4).outcome = s.outcome := by
      rw [hfx5.2.2.2.2.2.2.1, hfx4.2.2.2.2.2.2.1, hfx3.2.2.2.2.2.2.1]
    have hr5 : (afterFetch s4).hasRaised = false := by simp [State.hasRaised, ho5, ho]
    refine ⟨?_, mulInE_fetch hmul4, branchWaits_fetch hbr4, prefetchHeld_fetch hpf4, stall_fetch hst4, drain_fetch hdr4,
      inPlace_fetch hip4, hmem5, inOrder_fetch hpf4 hio4, hgo5,
      (fun f hf => by simp [State.hasRaised, hf] at hr5), by rw [har5]; exact har4, ?_, fun _ => ho5, ?_, ?_, ?_⟩
    · rw [hr5, if_neg (by simp)]; exact score_fetch hsc4
    · rw [hfx5.1, hfx5.2.1, hfx4.1, hfx4.2.1]; exact ⟨hfx3.1, hfx3.2.1⟩
    · have e1 := hfx5.2.2.2.2.2.2.2.2.1
      have e2 := hfx4.2.2.2.2.2.2.2.2.1
      have e3 := hfx3.2.2.2.2.2.2.2.2.1
      omega
    · have e1 := hfx5.2.2.2.2.2.2.2.2.2.2.2.2.2.2.2.2.2
      have e2 := hfx4.2.2.2.2.2.2.2.2.2.2.2.2.2.2.2.2.2
      have e3 := hfx3.2.2.2.2.2.2.2.2.2.2
      exact ⟨by rw [e1.1, e2.1, e3.1], by rw [e1.2, e2.2, e3.2]⟩
    · rw [hr5]; intro hx; cases hx

/-! ### Progress -/

/-- At most how many ticks to the next retirement (R224). -/
def ticksToRetire (s : State) : Nat :=
  match s.latchW with
  | .slot _ => 1
  | .bubble => match s.latchM with
    | .slot _ => 2
    | .bubble => match s.latchE with
      | .slot e => if isMul e.instr ∧ s.exState = .idle then 4 else 3
      | .bubble => match s.latchD with
        | .slot d => if isCondBranch d.instr then 7 - s.brWait else 5
        | .bubble => 8


/-- Writeback counts what W holds (R151). -/
theorem writeback_counts {w : Slot} (hw : s.latchW = .slot w) : (afterWriteback s).retired = s.retired + 1 := by
  rcases afterWriteback_cases s with ⟨h, e⟩ | ⟨w, h, hi, e⟩ | ⟨w, rd, h, hi, e⟩ | ⟨w, h, hd, hi, e⟩
  · simp [hw] at h
  all_goals rw [e]; simp

/-- Only Writeback counts. -/
theorem afterTick_retired : (afterTick s).retired = (afterWriteback s.beginTick).retired := by
  rw [afterTick_body]
  unfold bodyOfTick
  dsimp only
  have h := (afterMemory_frame (afterWriteback s.beginTick)).2.2.2.2.2.1
  split
  · exact h
  · unfold afterFront
    have h1 := (afterExecute_frame (afterMemory (afterWriteback s.beginTick))).2.2.2.2.2.2.2.2.1
    have h2 := (afterDecode_frame (afterExecute (afterMemory (afterWriteback s.beginTick)))).2.2.2.2.2.2.2.2.1
    have h3 := (afterFetch_frame (afterDecode (afterExecute (afterMemory (afterWriteback s.beginTick))))).2.2.2.2.2.2.2.2.1
    show (afterFetch _).retired = _
    rw [h3, h2, h1, h]

/-- A tick retires an instruction, or raises, or comes nearer to a retirement. -/
theorem ticksToRetire_tick (h : s.Inv) (ho : s.outcome = .running) (hq : s.prog ≠ []) :
    s.retired < (afterTick s).retired ∨ (afterTick s).hasRaised = true ∨ ticksToRetire (afterTick s) < ticksToRetire s := by
  obtain ⟨hsb, hmul, hbr, hpf, hst, hdr, hip, hmem, hrest, hsa, hco, hab, hgo, hio, hfit⟩ := h
  have hstop : s.stop = none := hsa.1 ho
  have hnr : s.hasRaised = false := by simp [State.hasRaised, ho]
  have mEnd : ∀ t : State, ticksToRetire t.endTick = ticksToRetire t := fun t => rfl
  rw [afterTick_retired, afterTick_body, mEnd]
  have hre : (bodyOfTick s).endTick.hasRaised = (bodyOfTick s).hasRaised := rfl
  rw [hre]
  cases hW : s.latchW with
  | slot w => left; rw [writeback_counts (s := s.beginTick) hW]; exact Nat.lt_succ_self _
  | bubble =>
    right
    have e1 : afterWriteback s.beginTick = s.beginTick := by simp [afterWriteback, State.beginTick, hW]
    unfold bodyOfTick
    rw [e1]
    dsimp only
    cases hr : (afterMemory s.beginTick).hasRaised with
    | true => left; rw [if_pos rfl, hr]
    | false =>
      right
      rw [if_neg (by simp)]
      have hfW : (afterFront (afterMemory s.beginTick)).latchW = (afterMemory s.beginTick).latchW := by
        unfold afterFront
        rw [(afterFetch_frame _).2.2.2.2.2.2.2.2.2.1, (afterDecode_frame _).2.2.2.2.2.2.2.2.2.1, (afterExecute_frame _).2.2.2.2.2.2.2.2.2.1]
      cases hM : s.latchM with
      | slot m =>
        have : ∃ w, (afterMemory s.beginTick).latchW = .slot w := by
          rcases afterMemory_cases s.beginTick with ⟨hm, e⟩ | ⟨m, hm, ha, hi, ht, e⟩ | ⟨m, rd, rs1, imm, hm, hi, -, e⟩ |
            ⟨m, rs1, rs2, imm, hm, hi, -, e⟩ | ⟨m, hm, hi, ht, ha, e⟩ | ⟨m, hm, hi, e⟩ | ⟨m, hm, hi, -, e⟩ | ⟨m, hm, hi, ht, -, e⟩
          · have : s.latchM = .bubble := hm
            simp [hM] at this
          iterate 5 (exact ⟨_, by rw [e]; rfl⟩)
          all_goals (rw [e] at hr; simp [State.hasRaised] at hr)
        obtain ⟨w, hw⟩ := this
        simp [ticksToRetire, hfW, hw, hW, hM]
      | bubble =>
        have e2 : afterMemory s.beginTick = s.beginTick.moveToW .bubble := by simp [afterMemory, State.beginTick, hM, State.passOn]
        have hdrain : s.drain = false := by
          cases hx : s.drain with
          | false => rfl
          | true => have := (hdr hx).2.2.2; simp [hstop, hM, hW] at this
        have hstall : s.brStall = false := by rw [hst.1, hM]; rfl
        rw [e2] at hfW ⊢
        have hfW' : (afterFront (s.beginTick.moveToW .bubble)).latchW = .bubble := by rw [hfW]; rfl
        unfold afterFront at hfW' ⊢
        cases hE : s.latchE with
        | slot e =>
          have hmE : (afterExecute (s.beginTick.moveToW .bubble)).latchM ≠ .bubble ∨ (isMul e.instr = true ∧ s.exState = .idle ∧ (afterExecute (s.beginTick.moveToW .bubble)).latchM = .bubble ∧
              (afterExecute (s.beginTick.moveToW .bubble)).mulBusy = true ∧ (afterExecute (s.beginTick.moveToW .bubble)).exState = .mul1 ∧ ∃ e', (afterExecute (s.beginTick.moveToW .bubble)).latchE = .slot e') := by
            rcases afterExecute_cases (s.beginTick.moveToW .bubble) with ⟨h, e⟩ | ⟨c, v, hc, hv, e⟩ | ⟨c, hc, hm, hx, e4⟩ | ⟨c, hc, -, -, e⟩ | ⟨c, t, hc, ht, -, e⟩ |
              ⟨c, hc, ht, -, e⟩ | ⟨c, hc, hi, e⟩ | ⟨c, hc, hi, e⟩
            · have : s.latchE = .bubble := h
              simp [hE] at this
            · left; rw [e]; simp
            · right
              have : s.latchE = .slot c := hc
              obtain rfl : e = c := by simpa [hE] using this
              exact ⟨hm, hx, by rw [e4], by rw [e4], by rw [e4], _, by rw [e4]⟩
            all_goals (left; rw [e]; simp)
          have fD := afterDecode_frame (afterExecute (s.beginTick.moveToW .bubble))
          have fF := afterFetch_frame (afterDecode (afterExecute (s.beginTick.moveToW .bubble)))
          rcases hmE with hne | ⟨hm, hx, hMb, hmb, hx', e', hE'⟩
          · cases hMx : (afterExecute (s.beginTick.moveToW .bubble)).latchM with
            | bubble => exact absurd hMx hne
            | slot m =>
              have : (afterFetch (afterDecode (afterExecute (s.beginTick.moveToW .bubble)))).latchM = .slot m := by
                rw [fF.2.2.2.2.2.2.2.2.2.2.1, fD.2.2.2.2.2.2.2.2.2.2.1, hMx]
              simp only [ticksToRetire, hfW', this, hW, hM, hE]
              split <;> omega
          · have e4 : afterDecode (afterExecute (s.beginTick.moveToW .bubble)) = afterExecute (s.beginTick.moveToW .bubble) := by
              simp [afterDecode, hmb]
            rw [e4] at fF hfW' ⊢
            simp [ticksToRetire, hfW', fF, hMb, hE', hx', hW, hM, hE, hm, hx]
        | bubble =>
          have e3 : afterExecute (s.beginTick.moveToW .bubble) = s.beginTick.moveToW .bubble := by
            simp [afterExecute, State.beginTick, hE]
          rw [e3] at hfW' ⊢
          have hval : ∀ r, s.isValid r = true := by
            intro r
            have := hsb r
            simp [State.claimCount, hnr, hW, hM, hE] at this
            exact this
          have hready : ∀ a b c, (s.beginTick.moveToW .bubble).ready a b c = true := by
            intro a b c
            have : ∀ o, (s.beginTick.moveToW .bubble).operandValid o = true := by
              intro o; cases o with
              | none => rfl
              | some r => exact hval r
            simp [State.ready, this]
          have fF := afterFetch_frame (afterDecode (s.beginTick.moveToW .bubble))
          cases hD : s.latchD with
          | slot d =>
            rcases afterDecode_cases (s.beginTick.moveToW .bubble) with ⟨h, -⟩ | ⟨d', -, -, -, h, -⟩ | ⟨d', -, h, hc, hw, e⟩ | ⟨d', -, h, hc, hw, e⟩ | ⟨d', -, h, hc, -, e⟩
            · simp [State.beginTick, hdrain, hD] at h
            · simp [hready] at h
            · obtain rfl : d = d' := by
                have : s.latchD = .slot d' := h
                simpa [hD] using this
              have hD4 : (afterDecode (s.beginTick.moveToW .bubble)).latchD = .slot d := by rw [e]; exact hD
              have hD5 : (afterFetch (afterDecode (s.beginTick.moveToW .bubble))).latchD = .slot d := by
                rcases afterFetch_cases (afterDecode (s.beginTick.moveToW .bubble)) with e | ⟨-, -, -, hd, -, e⟩ | ⟨i, -, -, -, -, hd, -, e⟩ | ⟨i, -, -, -, -, -, e⟩ | ⟨-, -, -, -, hd, -, e⟩
                · rw [e]; exact hD4
                · simp [hD4] at hd
                · simp [hD4] at hd
                · rw [e]; exact hD4
                · simp [hD4] at hd
              have hb5 : (afterFetch (afterDecode (s.beginTick.moveToW .bubble))).brWait = s.brWait + 1 := by
                rw [fF.2.2.2.2.2.2.2.2.2.2.2.2.2.2.2.2.1, e]; rfl
              have hM5 : (afterFetch (afterDecode (s.beginTick.moveToW .bubble))).latchM = .bubble := by
                rw [fF.2.2.2.2.2.2.2.2.2.2.1, e]; rfl
              have hE5 : (afterFetch (afterDecode (s.beginTick.moveToW .bubble))).latchE = .bubble := by
                rw [fF.2.2.2.2.2.2.2.2.2.2.2.1, e]; exact hE
              have : s.brWait < 3 := hw
              simp only [ticksToRetire, hfW', hM5, hE5, hD5, hb5, hc, if_true, hW, hM, hE, hD]
              omega
            · obtain rfl : d = d' := by
                have : s.latchD = .slot d' := h
                simpa [hD] using this
              have hb : s.brWait ≤ 3 := hbr.1
              have hM5 : (afterFetch (afterDecode (s.beginTick.moveToW .bubble))).latchM = .bubble := by
                rw [fF.2.2.2.2.2.2.2.2.2.2.1, e]; rfl
              have hE5 : (afterFetch (afterDecode (s.beginTick.moveToW .bubble))).latchE = .slot d := by
                rw [fF.2.2.2.2.2.2.2.2.2.2.2.1, e]
              have hnm : isMul d.instr = false := by cases hi : d.instr <;> simp [hi, isCondBranch, isMul] at hc ⊢
              simp only [ticksToRetire, hfW', hM5, hE5, hc, if_true, hW, hM, hE, hD, hnm]
              simp
              omega
            · obtain rfl : d = d' := by
                have : s.latchD = .slot d' := h
                simpa [hD] using this
              have hM5 : (afterFetch (afterDecode (s.beginTick.moveToW .bubble))).latchM = .bubble := by
                rw [fF.2.2.2.2.2.2.2.2.2.2.1, e]; simp
              have hE5 : ∃ x, (afterFetch (afterDecode (s.beginTick.moveToW .bubble))).latchE = .slot x := by
                rw [fF.2.2.2.2.2.2.2.2.2.2.2.1, e]; exact ⟨_, rfl⟩
              obtain ⟨x, hE5⟩ := hE5
              simp only [ticksToRetire, hfW', hM5, hE5, hc, hW, hM, hE, hD]
              split <;> simp
          | bubble =>
            have e4 : afterDecode (s.beginTick.moveToW .bubble) = s.beginTick.moveToW .bubble := by
              simp [afterDecode, State.beginTick, hD]
            rw [e4] at fF hfW' ⊢
            have hfront : (s.imemRead s.frontPc).isSome = true := by
              rcases hgo hq hstop with h | h | h | h | h | h
              · exact h
              · simp [hstall] at h
              · simp [hdrain] at h
              · simp [hW] at h
              · simp [hM] at h
              · simp [hE] at h
            have hD5 : ∃ d, (afterFetch (s.beginTick.moveToW .bubble)).latchD = .slot d := by
              simp only [State.frontPc, hD] at hfront
              cases hfs : s.fstate with
              | holdingPrefetch =>
                cases hF : s.latchF with
                | bubble => exact absurd hF (hpf hfs)
                | slot f => exact ⟨f, by simp [afterFetch, State.beginTick, hdrain, hstall, hfs, State.canDeliver, hD, State.redeliver, hF]⟩
              | normal =>
                simp only [hfs] at hfront
                obtain ⟨i, hi⟩ := Option.isSome_iff_exists.mp hfront
                have hi' : (s.beginTick.moveToW .bubble).imemRead (s.beginTick.moveToW .bubble).pc = some i := hi
                have hfx : (s.beginTick.moveToW .bubble).fstate = .normal := hfs
                have : afterFetch (s.beginTick.moveToW .bubble) = ((s.beginTick.moveToW .bubble).atStage .fetch).fetchInto i := by
                  unfold afterFetch
                  rw [if_neg (by show ¬ (s.drain || s.brStall) = true; simp [hdrain, hstall]), hfx]
                  simp only [hi']
                have hcan : ((s.beginTick.moveToW .bubble).atStage .fetch).canDeliver = true := by
                  show (decide (s.latchD = .bubble) && !false) = true
                  simp [hD]
                exact ⟨newSlot i s.pc, by rw [this, State.fetchInto, if_pos hcan]; rfl⟩
            obtain ⟨d, hD5⟩ := hD5
            have hM5 : (afterFetch (s.beginTick.moveToW .bubble)).latchM = .bubble := by
              rw [fF.2.2.2.2.2.2.2.2.2.2.1]; rfl
            have hE5 : (afterFetch (s.beginTick.moveToW .bubble)).latchE = .bubble := by
              rw [fF.2.2.2.2.2.2.2.2.2.2.2.1]; exact hE
            simp only [ticksToRetire, hfW', hM5, hE5, hD5, hW, hM, hE, hD]
            split <;> omega

end Sys2Proof.Machine
end

