-- ==== Sys2Proof/Tests/Slice0.lean ====
section
/-!
SUPPORT. Tests of the model on small states, and for every statement of the certificates that has
hypotheses one theorem that shows a state that meets them. Expected results are the spec's own: the
encodings of spec/30_encoding.md R114 and R115, the corner cases of 41 to 44, and
spec/95_test_vectors.md.
-/

namespace Sys2Proof.Tests

open Sys2Proof
open Sys2Proof.Machine

/-! ### Well-formed records (R317): one ill-formed record for each check -/

theorem test_record_rd_refused :
    (Record.mk .movc 32 0 0 5).wellFormed = false ∧ (Record.mk .movc (-1) 0 0 5).wellFormed = false ∧
      (Record.mk .movc 31 0 0 5).wellFormed = true := by decide

theorem test_record_rs1_refused :
    (Record.mk .jump 0 32 0 5).wellFormed = false ∧ (Record.mk .jump 0 31 0 5).wellFormed = true := by
  decide

theorem test_record_rs2_refused :
    (Record.mk .store 0 1 (-1) 5).wellFormed = false ∧ (Record.mk .store 0 1 0 5).wellFormed = true := by
  decide

theorem test_record_imm_refused :
    (Record.mk .bz 0 0 0 4294967296).wellFormed = false ∧
      (Record.mk .bz 0 0 0 (-2147483649)).wellFormed = false ∧
      (Record.mk .bz 0 0 0 4294967295).wellFormed = true ∧
      (Record.mk .bz 0 0 0 (-2147483648)).wellFormed = true := by decide

/-- A field the opcode does not use is not checked (R317). -/
theorem test_record_unused_unchecked : (Record.mk .halt 99 (-7) 1000 5).wellFormed = true := by decide

/-! ### Decoding: words written bit by bit from R114 (13 reserved, 4 op, 5 rd, 5 rs1, 5 rs2, 32 imm) -/

theorem test_decode_movc :
    decodeTableWord 64
      0b0000000000000000000001000000000000000000000000000000000000000101 =
      some (.movc 1 5) := by rfl

theorem test_decode_load :
    decodeTableWord 64
      0b0000000000000000100011000010000000000000000000000000000000001000 =
      some (.load 3 1 8) := by rfl

theorem test_decode_store :
    decodeTableWord 64
      0b0000000000000001000000000100000100000000000000000000000000001000 =
      some (.store 2 1 8) := by rfl

theorem test_decode_add :
    decodeTableWord 64
      0b0000000000000001100001000100001100000000000000000000000000000000 =
      some (.add 1 2 3) := by rfl

theorem test_decode_sub :
    decodeTableWord 64
      0b0000000000000010000100000010010100000000000000000000000000000000 =
      some (.sub 4 1 5) := by rfl

theorem test_decode_mul :
    decodeTableWord 64
      0b0000000000000010111111111101110100000000000000000000000000000000 =
      some (.mul 31 30 29) := by rfl

theorem test_decode_and :
    decodeTableWord 64
      0b0000000000000011000011000010001000000000000000000000000000000000 =
      some (.and 3 1 2) := by rfl

theorem test_decode_or :
    decodeTableWord 64
      0b0000000000000011100011000010001000000000000000000000000000000000 =
      some (.or 3 1 2) := by rfl

theorem test_decode_xor :
    decodeTableWord 64
      0b0000000000000100000011000010001000000000000000000000000000000000 =
      some (.xor 3 1 2) := by rfl

theorem test_decode_bz :
    decodeTableWord 64
      0b0000000000000100100000000000000000000000000000000000000000001100 =
      some (.bz 12) := by rfl

theorem test_decode_bnz :
    decodeTableWord 64
      0b0000000000000101000000000000000011111111111111111111111111111000 =
      some (.bnz (-8)) := by rfl

theorem test_decode_jump :
    decodeTableWord 64
      0b0000000000000101100000001100000000000000000000000000000000000000 =
      some (.jump 6 0) := by rfl

theorem test_decode_halt :
    decodeTableWord 64
      0b0000000000000110000000000000000000000000000000000000000000000000 =
      some (.halt) := by rfl

theorem test_decode_nop :
    decodeTableWord 64
      0b0000000000000110100000000000000000000000000000000000000000000000 =
      some (.nop) := by rfl

/-- Op codes 14 and 15 and every reserved bit are refused by name (R119). -/
theorem test_decode_reserved :
    decode 0x0007000000000000 = .error (.reservedOpcode 14) ∧
      decode 0x0007800000000000 = .error (.reservedOpcode 15) ∧
      decode 0x0008000000000000 = .error .reservedBits ∧
      decode 0x8000000000000000 = .error .reservedBits := by
  refine ⟨?_, ?_, ?_, ?_⟩ <;> rfl

/-- A HALT word whose unused fields are not 0 is a HALT (R111). -/
theorem test_decode_unused_fields : decodeTableWord 64 0x00067FFFFFFFFFFF = some .halt := by rfl

/-! ### Small states -/

/-- A launched program, with registers 0, memory 0, N = 100 and a budget of 20. -/
def fresh (p : List Instr) : State :=
  State.launched p (Vector.replicate 32 0) [] 100 false 20

/-- The slot of an instruction at 4000. -/
def slotOf (i : Instr) (v1 v2 buf : Word) (taken : Bool) : Slot :=
  ⟨4000, i, v1, v2, buf, taken⟩

/-- A stage at work on a slot, which stands in every latch past Fetch; the program is its instruction and a
NOP. -/
def work (st : Stage) (c : Slot) : State :=
  { fresh [c.instr, .nop] with latchD := .slot c, latchE := .slot c, latchM := .slot c, latchW := .slot c,
                               stage := st }

/-- The same with one register Invalid. -/
def held (st : Stage) (c : Slot) (r : RegIdx) : State :=
  { work st c with valid := (Vector.replicate 32 true).set r false }

/-- What is seen of a next state. -/
def seen {α : Type} (r : Result) (f : State → α) : Option α :=
  match r with
  | .next t => some (f t)
  | .fault _ | .refused _ => none

/-- The buffer of a latch. -/
def bufOf (l : Latch) : Option Word :=
  match l with
  | .bubble => none
  | .slot c => some c.buf

/-- The result in M and Z after Execute. -/
def executed (i : Instr) (v1 v2 : Word) : Option (Option Word × Bool) :=
  seen (exec i (work .execute (slotOf i v1 v2 0 false))) fun t => (bufOf t.latchM, t.z)

/-! ### One instruction in one stage, from the corner cases of 41 to 44 -/

/-- R230: `imm = 0` sets Z. -/
theorem test_movc_zero : executed (.movc 1 0) 0 0 = some (some 0, true) := by decide

/-- R230, R31: `rd = 0` writes R0 like any register. -/
theorem test_movc_r0 :
    seen (exec (.movc 0 5) (work .writeback (slotOf (.movc 0 5) 0 0 5 false)))
      (fun t => (t.x[0], t.valid[0], t.retired)) = some (5, true, 1) := by decide

/-- R231: the sum wraps to 0 and sets Z. -/
theorem test_add_wraps : executed (.add 1 2 3) 0xFFFFFFFF 1 = some (some 0, true) := by decide

/-- R231: `rd = rs1` reads the old value, then claims. -/
theorem test_add_same_register :
    seen (exec (.add 2 2 3)
      { work .decode (slotOf (.add 2 2 3) 0 0 0 false) with x := (Vector.replicate 32 0).set 2 9 })
      (fun t => (t.latchE, t.valid[2])) = some (.slot ⟨4000, .add 2 2 3, 9, 0, 0, false⟩, false) := by decide

/-- R232: `0 - 1`. -/
theorem test_sub_below_zero : executed (.sub 4 1 5) 0 1 = some (some 0xFFFFFFFF, false) := by decide

/-- R232: `0x80000000 - 1`. -/
theorem test_sub_top : executed (.sub 4 1 5) 0x80000000 1 = some (some 0x7FFFFFFF, false) := by decide

/-- R233, R170: the first Execute tick holds E, empties M and sets Z from the truncated product. -/
theorem test_mul_first_cycle :
    seen (exec (.mul 1 2 3) (work .execute (slotOf (.mul 1 2 3) 0x10000 0x10000 0 false)))
      (fun t => (bufOf t.latchE, t.latchM, t.z, t.exState)) =
      some (some 0, .bubble, true, .mul1) := by decide

/-- R171: the second Execute tick moves the MUL on. -/
theorem test_mul_second_cycle :
    seen (exec (.mul 1 2 3)
      { work .execute (slotOf (.mul 1 2 3) 6 7 42 false) with exState := .mul1 })
      (fun t => (t.latchE, bufOf t.latchM, t.mulBusy, t.exState)) =
      some (.bubble, some 42, true, .idle) := by decide

/-- R234: no common set bit. -/
theorem test_and_disjoint : executed (.and 3 1 2) 0x0F0F0F0F 0xF0F0F0F0 = some (some 0, true) := by decide

/-- R235: 12 | 10. -/
theorem test_or : executed (.or 3 1 2) 12 10 = some (some 14, false) := by decide

/-- R236: the complement. -/
theorem test_xor_complement :
    executed (.xor 3 1 2) 0x0000FFFF 0xFFFFFFFF = some (some 0xFFFF0000, false) := by decide

/-- R260: the base 8 and the offset -8 give address 0, which sets Z. -/
theorem test_load_address : executed (.load 3 1 (-8)) 8 0 = some (some 0, true) := by decide

/-- R260: the word at byte address 108. -/
theorem test_load_word :
    seen (exec (.load 3 1 8)
      { work .memory (slotOf (.load 3 1 8) 100 0 108 false) with dmem := [(108, 42)] })
      (fun t => (t.latchM, bufOf t.latchW)) = some (.bubble, some 42) := by decide

/-- R261: data from `v1`, address from `v2`. -/
theorem test_store_word :
    seen (exec (.store 2 1 8) (work .memory (slotOf (.store 2 1 8) 42 100 108 false)))
      (fun t => (t.dmem, t.latchM)) = some ([(108, 42)], .bubble) := by decide

/-- R82: with N = 100 the address 400 is past the end; nothing is written and the run is aborted. -/
theorem test_store_past_end :
    seen (exec (.store 2 1 8) (work .memory (slotOf (.store 2 1 8) 42 392 400 false)))
      (fun t => (t.dmem, t.outcome)) = some ([], .aborted (.dataOutOfRange 400 4000)) := by decide

/-- R280: taken, to its own address plus the offset, with Z false after and Fetch stalled. -/
theorem test_bz_taken :
    seen (exec (.bz 12) { work .execute (slotOf (.bz 12) 0 0 0 false) with z := true })
      (fun t => (t.latchM, t.z, t.brStall)) =
      some (.slot ⟨4000, .bz 12, 0, 0, 4012, true⟩, false, true) := by decide

/-- R280: a taken branch past the last instruction raises. -/
theorem test_bz_out_of_range :
    seen (exec (.bz 8) (work .memory (slotOf (.bz 8) 0 0 4008 true)))
      (fun t => (t.pc, t.outcome)) = some (4000, .aborted (.instrOutOfRange 4008 4000)) := by decide

/-- R281: not taken when Z is true; Z and the buffer stay. -/
theorem test_bnz_not_taken :
    seen (exec (.bnz 12) { work .execute (slotOf (.bnz 12) 0 0 0 false) with z := true })
      (fun t => (t.latchM, t.z, t.brStall)) =
      some (.slot ⟨4000, .bnz 12, 0, 0, 0, false⟩, true, false) := by decide

/-- R281: a negative offset redirects backward. -/
theorem test_bnz_backward :
    seen (exec (.bnz (-4)) (work .memory ⟨4004, .bnz (-4), 0, 0, 4000, true⟩))
      (fun t => (t.pc, t.latchD, t.latchE, t.brStall)) = some (4000, .bubble, .bubble, false) := by decide

/-- R282: the target is `v1 + imm`, whatever Z is. -/
theorem test_jump_target :
    seen (exec (.jump 6 4) { work .execute (slotOf (.jump 6 4) 4020 0 0 false) with z := true })
      (fun t => (bufOf t.latchM, t.z)) = some (some 4024, false) := by decide

/-- R282: JUMP does not wait; it issues as soon as `rs1` is Valid. -/
theorem test_jump_issues :
    seen (exec (.jump 6 4) (work .decode (slotOf (.jump 6 4) 0 0 0 false)))
      (fun t => (t.latchD, t.brWait)) = some (.bubble, 0) := by decide

/-- R300: the drain empties the front. -/
theorem test_halt_drains :
    seen (exec .halt (work .execute (slotOf .halt 0 0 0 false)))
      (fun t => (t.drain, t.latchD, t.latchE, t.stop)) = some (true, .bubble, .bubble, none) := by decide

/-- R152: a HALT that is the last instruction too stops with the cause Halt. -/
theorem test_halt_stops :
    seen (exec .halt { work .writeback (slotOf .halt 0 0 0 false) with prog := [.halt] })
      (fun t => (t.stop, t.retired)) = some (some .halt, 1) := by decide

/-- R301: Z stays. -/
theorem test_nop_keeps_z :
    seen (exec .nop { work .execute (slotOf .nop 0 0 0 false) with z := true })
      (fun t => (t.z, t.latchE)) = some (true, .bubble) := by decide

/-- R301, R152: a NOP at the last address stops the run. -/
theorem test_nop_last :
    seen (exec .nop { work .writeback (slotOf .nop 0 0 0 false) with prog := [.nop] })
      (fun t => (t.stop, t.retired)) = some (some .lastInstruction, 1) := by decide

/-- 95_test_vectors.md S1, tick 1: the first instruction is in D, `pc` is 4004. -/
theorem test_first_tick :
    seen (runStep (fresh [.movc 1 5, .halt])) (fun t => (t.pc, t.latchD, t.cycle)) =
      some (4004, .slot ⟨4000, .movc 1 5, 0, 0, 0, false⟩, 1) := by decide

/-- R210: with a budget of 0 no tick runs. -/
theorem test_no_budget :
    seen (runStep { fresh [.nop] with maxCycles := 0 }) (fun t => (t.outcome, t.cycle)) =
      some (.cycleBudgetExceeded, 0) := by decide

/-! ### The hypotheses of the instruction statements -/

/-- The stage at work and the slot in its latch. -/
def inD (s : State) (c : Slot) : Prop := s.stage = .decode ∧ s.latchD = .slot c
def inE (s : State) (c : Slot) : Prop := s.stage = .execute ∧ s.latchE = .slot c
def inM (s : State) (c : Slot) : Prop := s.stage = .memory ∧ s.latchM = .slot c
def inW (s : State) (c : Slot) : Prop := s.stage = .writeback ∧ s.latchW = .slot c

theorem witness_MovcEffect :
    (let c := (slotOf (.movc 31 5) 0 0 0 false); inD (work .decode c) c ∧ (work .decode c).valid[31] = true) ∧
      (let c := (slotOf (.movc 31 5) 0 0 0 false); inD (held .decode c 31) c ∧ (held .decode c 31).valid[31] = false) ∧
      (let c := (slotOf (.movc 31 5) 0 0 0 false); inE (work .execute c) c) ∧
      (let c := (slotOf (.movc 31 5) 0 0 0 false); inM (work .memory c) c) ∧
      (let c := (slotOf (.movc 31 5) 0 0 0 false); inW (work .writeback c) c) := by
  simp only [inD, inE, inM, inW]
  decide

theorem witness_AddEffect :
    (let c := (slotOf (.add 31 0 15) 0 0 0 false); inD (work .decode c) c ∧ (work .decode c).valid[0] = true ∧ (work .decode c).valid[15] = true ∧ (work .decode c).valid[31] = true) ∧
      (let c := (slotOf (.add 31 0 15) 0 0 0 false); inD (held .decode c 0) c ∧ (held .decode c 0).valid[0] = false) ∧
      (let c := (slotOf (.add 31 0 15) 0 0 0 false); inD (held .decode c 15) c ∧ (held .decode c 15).valid[15] = false) ∧
      (let c := (slotOf (.add 31 0 15) 0 0 0 false); inD (held .decode c 31) c ∧ (held .decode c 31).valid[31] = false) ∧
      (let c := (slotOf (.add 31 0 15) 0 0 0 false); inE (work .execute c) c) ∧
      (let c := (slotOf (.add 31 0 15) 0 0 0 false); inM (work .memory c) c) ∧
      (let c := (slotOf (.add 31 0 15) 0 0 0 false); inW (work .writeback c) c) := by
  simp only [inD, inE, inM, inW]
  decide

theorem witness_SubEffect :
    (let c := (slotOf (.sub 31 0 15) 0 0 0 false); inD (work .decode c) c ∧ (work .decode c).valid[0] = true ∧ (work .decode c).valid[15] = true ∧ (work .decode c).valid[31] = true) ∧
      (let c := (slotOf (.sub 31 0 15) 0 0 0 false); inD (held .decode c 0) c ∧ (held .decode c 0).valid[0] = false) ∧
      (let c := (slotOf (.sub 31 0 15) 0 0 0 false); inD (held .decode c 15) c ∧ (held .decode c 15).valid[15] = false) ∧
      (let c := (slotOf (.sub 31 0 15) 0 0 0 false); inD (held .decode c 31) c ∧ (held .decode c 31).valid[31] = false) ∧
      (let c := (slotOf (.sub 31 0 15) 0 0 0 false); inE (work .execute c) c) ∧
      (let c := (slotOf (.sub 31 0 15) 0 0 0 false); inM (work .memory c) c) ∧
      (let c := (slotOf (.sub 31 0 15) 0 0 0 false); inW (work .writeback c) c) := by
  simp only [inD, inE, inM, inW]
  decide

theorem witness_AndEffect :
    (let c := (slotOf (.and 31 0 15) 0 0 0 false); inD (work .decode c) c ∧ (work .decode c).valid[0] = true ∧ (work .decode c).valid[15] = true ∧ (work .decode c).valid[31] = true) ∧
      (let c := (slotOf (.and 31 0 15) 0 0 0 false); inD (held .decode c 0) c ∧ (held .decode c 0).valid[0] = false) ∧
      (let c := (slotOf (.and 31 0 15) 0 0 0 false); inD (held .decode c 15) c ∧ (held .decode c 15).valid[15] = false) ∧
      (let c := (slotOf (.and 31 0 15) 0 0 0 false); inD (held .decode c 31) c ∧ (held .decode c 31).valid[31] = false) ∧
      (let c := (slotOf (.and 31 0 15) 0 0 0 false); inE (work .execute c) c) ∧
      (let c := (slotOf (.and 31 0 15) 0 0 0 false); inM (work .memory c) c) ∧
      (let c := (slotOf (.and 31 0 15) 0 0 0 false); inW (work .writeback c) c) := by
  simp only [inD, inE, inM, inW]
  decide

theorem witness_OrEffect :
    (let c := (slotOf (.or 31 0 15) 0 0 0 false); inD (work .decode c) c ∧ (work .decode c).valid[0] = true ∧ (work .decode c).valid[15] = true ∧ (work .decode c).valid[31] = true) ∧
      (let c := (slotOf (.or 31 0 15) 0 0 0 false); inD (held .decode c 0) c ∧ (held .decode c 0).valid[0] = false) ∧
      (let c := (slotOf (.or 31 0 15) 0 0 0 false); inD (held .decode c 15) c ∧ (held .decode c 15).valid[15] = false) ∧
      (let c := (slotOf (.or 31 0 15) 0 0 0 false); inD (held .decode c 31) c ∧ (held .decode c 31).valid[31] = false) ∧
      (let c := (slotOf (.or 31 0 15) 0 0 0 false); inE (work .execute c) c) ∧
      (let c := (slotOf (.or 31 0 15) 0 0 0 false); inM (work .memory c) c) ∧
      (let c := (slotOf (.or 31 0 15) 0 0 0 false); inW (work .writeback c) c) := by
  simp only [inD, inE, inM, inW]
  decide

theorem witness_XorEffect :
    (let c := (slotOf (.xor 31 0 15) 0 0 0 false); inD (work .decode c) c ∧ (work .decode c).valid[0] = true ∧ (work .decode c).valid[15] = true ∧ (work .decode c).valid[31] = true) ∧
      (let c := (slotOf (.xor 31 0 15) 0 0 0 false); inD (held .decode c 0) c ∧ (held .decode c 0).valid[0] = false) ∧
      (let c := (slotOf (.xor 31 0 15) 0 0 0 false); inD (held .decode c 15) c ∧ (held .decode c 15).valid[15] = false) ∧
      (let c := (slotOf (.xor 31 0 15) 0 0 0 false); inD (held .decode c 31) c ∧ (held .decode c 31).valid[31] = false) ∧
      (let c := (slotOf (.xor 31 0 15) 0 0 0 false); inE (work .execute c) c) ∧
      (let c := (slotOf (.xor 31 0 15) 0 0 0 false); inM (work .memory c) c) ∧
      (let c := (slotOf (.xor 31 0 15) 0 0 0 false); inW (work .writeback c) c) := by
  simp only [inD, inE, inM, inW]
  decide

theorem witness_MulEffect :
    (let c := (slotOf (.mul 31 0 15) 0 0 0 false); inD (work .decode c) c ∧ (work .decode c).valid[0] = true ∧ (work .decode c).valid[15] = true ∧ (work .decode c).valid[31] = true) ∧
      (let c := (slotOf (.mul 31 0 15) 0 0 0 false); inD (held .decode c 0) c ∧ (held .decode c 0).valid[0] = false) ∧
      (let c := (slotOf (.mul 31 0 15) 0 0 0 false); inD (held .decode c 15) c ∧ (held .decode c 15).valid[15] = false) ∧
      (let c := (slotOf (.mul 31 0 15) 0 0 0 false); inD (held .decode c 31) c ∧ (held .decode c 31).valid[31] = false) ∧
      (let c := slotOf (.mul 31 0 15) 0 0 0 false; inE (work .execute c) c ∧ (work .execute c).exState = .idle) ∧
      (let c := slotOf (.mul 31 0 15) 0 0 0 false; let s := { work .execute c with exState := .mul1 }; inE s c ∧ s.exState = .mul1) ∧
      (let c := (slotOf (.mul 31 0 15) 0 0 0 false); inM (work .memory c) c) ∧
      (let c := (slotOf (.mul 31 0 15) 0 0 0 false); inW (work .writeback c) c) := by
  simp only [inD, inE, inM, inW]
  decide

/-- Memory: the last word, an address off the grid, and the first past the end. -/
theorem witness_LoadEffect :
    (let c := (slotOf (.load 31 0 4) 0 0 0 false); inD (work .decode c) c ∧ (work .decode c).valid[0] = true ∧ (work .decode c).valid[31] = true) ∧
      (let c := (slotOf (.load 31 0 4) 0 0 0 false); inD (held .decode c 0) c ∧ (held .decode c 0).valid[0] = false) ∧
      (let c := (slotOf (.load 31 0 4) 0 0 0 false); inD (held .decode c 31) c ∧ (held .decode c 31).valid[31] = false) ∧
      (let c := (slotOf (.load 31 0 4) 0 0 0 false); inE (work .execute c) c) ∧
      (let c := slotOf (.load 31 0 4) 0 0 396 false; let s := work .memory c; inM s c ∧ c.buf.toNat % 4 = 0 ∧
        c.buf.toNat < 4 * s.dmemWords) ∧
      (let c := slotOf (.load 31 0 4) 0 0 398 false; inM (work .memory c) c ∧ c.buf.toNat % 4 ≠ 0) ∧
      (let c := slotOf (.load 31 0 4) 0 0 400 false; let s := work .memory c; inM s c ∧ 4 * s.dmemWords ≤ c.buf.toNat) ∧
      (let c := (slotOf (.load 31 0 4) 0 0 0 false); inW (work .writeback c) c) := by
  simp only [inD, inE, inM, inW]
  decide

/-- Memory: the last word, an address off the grid, and the first past the end. -/
theorem witness_StoreEffect :
    (let c := (slotOf (.store 31 0 4) 0 0 0 false); inD (work .decode c) c ∧ (work .decode c).valid[31] = true ∧ (work .decode c).valid[0] = true) ∧
      (let c := (slotOf (.store 31 0 4) 0 0 0 false); inD (held .decode c 31) c ∧ (held .decode c 31).valid[31] = false) ∧
      (let c := (slotOf (.store 31 0 4) 0 0 0 false); inD (held .decode c 0) c ∧ (held .decode c 0).valid[0] = false) ∧
      (let c := (slotOf (.store 31 0 4) 0 0 0 false); inE (work .execute c) c) ∧
      (let c := slotOf (.store 31 0 4) 0 0 396 false; let s := work .memory c; inM s c ∧ c.buf.toNat % 4 = 0 ∧
        c.buf.toNat < 4 * s.dmemWords) ∧
      (let c := slotOf (.store 31 0 4) 0 0 398 false; inM (work .memory c) c ∧ c.buf.toNat % 4 ≠ 0) ∧
      (let c := slotOf (.store 31 0 4) 0 0 400 false; let s := work .memory c; inM s c ∧ 4 * s.dmemWords ≤ c.buf.toNat) ∧
      (let c := (slotOf (.store 31 0 4) 0 0 0 false); inW (work .writeback c) c) := by
  simp only [inD, inE, inM, inW]
  decide

/-- The wait at 2 and at 3; the last instruction and the first address past it. -/
theorem witness_BzEffect :
    (let c := slotOf (.bz 4) 0 0 0 false; let s := { work .decode c with brWait := 2 }; inD s c ∧ s.brWait < 3) ∧
      (let c := slotOf (.bz 4) 0 0 0 false; let s := { work .decode c with brWait := 3 }; inD s c ∧ 3 ≤ s.brWait) ∧
      (let c := slotOf (.bz 4) 0 0 0 false; let s := { work .execute c with z := true }; inE s c ∧ s.z = true) ∧
      (let c := slotOf (.bz 4) 0 0 0 false; let s := work .execute c; inE s c ∧ s.z = false) ∧
      (let c := slotOf (.bz 4) 0 0 4004 true; let s := work .memory c; inM s c ∧ c.taken = true ∧
        s.instrAddrOK c.buf = true) ∧
      (let c := slotOf (.bz 4) 0 0 4008 true; let s := work .memory c; inM s c ∧ c.taken = true ∧
        s.instrAddrOK c.buf = false) ∧
      (let c := slotOf (.bz 4) 0 0 0 false; inM (work .memory c) c ∧ c.taken = false) ∧
      (let c := slotOf (.bz 4) 0 0 0 false; inW (work .writeback c) c) := by
  simp only [inD, inE, inM, inW]
  decide

/-- The wait at 2 and at 3; the last instruction and the first address past it. -/
theorem witness_BnzEffect :
    (let c := slotOf (.bnz 4) 0 0 0 false; let s := { work .decode c with brWait := 2 }; inD s c ∧ s.brWait < 3) ∧
      (let c := slotOf (.bnz 4) 0 0 0 false; let s := { work .decode c with brWait := 3 }; inD s c ∧ 3 ≤ s.brWait) ∧
      (let c := slotOf (.bnz 4) 0 0 0 false; let s := { work .execute c with z := true }; inE s c ∧ s.z = true) ∧
      (let c := slotOf (.bnz 4) 0 0 0 false; let s := work .execute c; inE s c ∧ s.z = false) ∧
      (let c := slotOf (.bnz 4) 0 0 4004 true; let s := work .memory c; inM s c ∧ c.taken = true ∧
        s.instrAddrOK c.buf = true) ∧
      (let c := slotOf (.bnz 4) 0 0 4008 true; let s := work .memory c; inM s c ∧ c.taken = true ∧
        s.instrAddrOK c.buf = false) ∧
      (let c := slotOf (.bnz 4) 0 0 0 false; inM (work .memory c) c ∧ c.taken = false) ∧
      (let c := slotOf (.bnz 4) 0 0 0 false; inW (work .writeback c) c) := by
  simp only [inD, inE, inM, inW]
  decide

theorem witness_JumpEffect :
    (let c := (slotOf (.jump 31 4) 0 0 0 false); inD (work .decode c) c ∧ (work .decode c).valid[31] = true) ∧
      (let c := (slotOf (.jump 31 4) 0 0 0 false); inD (held .decode c 31) c ∧ (held .decode c 31).valid[31] = false) ∧
      (let c := (slotOf (.jump 31 4) 0 0 0 false); inE (work .execute c) c) ∧
      (let c := slotOf (.jump 31 4) 0 0 4004 true; let s := work .memory c; inM s c ∧ c.taken = true ∧
        s.instrAddrOK c.buf = true) ∧
      (let c := slotOf (.jump 31 4) 0 0 4008 true; let s := work .memory c; inM s c ∧ c.taken = true ∧
        s.instrAddrOK c.buf = false) ∧
      (let c := (slotOf (.jump 31 4) 0 0 0 false); inW (work .writeback c) c) := by
  simp only [inD, inE, inM, inW]
  decide

theorem witness_HaltEffect :
    (let c := (slotOf (.halt) 0 0 0 false); inD (work .decode c) c) ∧
      (let c := (slotOf (.halt) 0 0 0 false); inE (work .execute c) c) ∧
      (let c := (slotOf (.halt) 0 0 0 false); inM (work .memory c) c) ∧
      (let c := (slotOf (.halt) 0 0 0 false); inW (work .writeback c) c) := by
  simp only [inD, inE, inM, inW]
  decide

theorem witness_NopEffect :
    (let c := (slotOf (.nop) 0 0 0 false); inD (work .decode c) c) ∧
      (let c := (slotOf (.nop) 0 0 0 false); inE (work .execute c) c) ∧
      (let c := (slotOf (.nop) 0 0 0 false); inM (work .memory c) c) ∧
      (let c := (slotOf (.nop) 0 0 0 false); inW (work .writeback c) c) := by
  simp only [inD, inE, inM, inW]
  decide

/-! ### The hypotheses of the statements about encoding and launch -/

/-- A word with every operand bit set, and the row it matches. -/
theorem witness_DecodeByTable :
    0x00067FFFFFFFFFFF#64 &&& 0xFFFF800000000000#64 = 0x0006000000000000#64 ∧
      0x0000000000000000#64 &&& 0xFFFF800000000000#64 = 0x0000000000000000#64 ∧
      0x0006FFFFFFFFFFFF#64 &&& 0xFFFF800000000000#64 = 0x0006800000000000#64 := by decide

/-- Op codes 13 (decoded), 14 and 15, the lowest and the highest reserved bit; an instruction before. -/
theorem witness_ReservedWordsRefused :
    ((0x0006FFFFFFFFFFFF#64).toNat / 2 ^ 51 = 0 ∧ (0x0006FFFFFFFFFFFF#64).toNat / 2 ^ 47 % 16 < 14) ∧
      (0x0007000000000000#64).toNat / 2 ^ 47 % 16 = 14 ∧ (0x0007800000000000#64).toNat / 2 ^ 47 % 16 = 15 ∧
      (0x0008000000000000#64).toNat / 2 ^ 51 ≠ 0 ∧ (0x8000000000000000#64).toNat / 2 ^ 51 ≠ 0 ∧
      (∀ item ∈ [ProgramItem.rec64 0x0006800000000000], ∃ i, item.load 0 = .ok i) := by
  refine ⟨by decide, by decide, by decide, by decide, by decide, ?_⟩
  intro item h
  rw [List.mem_singleton.1 h]
  exact ⟨.nop, rfl⟩

/-- Two LOAD words that differ in `rs2`, and two MOVC records that differ in `rs1` and `rs2`. -/
theorem witness_UnusedFieldsIgnored :
    (let w := 0x00008C2000000008#64
     let w' := 0x00008C3F00000008#64
     w ≠ w' ∧ w &&& 0xFFFF800000000000#64 = Opcode.load.pattern ∧
      w' &&& 0xFFFF800000000000#64 = Opcode.load.pattern ∧ w.toNat / 2 ^ 42 % 32 = w'.toNat / 2 ^ 42 % 32 ∧
      w.toNat / 2 ^ 37 % 32 = w'.toNat / 2 ^ 37 % 32 ∧ Opcode.load.usesReg .rs2 = false ∧
      w.toNat % 2 ^ 32 = w'.toNat % 2 ^ 32) ∧
    (let r := Record.mk .movc 1 2 3 5
     let r' := Record.mk .movc 1 99 (-1) 5
     r.op = r'.op ∧ (∀ f ∈ [RegField.rd, .rs1, .rs2], r.op.usesReg f = true → r.reg f = r'.reg f) ∧
      r.imm = r'.imm) := by decide

/-- An instruction before; an undecodable word; one record that fails first in each field. -/
theorem witness_LaunchReportsFirstError :
    (∀ item ∈ [ProgramItem.record ⟨.nop, 0, 0, 0, 0⟩], ∃ i, item.load 0 = .ok i) ∧
      (∀ i, decode 0x0007000000000000 ≠ .ok i) ∧
      (Record.mk .add 32 0 0 0).regOK .rd = false ∧
      ((Record.mk .add 31 32 0 0).regOK .rd = true ∧ (Record.mk .add 31 32 0 0).regOK .rs1 = false) ∧
      ((Record.mk .add 31 31 (-1) 0).regOK .rd = true ∧ (Record.mk .add 31 31 (-1) 0).regOK .rs1 = true ∧
        (Record.mk .add 31 31 (-1) 0).regOK .rs2 = false) ∧
      ((Record.mk .store 31 31 0 4294967296).regOK .rd = true ∧
        (Record.mk .store 31 31 0 4294967296).regOK .rs1 = true ∧
        (Record.mk .store 31 31 0 4294967296).regOK .rs2 = true ∧
        (Record.mk .store 31 31 0 4294967296).immOK = false) := by
  refine ⟨?_, ?_, by decide, by decide, by decide, by decide⟩
  · intro item h
    rw [List.mem_singleton.1 h]
    exact ⟨.nop, rfl⟩
  · intro i h
    rw [test_decode_reserved.1] at h
    cases h

/-- The bounds of each field. -/
theorem witness_RecordsChecked :
    (let r := Record.mk .load 31 0 99 (-2147483648)
     (∀ f ∈ [RegField.rd, .rs1, .rs2], r.op.usesReg f = true → 0 ≤ r.reg f ∧ r.reg f < 32) ∧
      -(2 ^ 31) ≤ r.imm ∧ r.imm < 2 ^ 32) ∧
    (let r := Record.mk .load 32 0 99 0
     r.op.usesReg .rd = true ∧ 32 ≤ r.reg .rd) ∧
    (let r := Record.mk .load 0 (-1) 99 0
     r.op.usesReg .rs1 = true ∧ r.reg .rs1 < 0) ∧
    (let r := Record.mk .bz 0 0 0 4294967296
     r.op.usesImm = true ∧ 2 ^ 32 ≤ r.imm) ∧
    (let r := Record.mk .bz 0 0 0 (-2147483649)
     r.op.usesImm = true ∧ r.imm < -(2 ^ 31)) := by decide

/-- A launch of `MOVC R1,#5; HALT` with the least number of data words, 100. -/
def twoItems : LaunchInput :=
  { program := some [.rec64 0x0000040000000005, .record ⟨.halt, 0, 0, 0, 0⟩]
    rInit := (Vector.replicate 32 0).set 2 7
    dmemInit := 0 :: 9 :: List.replicate 98 0
    enoughWords := by decide
    zInit := true
    maxCycles := 20 }

/-- R99: no launch input has fewer than 100 data words. -/
theorem test_launch_words (inp : LaunchInput) : inp.dmemInit.length ≠ 99 := by
  have h := inp.enoughWords
  unfold Config.dumpWords at h
  omega

theorem witness_LaunchedState :
    twoItems.program = some [.rec64 0x0000040000000005, .record ⟨.halt, 0, 0, 0, 0⟩] ∧
      ∀ item ∈ [ProgramItem.rec64 0x0000040000000005, .record ⟨.halt, 0, 0, 0, 0⟩],
        ∃ i, item.load 0 = .ok i := by
  refine ⟨rfl, ?_⟩
  intro item h
  rcases List.mem_cons.1 h with h | h
  · rw [h]
    exact ⟨.movc 1 5, rfl⟩
  · rw [List.mem_singleton.1 h]
    exact ⟨.halt, rfl⟩

theorem witness_InvAtLaunch :
    ∃ t, launch twoItems = .next t ∧ 4000 + 4 * t.prog.length < 2 ^ 32 ∧ t.prog = [.movc 1 5, .halt] :=
  ⟨_, rfl, by decide, by decide⟩

/-! ### The hypotheses of the statements about memories and shared operations -/

/-- The first and the last word. -/
theorem witness_DataMemoryReadsWhatWasWritten :
    (fresh [.nop]).dmem.wf = true ∧ (fresh [.nop]).dataAddrOK 0 = true ∧
      (fresh [.nop]).dataAddrOK 396 = true ∧ ({ fresh [.nop] with dmem := [(0, 1), (396, 2)] }).dmem.wf = true := by
  decide

/-- Off the grid, and the first address past the end. -/
theorem witness_DataAddressRule :
    (let c := slotOf (.load 1 2 0) 0 0 2 false
     inM (work .memory c) c ∧ (work .memory c).dataAddrOK c.buf = false) ∧
    (let c := slotOf (.store 1 2 0) 0 0 400 false
     inM (work .memory c) c ∧ (work .memory c).dataAddrOK c.buf = false) := by
  simp only [inM]
  decide

/-- Below 4000, off the grid, the first and the last instruction, the first address past it. -/
theorem witness_InstrAddressRule :
    (let s := fresh [.nop, .nop]
     s.instrAddrOK 4000 = true ∧ s.instrAddrOK 4004 = true ∧ s.instrAddrOK 3996 = false ∧
      s.instrAddrOK 4002 = false ∧ s.instrAddrOK 4008 = false) ∧
    (let s := { fresh [.nop] with pc := 4004 }
     s.instrAddrOK 4004 = false ∧ s.pc = 4004 ∧ s.fstate = .normal) ∧
    (let c := slotOf (.jump 1 0) 0 0 4008 true
     isTransfer c.instr = true ∧ inM (work .memory c) c ∧ c.taken = true ∧
      (work .memory c).instrAddrOK c.buf = false) := by
  simp only [inM]
  decide

/-- E and M empty, holding a writer, holding a STORE. -/
theorem witness_SquashAndFlush :
    ((fresh [.nop]).latchE = .bubble ∧ (fresh [.nop]).latchM = .bubble) ∧
    (let c := slotOf (.movc 31 5) 0 0 0 false
     (held .memory c 31).latchE = .slot c ∧ (held .memory c 31).latchM = .slot c ∧
      destOf c.instr = some 31) ∧
    (let c := slotOf (.store 1 2 0) 0 0 0 false
     (work .memory c).latchE = .slot c ∧ (work .memory c).latchM = .slot c ∧ destOf c.instr = none) := by
  decide

/-- Targets in and out of the sequence, with a writer, a STORE and nothing in E. -/
theorem witness_RedirectRule :
    (let m := slotOf (.bz 8) 0 0 4008 true
     isTransfer m.instr = true ∧ inM (work .memory m) m ∧ m.taken = true ∧
      (work .memory m).instrAddrOK m.buf = false) ∧
    (let m := slotOf (.bnz 4) 0 0 4004 true
     let e : Slot := ⟨4004, .movc 31 5, 0, 0, 0, false⟩
     let s := { work .memory m with latchE := .slot e }
     isTransfer m.instr = true ∧ inM s m ∧ m.taken = true ∧ s.instrAddrOK m.buf = true ∧
      s.latchE = .slot e ∧ destOf e.instr = some 31) ∧
    (let m := slotOf (.jump 1 0) 0 0 4000 true
     inM (work .memory m) m ∧ (work .memory m).instrAddrOK m.buf = true ∧
      (work .memory m).latchE = .slot m ∧ destOf m.instr = none) ∧
    (let m := slotOf (.jump 1 0) 0 0 4000 true
     let s := { work .memory m with latchE := .bubble }
     inM s m ∧ s.instrAddrOK m.buf = true ∧ s.latchE = .bubble) := by
  simp only [inM]
  decide

/-- What stalls Decode, the wait at 2 and at 3, a source not Valid, every operand Valid. -/
theorem witness_DecodeProcedure :
    (let c := slotOf (.bz 4) 0 0 0 false
     ({ work .decode c with drain := true }).drain = true ∧
      ({ work .decode c with mulBusy := true }).mulBusy = true ∧ (fresh [.nop]).latchD = .bubble ∧
      (let s := { work .decode c with brWait := 2 }
       s.drain = false ∧ s.mulBusy = false ∧ s.latchD = .slot c ∧ isCondBranch c.instr = true ∧ s.brWait < 3) ∧
      (let s := { work .decode c with brWait := 3 }
       s.drain = false ∧ s.mulBusy = false ∧ s.latchD = .slot c ∧ isCondBranch c.instr = true ∧ 3 ≤ s.brWait)) ∧
    (let c := slotOf (.add 31 0 15) 0 0 0 false
     isCondBranch c.instr = false ∧ (held .decode c 0).latchD = .slot c ∧ (held .decode c 0).drain = false ∧
      (held .decode c 0).mulBusy = false ∧ src1Of c.instr = some 0 ∧ (held .decode c 0).valid[0] = false ∧
      (∀ r : RegIdx, (src1Of c.instr = some r ∨ src2Of c.instr = some r ∨ destOf c.instr = some r) →
        (work .decode c).valid[r] = true)) := by decide

/-- Each stall; delivery of a held prefetch, of a new instruction, of none; the prefetch and its hold. -/
theorem witness_FetchProcedure :
    (let c := slotOf .nop 0 0 0 false
     let e := fresh [.nop]
     let d := { fresh [.nop] with latchD := .slot c }
     ({ e with drain := true }).drain = true ∧ ({ e with brStall := true }).brStall = true ∧
      (e.drain = false ∧ e.brStall = false ∧ e.latchD = .bubble ∧ e.mulBusy = false ∧ e.fstate = .normal ∧
        e.imemRead e.pc = some .nop) ∧
      (let h := { e with fstate := .holdingPrefetch, latchF := .slot c, pc := 4004 }
       h.drain = false ∧ h.brStall = false ∧ h.latchD = .bubble ∧ h.mulBusy = false ∧
        h.fstate = .holdingPrefetch) ∧
      (let n := { e with pc := 4004 }
       n.drain = false ∧ n.brStall = false ∧ n.latchD = .bubble ∧ n.mulBusy = false ∧ n.fstate = .normal ∧
        n.imemRead n.pc = none) ∧
      (d.drain = false ∧ d.brStall = false ∧ d.latchD ≠ .bubble ∧ d.fstate = .normal ∧
        d.imemRead d.pc = some .nop) ∧
      (let m := { e with mulBusy := true, fstate := .holdingPrefetch }
       m.drain = false ∧ m.brStall = false ∧ m.mulBusy = true ∧ m.fstate = .holdingPrefetch) ∧
      (let n := { d with pc := 4004 }
       n.drain = false ∧ n.brStall = false ∧ n.latchD ≠ .bubble ∧ n.imemRead n.pc = none)) := by decide

/-- W empty, holding a writer, a STORE, a HALT. -/
theorem witness_WritebackProcedure :
    (fresh [.nop]).latchW = .bubble ∧
    (let c := slotOf (.movc 31 5) 0 0 5 false
     (held .fetch c 31).latchW = .slot c ∧ destOf c.instr = some 31) ∧
    (let c := slotOf (.store 1 2 0) 0 0 0 false
     (work .fetch c).latchW = .slot c ∧ destOf c.instr = none ∧ c.instr ≠ .halt) ∧
    (let c := slotOf .halt 0 0 0 false
     (work .fetch c).latchW = .slot c ∧ c.instr = .halt) := by decide

/-! ### The hypotheses of the statements about a step -/

/-- A LOAD in M with an address off the grid, behind a STORE that retires. -/
def raising : State :=
  { fresh [.store 1 2 0, .load 3 1 2, .nop] with
    latchM := .slot ⟨4004, .load 3 1 2, 0, 0, 2, false⟩
    latchW := .slot ⟨4000, .store 1 2 0, 0, 0, 0, false⟩
    valid := (Vector.replicate 32 true).set 3 false
    pc := 4008
    cycle := 5 }

/-- A HALT in W. -/
def stopping : State :=
  { fresh [.halt, .nop] with
    latchW := .slot ⟨4000, .halt, 0, 0, 0, false⟩, drain := true, pc := 4008, cycle := 4 }

/-- The budget reached; a tick that raises; a tick that goes on; a tick that stops the run. -/
theorem witness_StepIsOneTick :
    (let s := { fresh [.nop] with cycle := 20 }
     s.outcome = .running ∧ s.prog ≠ [] ∧ s.maxCycles ≤ s.cycle) ∧
    (raising.outcome = .running ∧ raising.prog ≠ [] ∧ raising.cycle < raising.maxCycles ∧
      ∃ s₁ s₂ s₃ s₄ s₅ f, writebackStage { raising with mulBusy := false } = .next s₁ ∧
        memoryStage s₁ = .next s₂ ∧ executeStage s₂ = .next s₃ ∧ decodeStage s₃ = .next s₄ ∧
        fetchStage s₄ = .next s₅ ∧ s₂.outcome = .aborted f) ∧
    (let s := { fresh [.nop] with cycle := 19 }
     s.outcome = .running ∧ s.prog ≠ [] ∧ s.cycle < s.maxCycles ∧
      ∃ s₁ s₂ s₃ s₄ s₅, writebackStage { s with mulBusy := false } = .next s₁ ∧
        memoryStage s₁ = .next s₂ ∧ executeStage s₂ = .next s₃ ∧ decodeStage s₃ = .next s₄ ∧
        fetchStage s₄ = .next s₅ ∧ s₂.outcome = .running ∧ s₅.stop = none) ∧
    (stopping.outcome = .running ∧ stopping.prog ≠ [] ∧ stopping.cycle < stopping.maxCycles ∧
      ∃ s₁ s₂ s₃ s₄ s₅, writebackStage { stopping with mulBusy := false } = .next s₁ ∧
        memoryStage s₁ = .next s₂ ∧ executeStage s₂ = .next s₃ ∧ decodeStage s₃ = .next s₄ ∧
        fetchStage s₄ = .next s₅ ∧ s₂.outcome = .running ∧ s₅.stop = some .halt) := by
  refine ⟨by decide, ⟨rfl, by decide, by decide, _, _, _, _, _, _, rfl, rfl, rfl, rfl, rfl, rfl⟩,
    ⟨rfl, by decide, by decide, _, _, _, _, _, rfl, rfl, rfl, rfl, rfl, rfl, rfl⟩,
    ⟨rfl, by decide, by decide, _, _, _, _, _, rfl, rfl, rfl, rfl, rfl, rfl, rfl⟩⟩

theorem witness_StagesRunTheirInstruction :
    (let c := slotOf .nop 0 0 0 false
     let s := work .fetch c
     s.latchW = .slot c ∧ s.latchM = .slot c ∧ s.latchE = .slot c ∧ s.latchD = .slot c ∧ s.drain = false ∧
      s.mulBusy = false) ∧
    (fresh [.nop]).imemRead (fresh [.nop]).pc = some .nop ∧ (fresh [.nop]).drain = false ∧
    (fresh [.nop]).brStall = false ∧ (fresh [.nop]).fstate = .normal := by decide

theorem witness_StepRunsTheFetchedInstruction :
    (let s := fresh [.movc 1 5, .halt]
     (s.outcome = .running ∧ s.cycle < s.maxCycles ∧ s.stop = none ∧ s.latchW = .bubble ∧
      s.latchM = .bubble ∧ s.latchE = .bubble ∧ s.latchD = .bubble ∧ s.drain = false ∧ s.brStall = false ∧
      s.fstate = .normal ∧ s.mulBusy = false ∧ s.stage = .fetch) ∧ s.imemRead s.pc = some (.movc 1 5)) ∧
    decode (BitVec.ofNat 64 0x00067FFFFFFFFFFF) = .ok .halt := by
  exact ⟨by decide, rfl⟩

theorem witness_AbortEndsTheRun :
    raising.outcome = .running ∧ raising.prog ≠ [] ∧ raising.cycle < raising.maxCycles ∧
      ∃ u m f, writebackStage { raising with mulBusy := false } = .next u ∧ u.latchM = .slot m ∧
        u.errorOf m = some f :=
  ⟨rfl, by decide, by decide, _, _, _, rfl, rfl, rfl⟩

/-! ### The hypotheses of the frames -/

/-- A stage that is not Writeback, an empty W, an instruction that writes no register, a writer in W. -/
theorem witness_RegistersFrame :
    (let c := slotOf (.add 31 0 15) 0 0 7 false
     (∃ t, exec c.instr (work .memory c) = .next t) ∧ (work .memory c).stage ≠ .writeback ∧
      (∃ t, exec c.instr (work .writeback c) = .next t) ∧ inW (work .writeback c) c ∧
      destOf c.instr = some 31) ∧
    (∃ t, exec .nop { fresh [.nop] with stage := .writeback } = .next t) ∧
    ({ fresh [.nop] with stage := .writeback }).latchW = .bubble ∧ destOf .nop = none :=
  ⟨⟨⟨_, rfl⟩, by decide, ⟨_, rfl⟩, ⟨rfl, rfl⟩, rfl⟩, ⟨_, rfl⟩, rfl, rfl⟩

/-- A claim, a release, a squash by a redirect, a squash by a HALT in Memory and in Writeback. -/
theorem witness_ValidityFrame :
    (let c := slotOf (.movc 31 5) 0 0 0 false
     seen (exec c.instr (work .decode c)) (fun t => t.valid[31]) = some false ∧
      (work .decode c).valid[31] = true ∧
      seen (exec c.instr (held .writeback c 31)) (fun t => t.valid[31]) = some true ∧
      (held .writeback c 31).valid[31] = false) ∧
    (let m := slotOf (.jump 1 0) 0 0 4000 true
     let s := { held .memory m 31 with latchE := .slot ⟨4004, .movc 31 5, 0, 0, 0, false⟩ }
     seen (exec m.instr s) (fun t => t.valid[31]) = some true ∧ s.valid[31] = false) ∧
    (let m := slotOf .halt 0 0 0 false
     let s := { held .memory m 31 with latchE := .slot ⟨4004, .movc 31 5, 0, 0, 0, false⟩ }
     seen (exec m.instr s) (fun t => t.valid[31]) = some true ∧
      seen (exec m.instr { s with stage := .writeback }) (fun t => t.valid[31]) = some true ∧
      s.valid[31] = false) := by decide

theorem witness_ZeroFlagRule :
    (let c := slotOf (.add 31 0 15) 1 1 0 false
     (∃ t, exec c.instr (work .execute c) = .next t) ∧ inE (work .execute c) c ∧
      (∃ t, exec c.instr (work .memory c) = .next t) ∧ (work .memory c).stage ≠ .execute) ∧
    (∃ t, exec .nop { fresh [.nop] with stage := .execute } = .next t) ∧
    ({ fresh [.nop] with stage := .execute }).latchE = .bubble :=
  ⟨⟨⟨_, rfl⟩, ⟨rfl, rfl⟩, ⟨_, rfl⟩, by decide⟩, ⟨_, rfl⟩, rfl⟩

/-- Fetch, Decode, and a redirect in Memory to an address other than `pc`. -/
theorem witness_ProgramCounterRule :
    (∃ t, exec .nop (fresh [.nop]) = .next t) ∧ (fresh [.nop]).stage = .fetch ∧
    (let c := slotOf .nop 0 0 0 false
     (∃ t, exec .nop (work .decode c) = .next t) ∧ (work .decode c).stage ≠ .fetch ∧
      (work .decode c).stage ≠ .memory) ∧
    (let m := slotOf (.jump 1 0) 0 0 4004 true
     seen (exec m.instr (work .memory m)) (fun t => t.pc) = some 4004 ∧ (work .memory m).pc = 4000 ∧
      (work .memory m).stage = .memory) :=
  ⟨⟨_, rfl⟩, rfl, ⟨⟨_, rfl⟩, by decide, by decide⟩, by decide⟩

/-- A LOAD; a STORE in Execute; a STORE with M empty; a STORE to the last word and to the first past it. -/
theorem witness_DataMemoryFrame :
    (let c := slotOf (.load 1 2 0) 0 0 396 false
     (∃ t, exec c.instr (work .memory c) = .next t) ∧ ∀ rs1 rs2 imm, c.instr ≠ .store rs1 rs2 imm) ∧
    (let c := slotOf (.store 1 2 0) 7 0 396 false
     (∃ t, exec c.instr (work .execute c) = .next t) ∧ (work .execute c).stage ≠ .memory ∧
      (∃ t, exec c.instr { work .memory c with latchM := .bubble } = .next t) ∧
      (∃ t, exec c.instr (work .memory c) = .next t) ∧ inM (work .memory c) c ∧
      (work .memory c).dmem.wf = true ∧ (work .memory c).dataAddrOK c.buf = true) ∧
    (let c := slotOf (.store 1 2 0) 7 0 400 false
     (∃ t, exec c.instr (work .memory c) = .next t) ∧ inM (work .memory c) c ∧
      (work .memory c).dmem.wf = true ∧ (work .memory c).dataAddrOK c.buf = false) :=
  ⟨⟨⟨_, rfl⟩, by intro _ _ _ h; cases h⟩,
    ⟨⟨_, rfl⟩, by decide, ⟨_, rfl⟩, ⟨_, rfl⟩, ⟨rfl, rfl⟩, by decide, by decide⟩,
    ⟨⟨_, rfl⟩, ⟨rfl, rfl⟩, by decide, by decide⟩⟩

theorem witness_NothingRewritesTheProgram :
    (∃ t, step (fresh [.nop]) = .next t) ∧ (∃ t, step stopping = .next t) ∧ stopping.drain = true :=
  ⟨⟨_, rfl⟩, ⟨_, rfl⟩, rfl⟩

/-! ### The hypotheses of the statements about a run -/

theorem witness_EndedRunStays :
    ({ fresh [.nop] with outcome := .cycleBudgetExceeded }).outcome ≠ .running := by decide

/-- With and without a tick left. -/
theorem witness_EveryRunEnds :
    (fresh [.nop]).outcome = .running ∧ (fresh [.nop]).prog ≠ [] ∧ (fresh [.nop]).stop = none ∧
      (fresh [.nop]).cycle ≤ 0 ∧ (fresh [.nop]).cycle ≤ 20 := by decide

/-- W empty and W holding an instruction, in the last tick of the budget. -/
theorem witness_CountersPerTick :
    (let s := { fresh [.nop] with cycle := 19 }
     s.outcome = .running ∧ s.cycle < s.maxCycles ∧ (∃ t, step s = .next t) ∧ s.latchW = .bubble) ∧
    (let s := { stopping with cycle := 19 }
     s.outcome = .running ∧ s.cycle < s.maxCycles ∧ (∃ t, step s = .next t) ∧ s.latchW ≠ .bubble) :=
  ⟨⟨rfl, by decide, ⟨_, rfl⟩, rfl⟩, ⟨rfl, by decide, ⟨_, rfl⟩, by decide⟩⟩

theorem witness_MulTakesTwoTicks :
    (let e : Slot := ⟨4000, .mul 1 2 3, 6, 7, 0, false⟩
     let d : Slot := ⟨4004, .nop, 0, 0, 0, false⟩
     let s := { fresh [.mul 1 2 3, .nop] with latchE := .slot e, latchD := .slot d, pc := 4008, cycle := 18 }
     s.outcome = .running ∧ s.prog ≠ [] ∧ s.stop = none ∧ s.cycle + 1 < s.maxCycles ∧ s.latchW = .bubble ∧
      s.latchM = .bubble ∧ s.latchE = .slot e ∧ e.instr = .mul 1 2 3 ∧ s.exState = .idle ∧
      s.latchD = .slot d) := by decide

theorem witness_BranchWaitsThreeTicks :
    (let d : Slot := ⟨4000, .bz 4, 0, 0, 0, false⟩
     let s := { fresh [.bz 4, .nop] with latchD := .slot d, pc := 4004, cycle := 16 }
     s.outcome = .running ∧ s.prog ≠ [] ∧ s.stop = none ∧ s.cycle + 3 < s.maxCycles ∧ s.latchW = .bubble ∧
      s.latchM = .bubble ∧ s.latchE = .bubble ∧ s.drain = false ∧ s.latchD = .slot d ∧
      isCondBranch d.instr = true ∧ s.brWait = 0) := by decide

/-- A transfer that Execute resolves taken to the last instruction. -/
theorem witness_TakenTransferClearsZ :
    (let e := slotOf (.bz 4) 0 0 0 false
     let s := { work .execute e with z := true }
     inE s e ∧ isTransfer e.instr = true ∧
      ∃ t m, exec e.instr s = .next t ∧ t.latchM = .slot m ∧ m.taken = true ∧ s.instrAddrOK m.buf = true) :=
  ⟨⟨rfl, rfl⟩, rfl, _, _, rfl, rfl, rfl, by decide⟩

theorem witness_AccessorsAfterRun :
    (fresh [.nop]).outcome = .running ∧
      ({ fresh [.nop] with outcome := .completedNormally .halt }).outcome ≠ .running := by decide

/-! ### States of the invariant -/

/-- Right after the launch. -/
def launchedHalt : State := fresh [.halt]

/-- A JUMP in M, taken, with a claimed MOVC behind it in E. -/
def takenInM : State :=
  { fresh [.jump 1 8, .movc 2 5, .nop, .halt] with
    x := (Vector.replicate 32 0).set 1 4000
    valid := (Vector.replicate 32 true).set 2 false
    pc := 4008
    latchF := .slot ⟨4004, .movc 2 5, 0, 0, 0, false⟩
    latchE := .slot ⟨4004, .movc 2 5, 0, 0, 0, false⟩
    latchM := .slot ⟨4000, .jump 1 8, 4000, 0, 4008, true⟩
    brStall := true
    cycle := 3 }

/-- A MOVC in W, and behind it in D an ADD that reads its register. -/
def writerInW : State :=
  { fresh [.movc 1 5, .add 2 1 1, .halt] with
    valid := (Vector.replicate 32 true).set 1 false
    pc := 4012
    latchF := .slot ⟨4008, .halt, 0, 0, 0, false⟩
    latchD := .slot ⟨4004, .add 2 1 1, 0, 0, 0, false⟩
    latchW := .slot ⟨4000, .movc 1 5, 0, 0, 5, false⟩
    fstate := .holdingPrefetch
    cycle := 4 }

/-- A LOAD in M has raised, with a claimed MOVC in E. -/
def abortedInM : State :=
  { fresh [.load 1 0 2, .movc 2 5, .halt] with
    z := false
    valid := ((Vector.replicate 32 true).set 1 false).set 2 false
    pc := 4012
    latchF := .slot ⟨4008, .halt, 0, 0, 0, false⟩
    latchD := .slot ⟨4008, .halt, 0, 0, 0, false⟩
    latchE := .slot ⟨4004, .movc 2 5, 0, 0, 0, false⟩
    latchM := .slot ⟨4000, .load 1 0 2, 0, 0, 2, false⟩
    cycle := 4
    outcome := .aborted (.dataOutOfRange 2 4000) }


theorem launchedHalt_inv : launchedHalt.Inv := by
  refine ⟨?_, ?_, ?_, ?_, ?_, ?_, ?_, ?_, ?_, ?_, ?_, ?_, ?_, ?_, ?_⟩
  · unfold State.ScoreboardExact
    decide
  · unfold State.MulInE
    decide
  · unfold State.BranchWaits
    decide
  · unfold State.PrefetchHeld
    decide
  · unfold State.StallWhileTaken
    decide
  · unfold State.DrainEmpties
    decide
  · refine ⟨by decide, ?_, ?_, ?_, ?_, ?_⟩ <;> exact FromProgram_bubble _
  · unfold State.MemoryOK
    decide
  · unfold State.AtRest
    decide
  · refine ⟨fun _ => rfl, ?_, ?_, ?_⟩ <;> intros <;> first | rfl | contradiction
  · unfold State.CountersOK
    decide
  · unfold State.AbortInM
    intro f h
    cases h
  · intro _
    unfold State.GoesOn
    decide
  · constructor <;> intros <;>
      simp_all [launchedHalt, fresh, State.launched]
  · unfold State.ProgramFits
    decide

theorem takenInM_inv : takenInM.Inv := by
  refine ⟨?_, ?_, ?_, ?_, ?_, ?_, ?_, ?_, ?_, ?_, ?_, ?_, ?_, ?_, ?_⟩
  · unfold State.ScoreboardExact
    decide
  · unfold State.MulInE
    decide
  · unfold State.BranchWaits
    decide
  · unfold State.PrefetchHeld
    decide
  · unfold State.StallWhileTaken
    decide
  · unfold State.DrainEmpties
    decide
  · refine ⟨by decide, ?_, ?_, ?_, ?_, ?_⟩ <;>
      first
        | exact FromProgram_bubble _
        | exact FromProgram_slot.2 (by decide)
  · unfold State.MemoryOK
    decide
  · unfold State.AtRest
    decide
  · refine ⟨fun _ => rfl, ?_, ?_, ?_⟩ <;> intros <;> first | rfl | contradiction
  · unfold State.CountersOK
    decide
  · unfold State.AbortInM
    intro f h
    cases h
  · intro _
    unfold State.GoesOn
    decide
  · constructor <;> intros <;>
      simp_all [takenInM, fresh, State.launched, Latch.follows, State.frontPc] <;> subst_vars <;>
      first
        | rfl
        | contradiction
  · unfold State.ProgramFits
    decide

theorem writerInW_inv : writerInW.Inv := by
  refine ⟨?_, ?_, ?_, ?_, ?_, ?_, ?_, ?_, ?_, ?_, ?_, ?_, ?_, ?_, ?_⟩
  · unfold State.ScoreboardExact
    decide
  · unfold State.MulInE
    decide
  · unfold State.BranchWaits
    decide
  · unfold State.PrefetchHeld
    decide
  · unfold State.StallWhileTaken
    decide
  · unfold State.DrainEmpties
    decide
  · refine ⟨by decide, ?_, ?_, ?_, ?_, ?_⟩ <;>
      first
        | exact FromProgram_bubble _
        | exact FromProgram_slot.2 (by decide)
  · unfold State.MemoryOK
    decide
  · unfold State.AtRest
    decide
  · refine ⟨fun _ => rfl, ?_, ?_, ?_⟩ <;> intros <;> first | rfl | contradiction
  · unfold State.CountersOK
    decide
  · unfold State.AbortInM
    intro f h
    cases h
  · intro _
    unfold State.GoesOn
    decide
  · constructor <;> intros <;>
      simp_all [writerInW, fresh, State.launched, Latch.follows, State.frontPc] <;> subst_vars <;>
      first
        | rfl
        | contradiction
  · unfold State.ProgramFits
    decide

theorem abortedInM_inv : abortedInM.Inv := by
  refine ⟨?_, ?_, ?_, ?_, ?_, ?_, ?_, ?_, ?_, ?_, ?_, ?_, ?_, ?_, ?_⟩
  · unfold State.ScoreboardExact
    decide
  · unfold State.MulInE
    decide
  · unfold State.BranchWaits
    decide
  · unfold State.PrefetchHeld
    decide
  · unfold State.StallWhileTaken
    decide
  · unfold State.DrainEmpties
    decide
  · refine ⟨by decide, ?_, ?_, ?_, ?_, ?_⟩ <;>
      first
        | exact FromProgram_bubble _
        | exact FromProgram_slot.2 (by decide)
  · unfold State.MemoryOK
    decide
  · unfold State.AtRest
    decide
  · refine ⟨fun _ => rfl, ?_, ?_, ?_⟩ <;> intros <;> first | rfl | contradiction
  · unfold State.CountersOK
    decide
  · unfold State.AbortInM
    intro f h
    cases h
    decide
  · intro _
    unfold State.GoesOn
    decide
  · constructor <;> intros <;>
      simp_all [abortedInM, fresh, State.launched, Latch.follows, State.frontPc] <;> subst_vars <;>
      first
        | rfl
        | contradiction
  · unfold State.ProgramFits
    decide

theorem witness_WrongPathDiscarded :
    takenInM.Inv ∧ takenInM.outcome = .running ∧ takenInM.prog ≠ [] ∧
      takenInM.cycle < takenInM.maxCycles ∧
      (let m : Slot := ⟨4000, .jump 1 8, 4000, 0, 4008, true⟩
       takenInM.latchM = .slot m ∧ m.taken = true ∧ takenInM.imemRead m.buf = some .nop) ∧
      takenInM.latchE.dest? = some 2 :=
  ⟨takenInM_inv, by decide, by decide, by decide, by decide, by decide⟩

theorem witness_WritebackSeenByDecode :
    writerInW.Inv ∧ writerInW.outcome = .running ∧ writerInW.prog ≠ [] ∧
      writerInW.cycle < writerInW.maxCycles ∧
      (let w : Slot := ⟨4000, .movc 1 5, 0, 0, 5, false⟩
       let d : Slot := ⟨4004, .add 2 1 1, 0, 0, 0, false⟩
       writerInW.latchW = .slot w ∧ writerInW.latchM = .bubble ∧ writerInW.latchE = .bubble ∧
        writerInW.latchD = .slot d ∧ destOf w.instr = some 1 ∧ isCondBranch d.instr = false ∧
        src1Of d.instr = some 1) :=
  ⟨writerInW_inv, by decide, by decide, by decide, by decide⟩

/-- A LOAD in M that will raise, with a claimed MOVC in E, and in W nothing or a MOVC to commit. -/
def faulting (writerInW : Bool) : State :=
  { fresh [.movc 3 7, .load 1 0 2, .movc 2 5, .halt] with
    valid := (((Vector.replicate 32 true).set 1 false).set 2 false).set 3 (!writerInW)
    pc := 4016
    latchF := .slot ⟨4012, .halt, 0, 0, 0, false⟩
    latchD := .slot ⟨4012, .halt, 0, 0, 0, false⟩
    latchE := .slot ⟨4008, .movc 2 5, 0, 0, 0, false⟩
    latchM := .slot ⟨4004, .load 1 0 2, 0, 0, 2, false⟩
    latchW := if writerInW then .slot ⟨4000, .movc 3 7, 0, 0, 7, false⟩ else .bubble
    cycle := 4 }

theorem faulting_inv (b : Bool) : (faulting b).Inv := by
  cases b <;> refine ⟨?_, ?_, ?_, ?_, ?_, ?_, ?_, ?_, ?_, ?_, ?_, ?_, ?_, ?_, ?_⟩
  case' false.refine_1 | true.refine_1 => unfold State.ScoreboardExact
  case' false.refine_2 | true.refine_2 => unfold State.MulInE
  case' false.refine_3 | true.refine_3 => unfold State.BranchWaits
  case' false.refine_4 | true.refine_4 => unfold State.PrefetchHeld
  case' false.refine_5 | true.refine_5 => unfold State.StallWhileTaken
  case' false.refine_6 | true.refine_6 => unfold State.DrainEmpties
  case false.refine_7 | true.refine_7 =>
    refine ⟨by decide, ?_, ?_, ?_, ?_, ?_⟩ <;>
      first
        | exact FromProgram_bubble _
        | exact FromProgram_slot.2 (by decide)
  case' false.refine_8 | true.refine_8 => unfold State.MemoryOK
  case' false.refine_9 | true.refine_9 => unfold State.AtRest
  case false.refine_10 | true.refine_10 =>
    refine ⟨fun _ => rfl, ?_, ?_, ?_⟩ <;> intros <;> first | rfl | contradiction
  case' false.refine_11 | true.refine_11 => unfold State.CountersOK
  case false.refine_12 | true.refine_12 =>
    intro f h
    cases h
  case' false.refine_13 | true.refine_13 => refine fun _ => ?_; unfold State.GoesOn
  case false.refine_14 | true.refine_14 =>
    constructor <;> intros <;>
      simp_all [faulting, fresh, State.launched, Latch.follows, State.frontPc] <;> subst_vars <;>
      first
        | rfl
        | contradiction
  case' false.refine_15 | true.refine_15 => unfold State.ProgramFits
  all_goals decide

/-- A writer of R3 in W, and W empty. -/
theorem witness_AbortKeepsClaims :
    ((faulting true).Inv ∧ (faulting true).outcome = .running ∧
      (∃ t, step (faulting true) = .next t ∧ t.outcome = .aborted (.dataOutOfRange 2 4004)) ∧
      (let w : Slot := ⟨4000, .movc 3 7, 0, 0, 7, false⟩
       let e : Slot := ⟨4008, .movc 2 5, 0, 0, 0, false⟩
       (faulting true).latchW = .slot w ∧ destOf w.instr = some 3 ∧ (faulting true).latchE = .slot e ∧
        destOf e.instr = some 2)) ∧
    ((faulting false).Inv ∧ (faulting false).outcome = .running ∧
      (∃ t, step (faulting false) = .next t ∧ t.outcome = .aborted (.dataOutOfRange 2 4004)) ∧
      (faulting false).latchW.dest? = none) :=
  ⟨⟨faulting_inv true, by decide, ⟨_, rfl, rfl⟩, by decide⟩, faulting_inv false, by decide, ⟨_, rfl, rfl⟩,
    by decide⟩

/-- R315: the MOVC in W has retired, and the claims of the LOAD and of the MOVC in E stay held. -/
theorem test_abort_keeps_claims :
    seen (step (faulting true)) (fun t => (t.x[3], t.valid[1], t.valid[2], t.valid[3], t.retired)) =
      some (7, false, false, true, 1) := by decide

theorem witness_DataMemoryStaysCanonical :
    writerInW.MemoryOK ∧ (∃ t, step writerInW = .next t) ∧
      ({ writerInW with dmem := [(0, 1), (396, 2)] }).MemoryOK := by
  refine ⟨writerInW_inv.memoryOK, ⟨_, rfl⟩, ?_⟩
  unfold State.MemoryOK
  decide

theorem witness_InvariantKept : takenInM.Inv ∧ ∃ t, step takenInM = .next t :=
  ⟨takenInM_inv, _, rfl⟩

theorem witness_ScoreboardIsExact :
    writerInW.Inv ∧ ∃ t, step writerInW = .next t ∧ ∀ f, t.outcome ≠ .aborted f :=
  ⟨writerInW_inv, _, rfl, by intro f h; cases h⟩

theorem witness_StepRefinesSequential :
    (takenInM.Inv ∧ ∃ t, step takenInM = .next t) ∧ abortedInM.Inv ∧ ∃ t, step abortedInM = .next t :=
  ⟨⟨takenInM_inv, _, rfl⟩, abortedInM_inv, _, rfl⟩

/-- A launch whose run completes, and one whose run aborts. -/
theorem witness_RunsAreSequential :
    (∃ s, launch { twoItems with program := some [.record ⟨.halt, 0, 0, 0, 0⟩] } = .next s ∧
      4000 + 4 * s.prog.length < 2 ^ 32 ∧
      seen (run .silent 20 s) (fun t => t.outcome) = some (.completedNormally .halt)) ∧
    (∃ s, launch { twoItems with program := some [.record ⟨.load, 1, 0, 0, 2⟩] } = .next s ∧
      4000 + 4 * s.prog.length < 2 ^ 32 ∧
      seen (run .silent 20 s) (fun t => t.outcome) = some (.aborted (.dataOutOfRange 2 4000))) :=
  ⟨⟨_, rfl, by decide, by rfl⟩, ⟨_, rfl, by decide, by rfl⟩⟩

/-- Right after the launch, and with a transfer in flight. -/
theorem witness_PipelineMakesProgress :
    (launchedHalt.Inv ∧ launchedHalt.outcome = .running ∧ launchedHalt.prog ≠ []) ∧
      takenInM.Inv ∧ takenInM.outcome = .running ∧ takenInM.prog ≠ [] :=
  ⟨⟨launchedHalt_inv, by decide, by decide⟩, takenInM_inv, by decide, by decide⟩

end Sys2Proof.Tests
end

section
/-!
PROOFS. The pipeline invariant: it holds after reset and after every launch, and every step keeps it
(spec/10_state.md R36, R41, R51 to R55, R66; spec/40_pipeline.md R220, R222, R224).
-/

namespace Sys2Proof.Machine

open Sys2Proof

variable {s t : State} {o : RunOutcome}

/-! ### The run status -/

theorem State.hasRaised_iff : s.hasRaised = true ↔ ∃ f, s.outcome = .aborted f := by
  cases h : s.outcome <;> simp [State.hasRaised, h]

theorem State.not_aborted (h : s.hasRaised = false) (f : Fault) : s.outcome ≠ .aborted f := by
  intro hf
  simp [State.hasRaised, hf] at h

theorem State.hasRaised_of_running (h : s.outcome = .running) : s.hasRaised = false := by
  simp [State.hasRaised, h]

/-- After the tick an abort stands, no stop leaves the run going, and a stop ends it with its cause. -/
theorem State.conclude_cases (s : State) :
    ((s.hasRaised = true ∨ s.stop = none) ∧ s.conclude = s) ∨
      ∃ c, s.hasRaised = false ∧ s.stop = some c ∧
        s.conclude = { s with outcome := .completedNormally c } := by
  cases hr : s.hasRaised <;> cases hs : s.stop <;> simp [State.conclude, hr, hs]

/-- The end of a tick changes the run status alone. -/
theorem State.conclude_eq (s : State) : s.conclude = { s with outcome := s.conclude.outcome } := by
  rcases s.conclude_cases with ⟨-, e⟩ | ⟨c, -, -, e⟩ <;> rw [e]

/-- A run status that names no cause agrees with a stop flag that is not set. -/
theorem State.statusAgrees_of_noStop (hs : s.stop = none) (hn : ∀ c, s.outcome ≠ .completedNormally c) :
    s.StatusAgrees :=
  ⟨fun _ => hs, fun c hc => absurd hc (hn c), fun _ => hs, fun _ => hs⟩

/-! ### Every step keeps the invariant -/

/-- What the invariant needs beside what the body of a tick keeps: a run status that is an abort where
the body raised and nowhere else, and that agrees with the stop flag. -/
theorem TickOK.inv (h : TickOK s t) (hs : s.Inv) (hc : s.cycle < s.maxCycles)
    (hab : ∀ f, o = .aborted f ↔ t.outcome = .aborted f)
    (hst : ({ t.endTick with outcome := o } : State).StatusAgrees) :
    ({ t.endTick with outcome := o } : State).Inv where
  scoreboard r := by
    have hr : ({ t.endTick with outcome := o } : State).hasRaised = t.hasRaised := by
      rw [Bool.eq_iff_iff, State.hasRaised_iff, State.hasRaised_iff]
      exact exists_congr hab
    have hscore := h.score
    unfold State.claimCount
    rw [hr]
    cases ht : t.hasRaised <;> rw [ht] at hscore
    · exact hscore r
    · show 0 + t.latchM.claims r + t.latchE.claims r = if t.isValid r then 0 else 1
      rw [Nat.zero_add]
      exact hscore r
  mulInE := h.mulInE
  branchWaits := h.branchWaits
  prefetchHeld := h.prefetchHeld
  stallWhileTaken := h.stall
  drainEmpties := h.drain
  fetchedInPlace := h.inPlace
  memoryOK := h.memoryOK
  atRest := ⟨rfl, rfl⟩
  statusAgrees := hst
  countersOK := by
    have hret := h.retired
    have hcyc := h.cycle
    have hle := hs.countersOK.1
    exact ⟨show t.retired ≤ t.cycle + 1 by omega, show t.cycle + 1 ≤ t.maxCycles by omega⟩
  abortInM f hf := h.abortInM f ((hab f).1 hf)
  goesOn hp := h.goesOn fun hn => hp (h.prog.1.trans hn)
  inOrder := inOrder_congr (b := t) rfl rfl rfl rfl rfl rfl rfl rfl h.inOrder
  programFits := by
    have hfit := hs.programFits
    unfold State.ProgramFits at hfit ⊢
    rw [← h.prog.1] at hfit
    exact hfit

/-- A tick of a running state keeps the invariant. -/
theorem State.Inv.tick (h : s.Inv) (ho : s.outcome = .running) (hc : s.cycle < s.maxCycles) :
    (afterTick s).conclude.Inv := by
  have hk := tickOK h ho
  rw [afterTick_body]
  rcases (bodyOfTick s).endTick.conclude_cases with ⟨hend, e⟩ | ⟨c, hr, hstop, e⟩ <;> rw [e]
  · have hstop : (bodyOfTick s).stop = none := hend.elim hk.stopRaised id
    refine hk.inv h hc (fun _ => Iff.rfl) (State.statusAgrees_of_noStop hstop fun c hx => ?_)
    have hx : (bodyOfTick s).outcome = .completedNormally c := hx
    rw [hk.outcome (by simp [State.hasRaised, hx]), ho] at hx
    cases hx
  · refine hk.inv h hc (fun f => ⟨nofun, fun hx => absurd hx (State.not_aborted hr f)⟩)
      ⟨nofun, ?_, nofun, nofun⟩
    intro c' hx
    cases hx
    exact hstop

/-- The end of the budget keeps the invariant: nothing but the run status changes. -/
theorem State.Inv.budgetExceeded (h : s.Inv) (ho : s.outcome = .running) :
    ({ s with outcome := .cycleBudgetExceeded } : State).Inv :=
  { h with
    scoreboard := fun r => by
      have hscore := h.scoreboard r
      rw [State.claimCount, State.hasRaised_of_running ho] at hscore
      exact hscore
    statusAgrees := State.statusAgrees_of_noStop (h.statusAgrees.1 ho) nofun
    abortInM := nofun
    inOrder := inOrder_congr (b := s) rfl rfl rfl rfl rfl rfl rfl rfl h.inOrder }

/-- Settles O56: nothing changes after the run, the end of the budget changes the run status alone, and a
tick keeps the invariant stage after stage. -/
theorem invariantKept : Obligations.InvariantKept := by
  intro s t h hstep
  rcases step_cases hstep with ⟨-, rfl⟩ | ⟨ho, -, -, rfl⟩ | ⟨ho, -, hc, rfl⟩
  · exact h
  · exact h.budgetExceeded ho
  · exact h.tick ho hc

/-! ### After reset and after a launch -/

/-- A launched state satisfies the invariant when the program fits and the data memory is in order. -/
theorem State.launched_inv {prog : List Instr} {x : Vector Word 32} {m : Memory} {n : Nat} {z : Bool}
    {budget : Nat} (hfit : Config.baseAddr + Config.iStride * prog.length < 2 ^ 32)
    (hm : m.wf = true ∧ m.inRange n = true ∧ Config.dumpWords ≤ n) :
    (State.launched prog x m n z budget).Inv where
  scoreboard r := by simp [State.launched, State.claimCount, State.isValid, State.hasRaised]
  mulInE := nofun
  branchWaits := ⟨Nat.zero_le _, fun h => absurd rfl h⟩
  prefetchHeld := nofun
  stallWhileTaken := ⟨rfl, rfl, rfl, rfl, rfl⟩
  drainEmpties := nofun
  fetchedInPlace := ⟨by simp [State.launched, Config.baseAddr], FromProgram_bubble _,
    FromProgram_bubble _, FromProgram_bubble _, FromProgram_bubble _, FromProgram_bubble _⟩
  memoryOK := hm
  atRest := ⟨rfl, rfl⟩
  statusAgrees := State.statusAgrees_of_noStop rfl nofun
  countersOK := ⟨Nat.le_refl 0, Nat.zero_le _⟩
  abortInM := nofun
  goesOn hp _ := by
    left
    rw [State.imemRead_isSome]
    have : 0 < prog.length := List.length_pos_iff.2 hp
    simpa [State.launched, State.frontPc, State.instrAddrOK, instrIndex, Config.baseAddr, Config.iStride]
  inOrder := by constructor <;> simp [State.launched]
  programFits := hfit

/-- Settles O10: State.reset is a launched state with no program and an empty data memory. -/
theorem invAtReset : Obligations.InvAtReset :=
  State.launched_inv (by decide) (by decide)

/-- Settles O11: the words of the launch input make a memory in order, and there are at least 100. -/
theorem invAtLaunch : Obligations.InvAtLaunch := by
  intro inp t h hfit
  obtain ⟨prog, -, rfl⟩ := launch_next h
  exact State.launched_inv hfit ⟨Memory.wf_ofWords _,
    Memory.inRange_ofWordsFrom _ _ 0 rfl (by omega), inp.enoughWords⟩

/-! ### The scoreboard -/

/-- Unless the run aborted, the claims in flight are the writers in E, M and W. -/
theorem State.countP_dest_eq_claimCount (h : s.hasRaised = false) (r : RegIdx) :
    ([s.latchE, s.latchM, s.latchW].countP fun l => decide (l.dest? = some r)) = s.claimCount r := by
  simp only [List.countP_cons, List.countP_nil, decide_eq_true_eq, State.claimCount, Latch.claims, h,
    Bool.false_eq_true, if_false]
  omega

/-- Settles O57: the scoreboard clause of the invariant, which the step keeps. -/
theorem scoreboardIsExact : Obligations.ScoreboardIsExact := by
  intro s t h hstep hab r
  have hr : t.hasRaised = false := by
    rw [← Bool.not_eq_true, State.hasRaised_iff]
    exact fun ⟨f, hf⟩ => hab f hf
  have hscore := (invariantKept s t h hstep).scoreboard r
  rw [State.countP_dest_eq_claimCount hr, hscore]
  show (t.isValid r = false ↔ _) ∧ (t.isValid r = true ↔ _)
  cases t.isValid r <;> simp

end Sys2Proof.Machine
end

section
/-!
PROOFS. What each piece of state is written by (spec/10_state.md R32, R35, R38, R40, R42, R43, R55, R150,
R184).
-/

namespace Sys2Proof.Machine

open Sys2Proof

variable {i : Instr} {s t : State}

/-- An instruction has one answer. -/
theorem exec_unique {u : State} (h : exec i s = .next t) (h' : exec i s = .next u) : t = u :=
  Host.Outcome.next.inj (h.symm.trans h')

/-! ### Registers -/

theorem State.commit_slot {rd : RegIdx} {w : Slot} (h : s.latchW = .slot w) :
    s.commit rd = ((s.writeReg rd w.buf).setValid rd true).retire w := by
  simp [State.commit, h]

/-- Writeback of an empty latch does nothing. -/
theorem writebackOf_bubble (i : Instr) (h : s.latchW = .bubble) : writebackOf i s = s := by
  cases i <;> simp [writebackOf, State.commit, State.retireOnly, State.retireHalt, h]

/-- An instruction that writes no register retires, and a HALT stops the run as well. -/
theorem writebackOf_of_no_dest (h : destOf i = none) (s : State) :
    i = .halt ∧ writebackOf i s = s.retireHalt ∨ writebackOf i s = s.retireOnly := by
  cases i <;> simp [destOf] at h <;> simp [writebackOf]

theorem State.retireOnly_frame (s : State) : s.retireOnly.x = s.x ∧ s.retireOnly.valid = s.valid := by
  unfold State.retireOnly
  split <;> simp

theorem State.retireHalt_x (s : State) : s.retireHalt.x = s.x := by
  unfold State.retireHalt
  split <;> simp

/-- An instruction that writes no register leaves them all in Writeback. -/
theorem writebackOf_x_of_no_dest (h : destOf i = none) : (writebackOf i s).x = s.x := by
  rcases writebackOf_of_no_dest h s with ⟨-, e⟩ | e <;> rw [e]
  · exact s.retireHalt_x
  · exact s.retireOnly_frame.1

/-- Registers are written in Writeback only. -/
theorem exec_x (h : exec i s = .next t) (hs : s.stage ≠ .writeback) : t.x = s.x := by
  rcases exec_cases h with ⟨-, rfl⟩ | ⟨-, rfl⟩ | ⟨-, rfl⟩ | ⟨-, rfl⟩ | ⟨hw, -⟩
  · exact (fetchInto_frame i s).1
  · exact (decodeOf_frame i s).1
  · exact (executeOf_frame i s).1
  · exact (memoryOf_frame i s).1
  · exact absurd hw hs

/-- Settles O38: no stage but Writeback touches a register, and there a writer commits to its rd. -/
theorem registersFrame : Obligations.RegistersFrame := by
  intro i s t h
  refine ⟨exec_x h, fun hW => ?_, fun hd => ?_, fun rd w hs hd hW => ?_⟩
  · by_cases hs : s.stage = .writeback
    · rw [exec_unique h (exec_in_writeback i hs), writebackOf_bubble i hW]
    · exact exec_x h hs
  · by_cases hs : s.stage = .writeback
    · rw [exec_unique h (exec_in_writeback i hs), writebackOf_x_of_no_dest hd]
    · exact exec_x h hs
  · have hread (q : RegIdx) : t.readReg q = if q = rd then w.buf else s.readReg q := by
      rw [exec_unique h (exec_in_writeback i hs), writebackOf_writer hd, State.commit_slot hW,
        ← State.readReg_writeReg]
      rfl
    exact ⟨(hread rd).trans (if_pos rfl), fun q hq => (hread q).trans (if_neg hq)⟩

/-! ### Validity bits -/

/-- Decode claims the destination, or leaves the bitmap. -/
theorem decodeOf_valid (i : Instr) (s : State) :
    (decodeOf i s).valid = s.valid ∨ (decodeOf i s).valid = (s.claim (destOf i)).valid := by
  unfold decodeOf State.waitThenIssue State.issueWhenReady
  repeat' split
  all_goals simp

/-- Memory gives back what E has claimed, for a transfer or a HALT, or leaves the bitmap. -/
theorem memoryOf_valid (i : Instr) (s : State) :
    (memoryOf i s).valid = s.valid ∨ (isTransfer i = true ∨ i = .halt) ∧
      (memoryOf i s).valid = (s.releaseClaim s.latchE.dest?).valid := by
  cases i <;>
    simp only [memoryOf, State.passOn, State.dataLoad, State.dataStore, State.transfer,
      State.drainInMemory]
  all_goals (repeat' split)
  all_goals simp [isTransfer]

theorem State.releaseClaim_valid_congr {r? : Option RegIdx} (h : s.valid = t.valid) :
    (s.releaseClaim r?).valid = (t.releaseClaim r?).valid := by
  cases r? <;> simp [State.releaseClaim, h]

/-- The flush of a HALT in Writeback gives back what M and E have claimed (R146, R153). -/
theorem State.retireHalt_valid {w : Slot} (h : s.latchW = .slot w) :
    s.retireHalt.valid = ((s.releaseClaim s.latchM.dest?).releaseClaim s.latchE.dest?).valid := by
  simp only [State.retireHalt, h, State.flushFront_valid, State.squashE_valid, State.squashM_latchE]
  exact State.releaseClaim_valid_congr (State.releaseClaim_valid_congr rfl)

/-- Writeback releases a writer's destination, a HALT what M and E have claimed; else the bitmap stays. -/
theorem writebackOf_valid (i : Instr) (s : State) :
    (writebackOf i s).valid = s.valid ∨
      (writebackOf i s).valid = (s.releaseClaim (destOf i)).valid ∨
      i = .halt ∧ (writebackOf i s).valid =
        ((s.releaseClaim s.latchM.dest?).releaseClaim s.latchE.dest?).valid := by
  cases hw : s.latchW with
  | bubble => exact .inl (by rw [writebackOf_bubble i hw])
  | slot w =>
    cases hd : destOf i with
    | some rd => exact .inr (.inl (by rw [writebackOf_writer hd, State.commit_slot hw]; rfl))
    | none =>
      rcases writebackOf_of_no_dest hd s with ⟨hi, e⟩ | e <;> rw [e]
      · exact .inr (.inr ⟨hi, State.retireHalt_valid hw⟩)
      · exact .inl s.retireOnly_frame.2

theorem State.changed_by_claim {r? : Option RegIdx} {q : RegIdx}
    (h : (s.claim r?).isValid q ≠ s.isValid q) : r? = some q ∧ (s.claim r?).isValid q = false := by
  rw [State.isValid_claim] at h ⊢
  split at h <;> simp_all

theorem State.changed_by_release {r? : Option RegIdx} {q : RegIdx}
    (h : (s.releaseClaim r?).isValid q ≠ s.isValid q) :
    r? = some q ∧ (s.releaseClaim r?).isValid q = true := by
  rw [State.isValid_releaseClaim] at h ⊢
  split at h <;> simp_all

/-- Settles O39: in each stage the bitmap is that before, or that after a claim, a release or a squash. -/
theorem validityFrame : Obligations.ValidityFrame := by
  intro i s t q h hne
  replace hne : t.isValid q ≠ s.isValid q := hne
  have same {u : State} (hu : t.valid = u.valid) : t.isValid q = u.isValid q := State.isValid_congr hu q
  show _ ∨ (_ ∧ _ ∧ t.isValid q = true) ∨ (_ ∧ _ ∧ _ ∧ t.isValid q = true) ∨
    (_ ∧ _ ∧ _ ∧ t.isValid q = true)
  rcases exec_cases h with ⟨-, rfl⟩ | ⟨hs, rfl⟩ | ⟨-, rfl⟩ | ⟨hs, rfl⟩ | ⟨hs, rfl⟩
  · exact absurd (same (fetchInto_frame i s).2.1) hne
  · rcases decodeOf_valid i s with hv | hv
    · exact absurd (same hv) hne
    · rw [same hv] at hne
      obtain ⟨hd, hf⟩ := State.changed_by_claim hne
      exact .inl ⟨hs, hd, (same hv).trans hf⟩
  · exact absurd (same (executeOf_frame i s).2.1) hne
  · rcases memoryOf_valid i s with hv | ⟨hi, hv⟩
    · exact absurd (same hv) hne
    · rw [same hv] at hne ⊢
      obtain ⟨hd, hf⟩ := State.changed_by_release hne
      exact .inr (.inr (.inl ⟨hs, hi, hd, hf⟩))
  · rcases writebackOf_valid i s with hv | hv | ⟨hi, hv⟩
    · exact absurd (same hv) hne
    · rw [same hv] at hne ⊢
      obtain ⟨hd, hf⟩ := State.changed_by_release hne
      exact .inr (.inl ⟨hs, hd, hf⟩)
    · rw [same hv] at hne ⊢
      refine .inr (.inr (.inr ⟨hs, hi, ?_⟩))
      by_cases hE : s.latchE.dest? = some q
      · exact ⟨.inr hE, by rw [State.isValid_releaseClaim, if_pos hE]⟩
      · rw [State.isValid_releaseClaim, if_neg hE] at hne ⊢
        obtain ⟨hd, hf⟩ := State.changed_by_release hne
        exact ⟨.inl hd, hf⟩

/-! ### The zero flag -/

section
variable {e : Slot} (hE : s.latchE = .slot e)
include hE

theorem State.compute_z (f : Slot → Word) : (s.compute f).z = decide (f e = 0) := by
  simp [State.compute, hE]

/-- A MUL sets Z in its first cycle (R170), and leaves it in its second (R171). -/
theorem State.computeTwice_z (f : Slot → Word) :
    (s.computeTwice f).z = if s.exState = .idle then decide (f e = 0) else s.z := by
  cases hx : s.exState <;> simp [State.computeTwice, hE, hx]

theorem State.resolve_z (cond : State → Bool) (target : Slot → Word) :
    (s.resolve cond target).z = if cond s then decide (target e = 0) else s.z := by
  cases hc : cond s <;> simp [State.resolve, hE, hc]

theorem State.beginDrain_z : s.beginDrain.z = s.z := by
  simp [State.beginDrain, hE]

theorem State.executeNothing_z : s.executeNothing.z = s.z := by
  simp [State.executeNothing, hE]

end

/-- Execute of an empty latch does nothing. -/
theorem executeOf_bubble (i : Instr) (h : s.latchE = .bubble) : executeOf i s = s := by
  cases i <;>
    simp [executeOf, State.compute, State.computeTwice, State.resolve, State.beginDrain,
      State.executeNothing, h]

/-- Z is written in Execute only. -/
theorem exec_z (h : exec i s = .next t) (hs : s.stage ≠ .execute) : t.z = s.z := by
  rcases exec_cases h with ⟨-, rfl⟩ | ⟨-, rfl⟩ | ⟨hx, -⟩ | ⟨-, rfl⟩ | ⟨-, rfl⟩
  · exact (fetchInto_frame i s).2.2.1
  · exact (decodeOf_frame i s).2.1
  · exact absurd hx hs
  · exact (memoryOf_frame i s).2
  · exact (writebackOf_frame i s).1

/-- Settles O40: only Execute writes Z, and there each instruction by its own computation. -/
theorem zeroFlagRule : Obligations.ZeroFlagRule := by
  intro i s t h
  refine ⟨exec_z h, fun hE => ?_, fun e hs hE => ?_⟩
  · by_cases hs : s.stage = .execute
    · rw [exec_unique h (exec_in_execute i hs), executeOf_bubble i hE]
    · exact exec_z h hs
  · rw [exec_unique h (exec_in_execute i hs)]
    cases i with
    | movc rd imm => simp [executeOf, State.compute_z hE]
    | load rd rs1 imm => exact State.compute_z hE _
    | store rs1 rs2 imm => exact State.compute_z hE _
    | add rd rs1 rs2 => exact State.compute_z hE _
    | sub rd rs1 rs2 => simp [executeOf, State.compute_z hE, BitVec.sub_eq_add_neg]
    | mul rd rs1 rs2 => exact State.computeTwice_z hE _
    | and rd rs1 rs2 => exact State.compute_z hE _
    | or rd rs1 rs2 => exact State.compute_z hE _
    | xor rd rs1 rs2 => exact State.compute_z hE _
    | bz imm => exact State.resolve_z hE _ _
    | bnz imm => cases hz : s.z <;> simp [executeOf, State.resolve_z hE, hz, transferTarget]
    | jump rs1 imm => exact State.resolve_z hE _ _
    | halt => exact State.beginDrain_z hE
    | nop => exact State.executeNothing_z hE

/-! ### The fetch pc -/

theorem State.dataLoad_frame (s : State) : s.dataLoad.pc = s.pc ∧ s.dataLoad.dmem = s.dmem := by
  unfold State.dataLoad State.passOn
  (repeat' split) <;> simp

theorem State.dataStore_pc (s : State) : s.dataStore.pc = s.pc := by
  unfold State.dataStore State.passOn
  (repeat' split) <;> simp

theorem State.drainInMemory_frame (s : State) :
    s.drainInMemory.pc = s.pc ∧ s.drainInMemory.dmem = s.dmem := by
  unfold State.drainInMemory State.passOn
  split <;> simp

/-- A redirect needs a transfer marked taken and goes to the target in its buffer (R165). -/
theorem State.transfer_pc (s : State) :
    s.transfer.pc = s.pc ∨ ∃ m, s.latchM = .slot m ∧ m.taken = true ∧ s.transfer.pc = m.buf := by
  cases hm : s.latchM with
  | bubble => simp [State.transfer, State.passOn, hm]
  | slot m =>
    cases ht : m.taken <;> cases ha : s.instrAddrOK m.buf <;>
      simp [State.transfer, State.passOn, hm, ht, ha]

/-- In Memory only a transfer marked taken changes pc. -/
theorem memoryOf_pc (i : Instr) (s : State) :
    (memoryOf i s).pc = s.pc ∨
      isTransfer i = true ∧ ∃ m, s.latchM = .slot m ∧ m.taken = true ∧ (memoryOf i s).pc = m.buf := by
  cases i with
  | load rd rs1 imm => exact .inl s.dataLoad_frame.1
  | store rs1 rs2 imm => exact .inl s.dataStore_pc
  | bz imm | bnz imm | jump rs1 imm => exact s.transfer_pc.imp_right fun h => ⟨rfl, h⟩
  | halt => exact .inl s.drainInMemory_frame.1
  | _ => exact .inl rfl

/-- Settles O41: Fetch advances pc, a taken transfer redirects it in Memory, the other stages leave it. -/
theorem programCounterRule : Obligations.ProgramCounterRule := by
  intro i s t h
  rcases exec_cases h with ⟨hs, rfl⟩ | ⟨hs, rfl⟩ | ⟨hs, rfl⟩ | ⟨hs, rfl⟩ | ⟨hs, rfl⟩ <;> simp only [hs]
  · simpa using (fetchInto_frame i s).2.2.2.1
  · simpa using (decodeOf_frame i s).2.2.1
  · simpa using (executeOf_frame i s).2.2.1
  · simpa [or_iff_not_imp_left] using memoryOf_pc i s
  · simpa using (writebackOf_frame i s).2.1

/-! ### Data memory -/

/-- Data memory is written in Memory only. -/
theorem exec_dmem (h : exec i s = .next t) (hs : s.stage ≠ .memory) : t.dmem = s.dmem := by
  rcases exec_cases h with ⟨-, rfl⟩ | ⟨-, rfl⟩ | ⟨-, rfl⟩ | ⟨hm, -⟩ | ⟨-, rfl⟩
  · exact (fetchInto_frame i s).2.2.2.2
  · exact (decodeOf_frame i s).2.2.2
  · exact (executeOf_frame i s).2.2.2
  · exact absurd hm hs
  · exact (writebackOf_frame i s).2.2

theorem State.transfer_dmem (s : State) : s.transfer.dmem = s.dmem := by
  unfold State.transfer State.passOn
  (repeat' split) <;> simp

/-- Only a STORE writes data memory in Memory. -/
theorem memoryOf_dmem_of_not_store (s : State) (hi : ∀ rs1 rs2 imm, i ≠ .store rs1 rs2 imm) :
    (memoryOf i s).dmem = s.dmem := by
  cases i with
  | store rs1 rs2 imm => exact absurd rfl (hi rs1 rs2 imm)
  | load rd rs1 imm => exact s.dataLoad_frame.2
  | bz imm | bnz imm | jump rs1 imm => exact s.transfer_dmem
  | halt => exact s.drainInMemory_frame.2
  | _ => rfl

/-- With nothing in M nothing is written. -/
theorem memoryOf_dmem_of_bubble (i : Instr) (h : s.latchM = .bubble) : (memoryOf i s).dmem = s.dmem := by
  cases i <;>
    simp [memoryOf, State.passOn, State.dataLoad, State.dataStore, State.transfer, State.drainInMemory, h]

/-- A STORE writes the word at the address in its buffer, if the address passes (R163). -/
theorem State.dataStore_dmem {m : Slot} (h : s.latchM = .slot m) :
    s.dataStore.dmem = if s.dataAddrOK m.buf then s.dmem.write m.buf.toNat m.v1 else s.dmem := by
  cases ha : s.dataAddrOK m.buf <;> simp [State.dataStore, h, ha]

/-- Settles O42: the data memory of every other case is the one before, and a STORE that passes writes one
word of it. -/
theorem dataMemoryFrame : Obligations.DataMemoryFrame := by
  intro i s t h
  have frame (hd : s.stage = .memory → (memoryOf i s).dmem = s.dmem) (a : Nat) :
      t.dmem.read a = s.dmem.read a := by
    by_cases hs : s.stage = .memory
    · rw [exec_unique h (exec_in_memory i hs), hd hs]
    · rw [exec_dmem h hs]
  refine ⟨fun hi => frame fun _ => memoryOf_dmem_of_not_store s hi, fun hs => frame fun hm => absurd hm hs,
    fun hM => frame fun _ => memoryOf_dmem_of_bubble i hM, ?_⟩
  rintro rs1 rs2 imm m rfl hs hM hwf
  have ht : t.dmem = if s.dataAddrOK m.buf then s.dmem.write m.buf.toNat m.v1 else s.dmem := by
    rw [exec_unique h (exec_in_memory _ hs)]
    exact State.dataStore_dmem hM
  constructor <;> intro ha
  · simp [ht, ha]
  · have hread (a : Nat) : t.dmem.read a = if a = m.buf.toNat then m.v1 else s.dmem.read a := by
      rw [ht, if_pos ha]
      exact Memory.read_write s.dmem hwf
    exact ⟨(hread _).trans (if_pos rfl), fun a hne => (hread a).trans (if_neg hne)⟩

/-! ### What no step rewrites -/

/-- The sequence, the size of data memory and the budget are as they were, and a drain stall that was set
is set still. -/
structure KeepsLaunch (s t : State) : Prop where
  prog : t.prog = s.prog
  dmemWords : t.dmemWords = s.dmemWords
  maxCycles : t.maxCycles = s.maxCycles
  drain : s.drain = true → t.drain = true

theorem KeepsLaunch.trans {u : State} (h : KeepsLaunch s t) (h' : KeepsLaunch t u) : KeepsLaunch s u :=
  ⟨h'.prog.trans h.prog, h'.dmemWords.trans h.dmemWords, h'.maxCycles.trans h.maxCycles,
    fun hd => h'.drain (h.drain hd)⟩

theorem keepsLaunch_writeback (s : State) : KeepsLaunch s (afterWriteback s) := by
  obtain ⟨hp, hn, -, -, -, -, -, hm, -⟩ := afterWriteback_frame s
  refine ⟨hp, hn, hm, fun hd => ?_⟩
  rcases afterWriteback_cases s with ⟨-, e⟩ | ⟨w, -, -, e⟩ | ⟨w, rd, -, -, e⟩ | ⟨w, -, -, -, e⟩ <;>
    simp [e, hd]

theorem keepsLaunch_memory (s : State) : KeepsLaunch s (afterMemory s) := by
  obtain ⟨hp, hn, -, -, -, -, -, hm, -⟩ := afterMemory_frame s
  refine ⟨hp, hn, hm, fun hd => ?_⟩
  rcases afterMemory_cases s with ⟨-, e⟩ | ⟨m, -, -, -, -, e⟩ | ⟨m, rd, rs1, imm, -, -, -, e⟩ |
    ⟨m, rs1, rs2, imm, -, -, -, e⟩ | ⟨m, -, -, -, -, e⟩ | ⟨m, -, -, e⟩ | ⟨m, -, -, -, e⟩ |
    ⟨m, -, -, -, -, e⟩ <;> simp [e, hd]

theorem keepsLaunch_execute (s : State) : KeepsLaunch s (afterExecute s) := by
  obtain ⟨hp, hn, -, -, -, -, -, -, -, -, -, hm⟩ := afterExecute_frame s
  refine ⟨hp, hn, hm, fun hd => ?_⟩
  rcases afterExecute_cases s with ⟨-, e⟩ | ⟨c, v, -, -, e⟩ | ⟨c, -, -, -, e⟩ | ⟨c, -, -, -, e⟩ |
    ⟨c, t, -, -, -, e⟩ | ⟨c, -, -, -, e⟩ | ⟨c, -, -, e⟩ | ⟨c, -, -, e⟩ <;> simp [e, hd]

theorem keepsLaunch_decode (s : State) : KeepsLaunch s (afterDecode s) := by
  obtain ⟨hp, hn, -, -, -, -, -, -, -, -, -, -, -, hd, -, -, -, -, hm⟩ := afterDecode_frame s
  exact ⟨hp, hn, hm, hd.trans⟩

theorem keepsLaunch_fetch (s : State) : KeepsLaunch s (afterFetch s) := by
  obtain ⟨hp, hn, -, -, -, -, -, -, -, -, -, -, hd, -, -, -, -, -, hm⟩ := afterFetch_frame s
  exact ⟨hp, hn, hm, hd.trans⟩

theorem keepsLaunch_tick (s : State) : KeepsLaunch s (afterTick s) := by
  have hbegin : KeepsLaunch s s.beginTick := ⟨rfl, rfl, rfl, id⟩
  have hback : KeepsLaunch s (afterMemory (afterWriteback s.beginTick)) :=
    hbegin.trans ((keepsLaunch_writeback _).trans (keepsLaunch_memory _))
  have hfront (u : State) : KeepsLaunch u (afterFront u) :=
    (keepsLaunch_execute u).trans ((keepsLaunch_decode _).trans (keepsLaunch_fetch _))
  have hend (u : State) : KeepsLaunch u u.endTick := ⟨rfl, rfl, rfl, id⟩
  unfold afterTick
  dsimp only
  split
  · exact hback.trans (hend _)
  · exact (hback.trans (hfront _)).trans (hend _)

/-- Settles O43: each stage keeps what the launch set and a drain stall, and the rest of a step changes the
run status alone. -/
theorem nothingRewritesTheProgram : Obligations.NothingRewritesTheProgram := by
  intro s t h
  have hk : KeepsLaunch s t := by
    rcases step_cases h with ⟨-, rfl⟩ | ⟨-, -, -, rfl⟩ | ⟨-, -, -, rfl⟩
    · exact ⟨rfl, rfl, rfl, id⟩
    · exact ⟨rfl, rfl, rfl, id⟩
    · rw [State.conclude_eq]
      exact (keepsLaunch_tick s).trans ⟨rfl, rfl, rfl, id⟩
  exact ⟨hk.prog, hk.dmemWords, hk.maxCycles, hk.drain⟩

end Sys2Proof.Machine
end

section
/-!
PROOFS. The state after reset and after a launch, the post-run accessors, and the value Decode sees in the
tick of a commit (spec/10_state.md R33, R64, R66, R67, R141; spec/70_reset_and_hazards.md R340).
-/

namespace Sys2Proof.Machine

open Sys2Proof

variable {s : State}

/-! ### Reset, launch and the accessors -/

/-- The launch of a sequence in order answers the launched state of its instructions (R66). -/
theorem launch_ok {inp : LaunchInput} {items : List ProgramItem} {prog : List Instr}
    (hi : inp.program = some items) (hne : items ≠ []) (hp : loadProgram 0 items = .ok prog) :
    launch inp = .next (State.launched prog inp.rInit (Memory.ofWords inp.dmemInit)
      inp.dmemInit.length inp.zInit inp.maxCycles) := by
  cases items with
  | nil => exact absurd rfl hne
  | cons item rest => simp only [launch, hi, hp]

theorem State.launched_valid {prog : List Instr} {x : Vector Word 32} {m : Memory} {n : Nat} {z : Bool}
    {budget : Nat} (r : RegIdx) : (State.launched prog x m n z budget).valid[r] = true := by
  simp [State.launched]

theorem State.launched_pc {prog : List Instr} {x : Vector Word 32} {m : Memory} {n : Nat} {z : Bool}
    {budget : Nat} : (State.launched prog x m n z budget).pc.toNat = 4000 := by
  simp [State.launched, Config.baseAddr]

/-- Settles O8: the launched state of the loaded sequence, field by field. -/
theorem launchedState : Obligations.LaunchedState := by
  intro inp items hi hne hok
  obtain ⟨prog, hp, hlen, hitem⟩ := loadProgram_ok items 0 hok
  simp only [Nat.zero_add] at hitem
  have hword (k : Nat) (v : Word) (hv : inp.dmemInit[k]? = some v) :
      (Memory.ofWords inp.dmemInit).read (4 * k) = v := by
    rw [← Nat.zero_add (4 * k)]
    exact Memory.read_ofWordsFrom inp.dmemInit 0 k v hv
  exact ⟨_, launch_ok hi hne hp, ⟨hlen, hitem⟩, rfl, State.launched_valid, rfl,
    State.launched_pc, ⟨rfl, inp.enoughWords⟩, hword,
    ⟨rfl, rfl, rfl, rfl, rfl⟩, rfl, rfl, rfl, rfl, rfl, rfl, rfl, rfl, rfl⟩

/-- Settles O9: the launched state of no program, with the model's launch inputs. -/
theorem resetState : Obligations.ResetState :=
  ⟨fun r => ⟨by simp [State.reset, State.launched], State.launched_valid r⟩,
    ⟨rfl, State.launched_pc, rfl⟩, ⟨rfl, rfl, fun _ => rfl⟩, ⟨rfl, rfl, rfl, rfl, rfl⟩,
    ⟨rfl, rfl, rfl, rfl, rfl⟩, ⟨rfl, rfl, rfl, rfl⟩⟩

theorem State.isRunning_iff : s.isRunning = true ↔ s.outcome = .running := by
  simp [State.isRunning]

/-- Settles O54: nothing while the run goes on; after, the registers, the bitmap and the 100 words. -/
theorem accessorsAfterRun : Obligations.AccessorsAfterRun := by
  intro s
  constructor
  · intro ho
    have hr := State.isRunning_iff.2 ho
    exact ⟨if_pos hr, if_pos hr⟩
  · intro ho
    have hr := mt State.isRunning_iff.1 ho
    refine ⟨if_neg hr, _, if_neg hr, by simp [Config.dumpWords], fun k hk => ?_⟩
    simp [Config.dumpWords, List.getElem?_range hk]

/-! ### A commit and an issue in the same tick -/

theorem afterMemory_empty (h : s.latchM = .bubble) : afterMemory s = s.moveToW .bubble := by
  simp [afterMemory, h, State.passOn]

theorem afterExecute_empty (h : s.latchE = .bubble) : afterExecute s = s := by
  simp [afterExecute, h]

/-- With W retired and M and E empty no register is claimed. -/
theorem State.ScoreME.isValid (h : s.ScoreME) (hM : s.latchM = .bubble) (hE : s.latchE = .bubble)
    (r : RegIdx) : s.isValid r = true := by
  simpa [hM, hE] using h r

/-- With no register claimed every instruction is ready. -/
theorem State.ready_of_isValid (h : ∀ r, s.isValid r = true) (rs1 rs2 rd : Option RegIdx) :
    s.ready rs1 rs2 rd = true := by
  have hop (r? : Option RegIdx) : s.operandValid r? = true := by
    cases r? with
    | none => rfl
    | some r => exact h r
  simp [State.ready, hop]

/-- With the stages past Decode empty and no register claimed, what is in D issues with the registers as
they stand (R183, R185). -/
theorem afterDecode_issues {d : Slot} (hb : (s.drain || s.mulBusy) = false) (hD : s.latchD = .slot d)
    (hc : isCondBranch d.instr = false) (hv : ∀ r, s.isValid r = true) :
    (afterDecode s).latchE = .slot (s.readOperands (src1Of d.instr) (src2Of d.instr) d) := by
  have hready := State.ready_of_isValid hv (src1Of d.instr) (src2Of d.instr) (destOf d.instr)
  rcases afterDecode_cases s with ⟨h, -⟩ | ⟨d', -, hD', -, hr, -⟩ | ⟨d', -, hD', hc', -, -⟩ |
    ⟨d', -, hD', hc', -, -⟩ | ⟨d', -, hD', -, -, e⟩
  · simp [hb, hD] at h
  all_goals
    obtain rfl : d = d' := by simpa [hD] using hD'
  · simp [hready] at hr
  · simp [hc] at hc'
  · simp [hc] at hc'
  · rw [e]

/-- Writeback of a writer commits its buffer (R150). -/
theorem afterWriteback_commits {w : Slot} {r : RegIdx} (hW : s.latchW = .slot w)
    (hd : destOf w.instr = some r) :
    afterWriteback s = (((s.atStage .writeback).writeReg r w.buf).setValid r true).retire w := by
  simp only [afterWriteback, hW]
  rw [writebackOf_writer hd, State.commit_slot (s := s.atStage .writeback) hW]

/-- When Writeback leaves M and E empty, the rest of the tick is Decode and Fetch: E takes what Decode
issues, and the registers stay as Writeback left them. -/
theorem afterTick_of_empty (hM : (afterWriteback s.beginTick).latchM = .bubble)
    (hE : (afterWriteback s.beginTick).latchE = .bubble)
    (hr : (afterWriteback s.beginTick).hasRaised = false) :
    (afterTick s).conclude.latchE =
        (afterDecode ((afterWriteback s.beginTick).moveToW .bubble)).latchE ∧
      (afterTick s).conclude.x = (afterWriteback s.beginTick).x := by
  rw [State.conclude_eq, afterTick_body]
  unfold bodyOfTick
  generalize afterWriteback s.beginTick = s₁ at *
  have hr' : (s₁.moveToW .bubble).hasRaised = false := hr
  have hE' : afterExecute (s₁.moveToW .bubble) = s₁.moveToW .bubble := afterExecute_empty hE
  obtain ⟨-, -, -, hxD, -⟩ := afterDecode_frame (s₁.moveToW .bubble)
  obtain ⟨-, -, -, hxF, -, -, -, -, -, -, -, hEF, -⟩ :=
    afterFetch_frame (afterDecode (s₁.moveToW .bubble))
  simp [afterMemory_empty hM, hr', afterFront, hE', hEF, hxF, hxD]

/-- Settles O51: Writeback comes first in the tick, so that Decode finds the register Valid and reads the
value just committed. -/
theorem writebackSeenByDecode : Obligations.WritebackSeenByDecode := by
  intro s w d r h ho hp hc hW hM hE hD hdest hbr hsrc
  have hdrain : s.drain = false := by
    by_contra hx
    simpa [hD] using (h.drainEmpties (by simpa using hx)).2.1
  have hscore : (afterWriteback s.beginTick).ScoreME :=
    score_writeback (fun _ _ _ => ⟨hM, hE⟩) fun q => by
      have hclaims := h.scoreboard q
      rw [State.claimCount, State.hasRaised_of_running ho] at hclaims
      exact hclaims
  have htick := afterTick_of_empty (s := s)
  rw [afterWriteback_commits (s := s.beginTick) hW hdest] at hscore htick
  generalize hs₁ : (((s.beginTick.atStage .writeback).writeReg r w.buf).setValid r true).retire w = s₁
    at hscore htick
  have hM₁ : s₁.latchM = .bubble := by simp [← hs₁, hM]
  have hE₁ : s₁.latchE = .bubble := by simp [← hs₁, hE]
  have hx₁ : s₁.x[r] = w.buf := by simp [← hs₁]
  obtain ⟨htE, htx⟩ := htick hM₁ hE₁ (by simp [← hs₁, State.hasRaised, ho])
  have hissue := afterDecode_issues (s := s₁.moveToW .bubble) (d := d) (by simp [← hs₁, hdrain])
    (by simp [← hs₁, hD]) hbr (hscore.isValid hM₁ hE₁)
  have hv₁ : (s₁.moveToW .bubble).operandValue (src1Of d.instr) d.v1 = w.buf := by
    rw [hsrc]
    exact hx₁
  exact ⟨_, _, step_tick ho hp hc, htE.trans hissue, rfl, hv₁, by rw [htx]; exact hx₁⟩

end Sys2Proof.Machine
end

section
/-!
PROOFS. Data memory and the instruction sequence: what a write leaves readable, which addresses pass, and
that every step keeps the canonical form (spec/20_memory.md R80, R82, R83, R85, R99).
-/

namespace Sys2Proof.Machine

open Sys2Proof

variable {s t : State} {m : Slot}

/-! ### Reading after a write -/

/-- A write to a canonical data memory changes the word at its address and no other (R83). -/
theorem State.memWrite_read (h : s.dmem.wf = true) (a v : Word) (k : Nat) :
    (s.memWrite a v).dmem.read k = if k = a.toNat then v else s.dmem.read k :=
  Memory.read_write s.dmem h

/-- Settles O12: a write to a canonical memory replaces one word, and `memWrite` touches only the memory. -/
theorem dataMemoryReadsWhatWasWritten : Obligations.DataMemoryReadsWhatWasWritten := by
  intro s a v hwf _
  have hother (k : Nat) (hk : k ≠ a.toNat) : (s.memWrite a v).dmem.read k = s.dmem.read k :=
    (State.memWrite_read hwf a v k).trans (if_neg hk)
  exact ⟨(State.memWrite_read hwf a v a.toNat).trans (if_pos rfl),
    fun b hb => hother b.toNat (mt BitVec.eq_of_toNat_eq hb), hother, rfl, Memory.wf_write hwf⟩

/-! ### The canonical form -/

/-- The form of the data memory depends on the memory and its size alone. -/
theorem State.MemoryOK.congr (h : s.MemoryOK) (hd : t.dmem = s.dmem) (hn : t.dmemWords = s.dmemWords) :
    t.MemoryOK := by
  unfold State.MemoryOK
  rw [hd, hn]
  exact h

theorem memoryOK_writeback (h : s.MemoryOK) : (afterWriteback s).MemoryOK := by
  obtain ⟨-, hn, hd, -⟩ := afterWriteback_frame s
  exact h.congr hd hn

/-- The stages after Memory touch neither the data memory nor its size. -/
theorem memoryOK_front (h : s.MemoryOK) : (afterFront s).MemoryOK := by
  obtain ⟨-, hnE, hdE, -⟩ := afterExecute_frame s
  obtain ⟨-, hnD, hdD, -⟩ := afterDecode_frame (afterExecute s)
  obtain ⟨-, hnF, hdF, -⟩ := afterFetch_frame (afterDecode (afterExecute s))
  exact ((h.congr hdE hnE).congr hdD hnD).congr hdF hnF

/-- A tick keeps the form: only Memory writes, and only at an address that passes (R163). -/
theorem memoryOK_tick (h : s.MemoryOK) : (afterTick s).MemoryOK := by
  have hback : (afterMemory (afterWriteback s.beginTick)).MemoryOK :=
    memoryOK_memory (memoryOK_writeback (s := s.beginTick) h)
  rw [afterTick_body]
  unfold bodyOfTick
  dsimp only
  split
  · exact hback
  · exact memoryOK_front hback

/-- Settles O55: a step is a tick, or changes at most the run status. -/
theorem dataMemoryStaysCanonical : Obligations.DataMemoryStaysCanonical := by
  intro s t h hstep
  rcases step_cases hstep with ⟨-, rfl⟩ | ⟨-, -, -, rfl⟩ | ⟨-, -, -, rfl⟩
  · exact h
  · exact h
  · rw [State.conclude_eq]
    exact memoryOK_tick h

/-! ### Data addresses -/

/-- A LOAD whose address fails raises (R162). -/
theorem State.dataLoad_raises (hM : s.latchM = .slot m) (ha : s.dataAddrOK m.buf = false) :
    s.dataLoad = s.raise (.dataOutOfRange m.buf m.pc) := by
  simp [State.dataLoad, hM, ha]

/-- A STORE whose address fails raises (R163). -/
theorem State.dataStore_raises (hM : s.latchM = .slot m) (ha : s.dataAddrOK m.buf = false) :
    s.dataStore = s.raise (.dataOutOfRange m.buf m.pc) := by
  simp [State.dataStore, hM, ha]

/-- Settles O13: the test in numbers, and what LOAD and STORE do in Memory where it fails. -/
theorem dataAddressRule : Obligations.DataAddressRule := by
  intro s a
  refine ⟨dataAddrOK_iff a, ?_⟩
  rintro m hs hM rfl ha
  constructor <;> intros <;> rw [exec_in_memory _ hs]
  · exact congrArg _ (State.dataLoad_raises hM ha)
  · exact congrArg _ (State.dataStore_raises hM ha)

/-! ### Instruction addresses -/

theorem instrAddrOK_iff (a : Word) :
    s.instrAddrOK a = true ↔
      4000 ≤ a.toNat ∧ (a.toNat - 4000) % 4 = 0 ∧ (a.toNat - 4000) / 4 < s.prog.length := by
  simp only [State.instrAddrOK, Bool.and_eq_true, decide_eq_true_eq, and_assoc]
  exact Iff.rfl

/-- A taken transfer whose target fails raises (R165). -/
theorem State.transfer_raises (hM : s.latchM = .slot m) (ht : m.taken = true)
    (ha : s.instrAddrOK m.buf = false) : s.transfer = s.raise (.instrOutOfRange m.buf m.pc) := by
  simp [State.transfer, hM, ht, ha]

/-- Where there is no instruction at `pc` Fetch reads nothing: it empties F, or leaves all as it is (R204). -/
theorem afterFetch_of_none (hf : s.fstate = .normal) (hi : s.imemRead s.pc = none) :
    afterFetch s = s ∨ afterFetch s = { s with latchF := .bubble } := by
  rcases afterFetch_cases s with e | ⟨-, -, hf', -⟩ | ⟨i, -, -, -, hi', -⟩ | ⟨i, -, -, -, hi', -⟩ |
    ⟨-, -, -, -, -, -, e⟩
  · exact .inl e
  · simp [hf] at hf'
  · simp [hi] at hi'
  · simp [hi] at hi'
  · exact .inr e

/-- Settles O14: the test in numbers, the read behind it, and where it fails no fetch and no redirect. -/
theorem instrAddressRule : Obligations.InstrAddressRule := by
  intro s a
  have hsome := s.imemRead_isSome a
  refine ⟨instrAddrOK_iff a, fun ha => ⟨if_pos ha, ?_⟩, fun ha => ?_⟩
  · rw [ha] at hsome
    exact Option.isSome_iff_ne_none.1 hsome
  · have hnone : s.imemRead a = none := by simpa [ha] using hsome
    refine ⟨hnone, ?_, ?_⟩
    · rintro rfl hf
      rw [fetchStage_eq]
      rcases afterFetch_of_none hf hnone with e | e <;> rw [e]
      · exact ⟨_, rfl, rfl, rfl, .inl rfl⟩
      · exact ⟨_, rfl, rfl, rfl, .inr rfl⟩
    · rintro i m htr hs hM ht rfl
      rw [exec_in_memory i hs, memoryOf_transfer htr, State.transfer_raises hM ht ha]
      rfl

end Sys2Proof.Machine
end

section
/-!
PROOFS. The encoding: decode and encode agree, the rows of the opcode table, the reserved words, and the
fields an opcode does not use (spec/30_encoding.md R111 to R124; spec/60_exceptions.md R317).
-/

namespace Sys2Proof

/-! ### Decode of encode -/

/-- An opcode and the fields of an instruction give the instruction back: what `build` ignores is not there. -/
theorem build_fields (i : Instr) : i.op.build i.rdField i.rs1Field i.rs2Field i.immField = i := by
  cases i <;> rfl

/-- Decoding the word of an instruction gives it back (R114 to R118, R122). -/
theorem decode_encode (i : Instr) : decode (encode i) = .ok i := by
  have hmatch : encode i &&& opcodeMask = i.op.pattern := pack_matches ..
  obtain ⟨-, -, hrd, hrs1, hrs2, himm⟩ :=
    fields_pack i.op.code i.rdField i.rs1Field i.rs2Field i.immField
  rw [decode_match hmatch, encode, hrd, hrs1, hrs2, himm, build_fields]

theorem Record.regOK_of_bounds {r : Record} {f : RegField} (h : 0 ≤ r.reg f ∧ r.reg f < 32) :
    r.regOK f = true := by
  simp [Record.regOK, h]

theorem Record.immOK_of_bounds {r : Record} (h : -(2 ^ 31) ≤ r.imm ∧ r.imm < 2 ^ 32) : r.immOK = true := by
  simp only [Record.immOK, h, decide_true, Bool.and_self, Bool.or_true]

/-- The operands of an instruction are in range by their types (R317). -/
theorem Instr.wellFormed_true (i : Instr) : i.wellFormed = true := by
  have hreg (f : RegField) : i.record.regOK f = true := by
    apply Record.regOK_of_bounds
    cases f <;> simp only [Record.reg, Instr.record] <;> omega
  have himm : i.record.immOK = true := by
    apply Record.immOK_of_bounds
    have := i.immField.isLt
    simp only [Instr.record]
    omega
  simp [Instr.wellFormed, Record.wellFormed, hreg, himm]

/-- Settles O2: the word matches the row of its opcode, and every field of it reads back. -/
theorem decodeOfEncode : Obligations.DecodeOfEncode :=
  fun i => ⟨i.wellFormed_true, decode_encode i⟩

/-- To check an example both ways it is enough to encode it. -/
theorem decode_and_encode {w : Rec64} {i : Instr} (h : encode i = w) : decode w = .ok i ∧ encode i = w :=
  ⟨h ▸ decode_encode i, h⟩

/-- Settles O1: the nine instructions encode to their words. -/
theorem exampleWordsDecode : Obligations.ExampleWordsDecode :=
  ⟨decode_and_encode rfl, decode_and_encode rfl, decode_and_encode rfl, decode_and_encode rfl,
    decode_and_encode rfl, decode_and_encode rfl, decode_and_encode rfl, decode_and_encode rfl,
    decode_and_encode rfl⟩

/-! ### The opcode table -/

/-- The table of R115: each opcode in its order, with its match value. -/
def opcodeTable : List (Opcode × Rec64) :=
  [Opcode.movc, .load, .store, .add, .sub, .mul, .and, .or, .xor, .bz, .bnz, .jump, .halt, .nop].map
    fun op => (op, op.pattern)

theorem row_of_mem_opcodeTable {row : Opcode × Rec64} (h : row ∈ opcodeTable) : row = (row.1, row.1.pattern) := by
  obtain ⟨op, -, rfl⟩ := List.mem_map.1 h
  rfl

theorem code_injective : Function.Injective Opcode.code := fun op op' h => by
  simpa [ofCode_code] using congrArg Opcode.ofCode h

/-- At most one row matches a word: the match gives the op code (R118). -/
theorem opcode_unique {w : Rec64} {op op' : Opcode} (h : w &&& opcodeMask = op.pattern)
    (h' : w &&& opcodeMask = op'.pattern) : op = op' :=
  code_injective (((match_iff w op).1 h).2.symm.trans ((match_iff w op').1 h').2)

/-- Settles O3: a word that matches a row decodes by it, and its op code is that row's. -/
theorem decodeByTable : Obligations.DecodeByTable := by
  intro w row row' hrow hrow' h
  rw [row_of_mem_opcodeTable hrow] at h ⊢
  rw [row_of_mem_opcodeTable hrow']
  refine ⟨?_, fun h' => ?_⟩
  · rw [decode_match h, rd_eq, rs1_eq, rs2_eq, imm_eq]
  · rw [opcode_unique h h']

/-! ### Reserved words -/

theorem ofCode_isSome_iff : ∀ c : BitVec 4, (Opcode.ofCode c).isSome = true ↔ c.toNat < 14 := by
  decide

/-- Which words decode (R119). -/
theorem decode_ok_iff (w : Rec64) :
    (∃ i, decode w = .ok i) ↔ w.toNat / 2 ^ 51 = 0 ∧ w.toNat / 2 ^ 47 % 16 < 14 := by
  rw [← reserved_iff, ← code_toNat, ← ofCode_isSome_iff]
  unfold decode
  by_cases hr : Rec64.reserved w = 0#13
  · cases hc : Opcode.ofCode (Rec64.code w) <;> simp [hr]
  · simp [hr]

/-- A word that does not decode is refused with its index and itself (R313). -/
theorem load_rec64_error {w : Rec64} (h : ¬ ∃ i, decode w = .ok i) (k : Nat) :
    Machine.ProgramItem.load k (.rec64 w) = .error (.unsupportedOpcode k w) := by
  cases hd : decode w with
  | ok i => exact absurd ⟨i, hd⟩ h
  | error e => simp only [Machine.ProgramItem.load, hd]

/-- Settles O4: the words that decode, and the launch error of the others. -/
theorem reservedWordsRefused : Obligations.ReservedWordsRefused := by
  intro w
  refine ⟨decode_ok_iff w, fun hw inp before after hbefore => ?_⟩
  have hbad : ¬ ∃ i, decode w = .ok i := by
    rw [decode_ok_iff]
    omega
  exact Machine.launch_error inp before after _ hbefore (load_rec64_error hbad before.length)

/-! ### Unused fields -/

/-- `build` reads only the fields its opcode uses (R111, R113). -/
theorem build_congr (op : Opcode) {rd rd' rs1 rs1' rs2 rs2' : RegIdx} {imm imm' : Word}
    (hrd : op.usesReg .rd = true → rd = rd') (hrs1 : op.usesReg .rs1 = true → rs1 = rs1')
    (hrs2 : op.usesReg .rs2 = true → rs2 = rs2') (himm : op.usesImm = true → imm = imm') :
    op.build rd rs1 rs2 imm = op.build rd' rs1' rs2' imm' := by
  cases op <;> simp_all [Opcode.build, Opcode.usesReg, Opcode.usesImm]

/-- Two words of one opcode that agree in the fields it uses decode alike (R111, R118). -/
theorem decode_congr {op : Opcode} {w w' : Rec64} (h : w &&& opcodeMask = op.pattern)
    (h' : w' &&& opcodeMask = op.pattern)
    (hrd : op.usesReg .rd = true → w.toNat / 2 ^ 42 % 32 = w'.toNat / 2 ^ 42 % 32)
    (hrs1 : op.usesReg .rs1 = true → w.toNat / 2 ^ 37 % 32 = w'.toNat / 2 ^ 37 % 32)
    (hrs2 : op.usesReg .rs2 = true → w.toNat / 2 ^ 32 % 32 = w'.toNat / 2 ^ 32 % 32)
    (himm : op.usesImm = true → w.toNat % 2 ^ 32 = w'.toNat % 2 ^ 32) : decode w = decode w' := by
  rw [decode_match h, decode_match h']
  congr 1
  refine build_congr op (fun hu => ?_) (fun hu => ?_) (fun hu => ?_) (fun hu => ?_)
  · rw [rd_eq, rd_eq]
    exact Fin.ext (hrd hu)
  · rw [rs1_eq, rs1_eq]
    exact Fin.ext (hrs1 hu)
  · rw [rs2_eq, rs2_eq]
    exact Fin.ext (hrs2 hu)
  · rw [imm_eq, imm_eq]
    exact BitVec.eq_of_toNat_eq (by simpa using himm hu)

/-- A field out of order is one its opcode uses (R317). -/
theorem Record.usesReg_of_not_regOK {r : Record} {f : RegField} (h : r.regOK f = false) :
    r.op.usesReg f = true := by
  simp only [Record.regOK, Bool.or_eq_false_iff, Bool.not_eq_false'] at h
  exact h.1

theorem Record.usesImm_of_not_immOK {r : Record} (h : r.immOK = false) : r.op.usesImm = true := by
  simp only [Record.immOK, Bool.or_eq_false_iff, Bool.not_eq_false'] at h
  exact h.1

theorem Record.regOK_congr {r r' : Record} {f : RegField} (hop : r.op = r'.op)
    (h : r.op.usesReg f = true → r.reg f = r'.reg f) : r.regOK f = r'.regOK f := by
  cases hu : r.op.usesReg f
  · simp [Record.regOK, ← hop, hu]
  · simp [Record.regOK, ← hop, h hu]

theorem Record.immOK_congr {r r' : Record} (hop : r.op = r'.op)
    (h : r.op.usesImm = true → r.imm = r'.imm) : r.immOK = r'.immOK := by
  cases hu : r.op.usesImm
  · simp [Record.immOK, ← hop, hu]
  · simp [Record.immOK, ← hop, h hu]

/-- Two records of one opcode that agree in the fields it uses give the same instruction, or the same
error: the checks agree, and a field that fails one is used (R317, R318). -/
theorem Record.toInstr_congr {r r' : Record} (hop : r.op = r'.op)
    (hreg : ∀ f, r.op.usesReg f = true → r.reg f = r'.reg f)
    (himm : r.op.usesImm = true → r.imm = r'.imm) : r.toInstr = r'.toInstr := by
  have hrd : r.op.usesReg .rd = true → r.rd = r'.rd := hreg .rd
  have hrs1 : r.op.usesReg .rs1 = true → r.rs1 = r'.rs1 := hreg .rs1
  have hrs2 : r.op.usesReg .rs2 = true → r.rs2 = r'.rs2 := hreg .rs2
  have hregOK (f : RegField) : r'.regOK f = r.regOK f := (Record.regOK_congr hop (hreg f)).symm
  unfold Record.toInstr
  simp only [hregOK, ← Record.immOK_congr hop himm, Bool.not_eq_true']
  split
  case isTrue h => rw [hrd (Record.usesReg_of_not_regOK h)]
  split
  case isTrue h => rw [hrs1 (Record.usesReg_of_not_regOK h)]
  split
  case isTrue h => rw [hrs2 (Record.usesReg_of_not_regOK h)]
  split
  case isTrue h => rw [himm (Record.usesImm_of_not_immOK h)]
  rw [← hop, build_congr r.op (fun hu => by rw [hrd hu]) (fun hu => by rw [hrs1 hu])
    (fun hu => by rw [hrs2 hu]) (fun hu => by rw [himm hu])]

/-- Settles O5: decoding reads only the fields the opcode uses, in words and in records. -/
theorem unusedFieldsIgnored : Obligations.UnusedFieldsIgnored :=
  ⟨fun _ _ _ => decode_congr, fun _ _ => Record.toInstr_congr⟩

end Sys2Proof
end

section
/-!
PROOFS. The five stage procedures, the squash, the flush and the redirect, each case as a whole next state
(spec/40_pipeline.md R141, R143, R146, R147, R156, R165, R190, R206).
-/

namespace Sys2Proof.Machine

open Sys2Proof

variable {s : State} {r? : Option RegIdx}

/-! ### Squash and flush -/

/-- `Squash(E)` gives back the claim of what it squashes and ends a MUL (R146). -/
theorem State.squashE_of_dest (h : s.latchE.dest? = r?) :
    s.squashE = { s.releaseClaim r? with exState := .idle, latchE := .bubble } := by
  rw [State.squashE, h]

theorem State.squashM_of_dest (h : s.latchM.dest? = r?) :
    s.squashM = { s.releaseClaim r? with latchM := .bubble } := by
  rw [State.squashM, h]

theorem Latch.dest_eq_some {l : Latch} {c : Slot} {rd : RegIdx} (hl : l = .slot c)
    (h : destOf c.instr = some rd) : l.dest? = some rd := by
  rw [hl, Latch.dest_slot, h]

/-- An empty latch, and one whose instruction writes no register, has no claim. -/
theorem Latch.dest_eq_none {l : Latch} (h : l = .bubble ∨ ∃ c, l = .slot c ∧ destOf c.instr = none) :
    l.dest? = none := by
  rcases h with rfl | ⟨c, rfl, hd⟩
  · rfl
  · exact hd

/-- Settles O29: a squash releases the claim of the latch, if any, and empties it. -/
theorem squashAndFlush : Obligations.SquashAndFlush := by
  intro s
  refine ⟨fun hE => ?_, fun c rd hE hd => State.squashE_of_dest (Latch.dest_eq_some hE hd),
    fun c hE hd => State.squashE_of_dest (Latch.dest_eq_none (.inr ⟨c, hE, hd⟩)), fun hM => ?_,
    fun c rd hM hd => State.squashM_of_dest (Latch.dest_eq_some hM hd),
    fun c hM hd => State.squashM_of_dest (Latch.dest_eq_none (.inr ⟨c, hM, hd⟩)), rfl⟩
  · rw [State.squashE_of_dest (Latch.dest_eq_none (.inl hE)), ← hE]
    rfl
  · rw [State.squashM_of_dest (Latch.dest_eq_none (.inl hM)), ← hM]
    rfl

/-! ### Redirect -/

/-- A taken transfer whose target is in the sequence redirects and moves on (R165). -/
theorem State.transfer_redirects {m : Slot} (hM : s.latchM = .slot m) (ht : m.taken = true)
    (ha : s.instrAddrOK m.buf = true) :
    s.transfer = (s.redirectTo m.buf).moveToW (.slot m) := by
  simp [State.transfer, hM, ht, ha]

/-- The redirect gives back the claim of what was in E. -/
theorem State.redirectTo_of_dest (h : s.latchE.dest? = r?) (a : Word) :
    s.redirectTo a =
      { ({ s with pc := a }).releaseClaim r? with
        exState := .idle, latchE := .bubble, latchD := .bubble, brWait := 0, latchF := .bubble,
        fstate := .normal, brStall := false } := by
  rw [State.redirectTo, State.squashE_of_dest (s := { s with pc := a }) h]
  rfl

/-- Settles O30: all three transfers do the same in Memory, and it is the raise or the redirect. -/
theorem redirectRule : Obligations.RedirectRule := by
  intro i s m hi hs hM ht
  rw [exec_in_memory i hs, memoryOf_transfer hi]
  refine ⟨fun ha => congrArg _ (State.transfer_raises hM ht ha), fun ha => ?_⟩
  rw [State.transfer_redirects hM ht ha]
  constructor
  · intro e rd hE hd
    rw [State.redirectTo_of_dest (Latch.dest_eq_some hE hd)]
    rfl
  · intro hE
    rw [State.redirectTo_of_dest (Latch.dest_eq_none hE)]
    rfl

/-! ### Writeback -/

theorem afterWriteback_empty (h : s.latchW = .bubble) : afterWriteback s = s := by
  simp only [afterWriteback, h]

/-- Writeback of an instruction that writes no register only retires it (R151, R152). -/
theorem afterWriteback_retires {w : Slot} (hW : s.latchW = .slot w) (hd : destOf w.instr = none)
    (hh : w.instr ≠ .halt) : afterWriteback s = (s.atStage .writeback).retire w := by
  rcases afterWriteback_cases s with ⟨hW', -⟩ | ⟨w', hW', hh', -⟩ | ⟨w', rd, hW', hd', -⟩ | ⟨w', hW', -, -, e⟩
  · simp [hW] at hW'
  all_goals
    obtain rfl : w = w' := by simpa [hW] using hW'
  · exact absurd hh' hh
  · simp [hd] at hd'
  · exact e

/-- A squash of M and E, by the claims they hold. -/
theorem State.squashM_squashE_of_dest {q? : Option RegIdx} (hM : s.latchM.dest? = q?)
    (hE : s.latchE.dest? = r?) :
    s.squashM.squashE = { (s.releaseClaim q?).releaseClaim r? with
      exState := .idle, latchM := .bubble, latchE := .bubble } := by
  rw [State.squashE_of_dest (by rw [State.squashM_latchE, hE]), State.squashM_of_dest hM]
  cases r? <;> rfl

/-- What a squash does does not depend on the stage at work, the count or the stop flag. -/
theorem State.squash_retiring (s : State) (n : Nat) (c : Option StopCause) :
    ({ s.atStage .writeback with retired := n, stop := c } : State).squashM.squashE =
      { s.squashM.squashE with stage := .writeback, retired := n, stop := c } := by
  cases hM : s.latchM.dest? <;> cases hE : s.latchE.dest?
  all_goals
    have hafter := State.squashM_squashE_of_dest
      (s := { s.atStage .writeback with retired := n, stop := c }) hM hE
    rw [hafter, State.squashM_squashE_of_dest hM hE]
    rfl

/-- Writeback of a HALT stops the run and flushes everything upstream (R153). -/
theorem afterWriteback_halts {w : Slot} (hW : s.latchW = .slot w) (hh : w.instr = .halt) :
    afterWriteback s =
      { s.squashM.squashE with
        stage := .writeback, retired := s.retired + 1, stop := some .halt, latchD := .bubble,
        brWait := 0, latchF := .bubble, fstate := .normal, drain := true } := by
  rcases afterWriteback_cases s with ⟨hW', -⟩ | ⟨w', -, -, e⟩ | ⟨w', rd, hW', hd', -⟩ | ⟨w', hW', -, hh', -⟩
  · simp [hW] at hW'
  · rw [e, State.squash_retiring]
    rfl
  all_goals
    obtain rfl : w = w' := by simpa [hW] using hW'
  · simp [hh, destOf] at hd'
  · exact absurd hh hh'

/-- Settles O33: the four cases of what W holds. -/
theorem writebackProcedure : Obligations.WritebackProcedure := by
  intro s
  simp only [writebackStage_eq]
  refine ⟨fun hW => congrArg _ (afterWriteback_empty hW), fun w hW => ⟨fun rd hd => ?_,
    fun hd hh => ?_, fun hh => ?_⟩⟩
  · rw [afterWriteback_commits hW hd]
    rfl
  · rw [afterWriteback_retires hW hd hh]
    rfl
  · rw [afterWriteback_halts hW hh]

/-! ### Decode -/

/-- Decode is held by the drain stall, by a MUL cycle, and by an empty latch (R180, R181, R188). -/
theorem afterDecode_idle (h : s.drain = true ∨ s.mulBusy = true ∨ s.latchD = .bubble) :
    afterDecode s = s := by
  rcases h with h | h | h <;> simp [afterDecode, h]

theorem afterDecode_runs {d : Slot} (hdr : s.drain = false) (hb : s.mulBusy = false)
    (hD : s.latchD = .slot d) : afterDecode s = decodeOf d.instr (s.atStage .decode) := by
  simp [afterDecode, hdr, hb, hD]

theorem State.operandValid_iff : s.operandValid r? = true ↔ ∀ r, r? = some r → s.isValid r = true := by
  cases r? <;> simp [State.operandValid]

/-- An instruction is ready when every register it uses is Valid (R182). -/
theorem State.ready_iff {rs1 rs2 rd : Option RegIdx} :
    s.ready rs1 rs2 rd = true ↔
      ∀ r, (rs1 = some r ∨ rs2 = some r ∨ rd = some r) → s.isValid r = true := by
  simp only [State.ready, Bool.and_eq_true, State.operandValid_iff, or_imp, forall_and, and_assoc]

/-- BZ and BNZ wait (R187). -/
theorem decodeOf_waits {i : Instr} {d : Slot} (hi : isCondBranch i = true) (hD : s.latchD = .slot d)
    (hw : s.brWait < 3) : decodeOf i s = { s with brWait := s.brWait + 1 } := by
  simp [decodeOf, hi, State.waitThenIssue, hD, Config.branchWait, hw]

/-- BZ and BNZ issue after the wait (R187). -/
theorem decodeOf_issues_branch {i : Instr} {d : Slot} (hi : isCondBranch i = true)
    (hD : s.latchD = .slot d) (hw : 3 ≤ s.brWait) :
    decodeOf i s = { s with brWait := 0, latchE := .slot d, latchD := .bubble } := by
  simp [decodeOf, hi, State.waitThenIssue, hD, Config.branchWait, hw]

/-- An instruction that is not ready is held (R186). -/
theorem decodeOf_holds {i : Instr} (hi : isCondBranch i = false)
    (hr : s.ready (src1Of i) (src2Of i) (destOf i) = false) : decodeOf i s = s := by
  simp only [decodeOf, hi, State.issueWhenReady, hr]
  cases s.latchD <;> rfl

/-- An instruction that is ready issues (R183 to R185). -/
theorem decodeOf_issues {i : Instr} {d : Slot} (hi : isCondBranch i = false) (hD : s.latchD = .slot d)
    (hr : s.ready (src1Of i) (src2Of i) (destOf i) = true) :
    decodeOf i s = { s.claim (destOf i) with
      latchE := .slot (s.readOperands (src1Of i) (src2Of i) d), latchD := .bubble } := by
  simp [decodeOf, hi, State.issueWhenReady, hD, hr]

/-- Settles O31: what holds Decode, the wait of a branch, and the readiness test of the others. -/
theorem decodeProcedure : Obligations.DecodeProcedure := by
  intro s
  simp only [decodeStage_eq]
  refine ⟨fun h => congrArg _ (afterDecode_idle h), fun d hdr hb hD => ?_⟩
  have hD' : (s.atStage .decode).latchD = .slot d := hD
  rw [afterDecode_runs hdr hb hD]
  refine ⟨fun hi hw => ?_, fun hi hw => ?_, fun hi hr => ?_, fun hi hr => ?_⟩
  · rw [decodeOf_waits hi hD' hw]
    rfl
  · rw [decodeOf_issues_branch hi hD' hw]
    rfl
  · obtain ⟨r, huse, hinv⟩ := hr
    rw [decodeOf_holds hi]
    · rfl
    · rw [← Bool.not_eq_true, State.ready_iff]
      intro hall
      exact Bool.false_ne_true (hinv.symm.trans (hall r huse))
  · rw [decodeOf_issues hi hD' (State.ready_iff.2 hr)]
    generalize destOf d.instr = rd
    cases rd <;> rfl

/-! ### Fetch -/

theorem State.canDeliver_iff : s.canDeliver = true ↔ s.latchD = .bubble ∧ s.mulBusy = false := by
  simp [State.canDeliver]

@[simp] theorem State.atStage_canDeliver (st : Stage) : (s.atStage st).canDeliver = s.canDeliver := rfl

/-- The drain stall and the fetch stall hold Fetch (R200). -/
theorem afterFetch_stalled (h : s.drain = true ∨ s.brStall = true) : afterFetch s = s := by
  rcases h with h | h <;> simp [afterFetch, h]

section
variable (hdr : s.drain = false) (hb : s.brStall = false)
include hdr hb

/-- Fetch with a held prefetch (R203). -/
theorem afterFetch_holding (hf : s.fstate = .holdingPrefetch) :
    afterFetch s = if s.canDeliver then s.redeliver else s := by
  simp [afterFetch, hdr, hb, hf]

/-- Fetch at an address of the sequence (R201, R202). -/
theorem afterFetch_at {i : Instr} (hf : s.fstate = .normal) (hi : s.imemRead s.pc = some i) :
    afterFetch s = (s.atStage .fetch).fetchInto i := by
  simp [afterFetch, hdr, hb, hf, hi]

/-- Fetch outside the sequence (R204). -/
theorem afterFetch_outside (hf : s.fstate = .normal) (hi : s.imemRead s.pc = none) :
    afterFetch s = if s.canDeliver then { s with latchF := .bubble } else s := by
  simp [afterFetch, hdr, hb, hf, hi]

end

/-- Settles O32: Fetch stalled, and else by what F holds, by what `pc` points at and by whether Decode can
take it. -/
theorem fetchProcedure : Obligations.FetchProcedure := by
  intro s
  simp only [fetchStage_eq]
  refine ⟨fun h => congrArg _ (afterFetch_stalled h), fun hdr hb hD hm => ?_, fun hdr hb hheld => ?_⟩
  · have hc : s.canDeliver = true := State.canDeliver_iff.2 ⟨hD, hm⟩
    refine ⟨fun hf => ?_, fun i hf hi => ?_, fun hf hi => ?_⟩
    · rw [afterFetch_holding hdr hb hf, if_pos hc]
      rfl
    · rw [afterFetch_at hdr hb hf hi, State.fetchInto, State.atStage_canDeliver, if_pos hc]
      rfl
    · rw [afterFetch_outside hdr hb hf hi, if_pos hc]
  · have hc : ¬ s.canDeliver = true := by
      rw [State.canDeliver_iff]
      rintro ⟨hD, hm⟩
      simp [hD, hm] at hheld
    refine ⟨fun i hf hi => ?_, fun h => ?_⟩
    · rw [afterFetch_at hdr hb hf hi, State.fetchInto, State.atStage_canDeliver, if_neg hc]
      rfl
    · cases hf : s.fstate with
      | holdingPrefetch => rw [afterFetch_holding hdr hb hf, if_neg hc]
      | normal => rw [afterFetch_outside hdr hb hf (by simpa [hf] using h), if_neg hc]

/-! ### Each stage and its instruction -/

/-- Settles O35: the definitions of the procedures, with the latch that is at work. -/
theorem stagesRunTheirInstruction : Obligations.StagesRunTheirInstruction := by
  intro s c
  refine ⟨fun hW => ?_, fun hM => ?_, fun hE => ?_, fun hD hdr hb => ?_, fun i hi hdr hb hf => ?_⟩
  · simp only [writebackStage, hW, State.atStage]
  · simp only [memoryStage, hM, State.atStage]
  · simp only [executeStage, hE, State.atStage]
  · simp [decodeStage, hD, hdr, hb, State.atStage]
  · simp [fetchStage, hi, hdr, hb, hf, State.atStage]

end Sys2Proof.Machine
end

section
/-!
PROOFS. The step as a whole: what it answers, how a run ends, that the pipeline refines the sequential
machine and cannot deadlock (spec/40_pipeline.md R144, R151, R155, R210 to R213, R220 to R224;
spec/70_reset_and_hazards.md R350).
-/

namespace Sys2Proof.Machine

open Sys2Proof

variable {s t : State}

/-! ### Refinement -/

/-- The run status counts for the architectural state only as the presence of an abort. -/
theorem State.arch_outcome {o : RunOutcome}
    (h : ({ s with outcome := o } : State).hasRaised = s.hasRaised) :
    ({ s with outcome := o } : State).arch = s.arch :=
  arch_congr rfl rfl rfl rfl rfl h rfl rfl

theorem State.conclude_hasRaised (s : State) : s.conclude.hasRaised = s.hasRaised := by
  rcases s.conclude_cases with ⟨-, e⟩ | ⟨c, hr, -, e⟩ <;> rw [e]
  rw [hr]
  rfl

theorem State.conclude_arch (s : State) : s.conclude.arch = s.arch := by
  have hr := s.conclude_hasRaised
  rw [State.conclude_eq] at hr ⊢
  exact State.arch_outcome hr

/-- Settles O58: the body of a tick refines the sequential machine stage after stage, and nothing else in a
step touches the architectural state. -/
theorem stepRefinesSequential : Obligations.StepRefinesSequential := by
  intro s t h hstep
  rcases step_cases hstep with ⟨-, rfl⟩ | ⟨ho, -, -, rfl⟩ | ⟨ho, -, -, rfl⟩
  · exact .inl rfl
  · exact .inl (State.arch_outcome (by rw [State.hasRaised_of_running ho]; rfl))
  · rw [State.conclude_arch, afterTick_body]
    exact (tickOK h ho).arch

/-! ### What a step answers -/

/-- Once the run has ended a step changes nothing (R213). -/
theorem step_ended (h : s.outcome ≠ .running) : step s = .next s := by
  simp [step, runStep, State.isRunning, h]

theorem step_budgetExceeded (ho : s.outcome = .running) (hp : s.prog ≠ []) (hc : s.maxCycles ≤ s.cycle) :
    step s = .next { s with outcome := .cycleBudgetExceeded } := by
  simp [step, runStep, State.isRunning, ho, hp, hc]

/-- With no program there is no block to run (R312). -/
theorem step_refused (ho : s.outcome = .running) (hp : s.prog = []) :
    step s = .refused (.launchRefused (.initialization .noProgram)) := by
  simp [step, runStep, State.isRunning, ho, hp]

/-- A step of a machine with a program answers a next state. -/
theorem step_answers (h : s.outcome = .running → s.prog ≠ []) : ∃ t, step s = .next t := by
  by_cases ho : s.outcome = .running
  · rcases Nat.lt_or_ge s.cycle s.maxCycles with hc | hc
    · exact ⟨_, step_tick ho (h ho) hc⟩
    · exact ⟨_, step_budgetExceeded ho (h ho) hc⟩
  · exact ⟨_, step_ended ho⟩

/-! ### The two parts of a tick -/

/-- Writeback and Memory, the part of a tick that is always performed. -/
def afterBack (s : State) : State :=
  afterMemory (afterWriteback s)

theorem afterBack_cycle (s : State) : (afterBack s).cycle = s.cycle := by
  obtain ⟨-, -, -, -, -, -, hW, -⟩ := afterWriteback_frame s
  obtain ⟨-, -, -, -, -, -, hM, -⟩ := afterMemory_frame (afterWriteback s)
  exact hM.trans hW

/-- Execute, Decode and Fetch touch neither the count of the ticks nor the stop flag. -/
theorem afterFront_frame (s : State) : (afterFront s).cycle = s.cycle ∧ (afterFront s).stop = s.stop := by
  obtain ⟨-, -, -, -, -, -, -, hsE, -, -, hcE, -⟩ := afterExecute_frame s
  obtain ⟨-, -, -, -, -, -, -, hsD, -, -, -, -, -, -, -, -, -, hcD, -⟩ :=
    afterDecode_frame (afterExecute s)
  obtain ⟨-, -, -, -, -, -, -, hsF, -, -, -, -, -, -, -, -, -, hcF, -⟩ :=
    afterFetch_frame (afterDecode (afterExecute s))
  exact ⟨hcF.trans (hcD.trans hcE), hsF.trans (hsD.trans hsE)⟩

theorem afterFront_hasRaised (s : State) : (afterFront s).hasRaised = s.hasRaised := by
  simp only [State.hasRaised, afterFront_outcome]

theorem State.hasRaised_eq_false (h : ∀ f, s.outcome ≠ .aborted f) : s.hasRaised = false := by
  rw [← Bool.not_eq_true, State.hasRaised_iff]
  exact fun ⟨f, hf⟩ => h f hf

/-- A tick that raises is Writeback, Memory and the count (R144). -/
theorem afterTick_of_raise (h : (afterBack s.beginTick).hasRaised = true) :
    afterTick s = (afterBack s.beginTick).endTick :=
  if_pos h

theorem afterTick_of_no_raise (h : (afterBack s.beginTick).hasRaised = false) :
    afterTick s = (afterFront (afterBack s.beginTick)).endTick :=
  if_neg (Bool.not_eq_true _ ▸ h)

theorem afterTick_cycle (s : State) : (afterTick s).cycle = s.cycle + 1 := by
  have hback := afterBack_cycle s.beginTick
  cases hr : (afterBack s.beginTick).hasRaised with
  | true =>
    rw [afterTick_of_raise hr]
    exact congrArg (· + 1) hback
  | false =>
    rw [afterTick_of_no_raise hr]
    exact congrArg (· + 1) ((afterFront_frame _).1.trans hback)

theorem State.conclude_of_raised (h : s.hasRaised = true) : s.conclude = s :=
  if_pos h

theorem State.conclude_of_noStop (h : s.stop = none) : s.conclude = s := by
  simp [State.conclude, h]

theorem State.conclude_of_stop {c : StopCause} (hr : s.hasRaised = false) (h : s.stop = some c) :
    s.conclude = { s with outcome := .completedNormally c } := by
  simp [State.conclude, hr, h]

/-- A step whose Memory raises (R314). -/
theorem step_of_raise (ho : s.outcome = .running) (hp : s.prog ≠ []) (hc : s.cycle < s.maxCycles)
    (hr : (afterBack s.beginTick).hasRaised = true) :
    step s = .next (afterBack s.beginTick).endTick := by
  rw [step_tick ho hp hc, afterTick_of_raise hr,
    State.conclude_of_raised (s := (afterBack s.beginTick).endTick) hr]

theorem step_of_no_raise (ho : s.outcome = .running) (hp : s.prog ≠ []) (hc : s.cycle < s.maxCycles)
    (hr : (afterBack s.beginTick).hasRaised = false) :
    step s = .next (afterFront (afterBack s.beginTick)).endTick.conclude := by
  rw [step_tick ho hp hc, afterTick_of_no_raise hr]

theorem afterBack_of_stages {s₁ s₂ : State} (h₁ : writebackStage s = .next s₁)
    (h₂ : memoryStage s₁ = .next s₂) : afterBack s = s₂ := by
  rw [writebackStage_eq] at h₁
  rw [memoryStage_eq] at h₂
  cases h₁
  exact Host.Outcome.next.inj h₂

theorem afterFront_of_stages {s₃ s₄ s₅ : State} (h₃ : executeStage s = .next s₃)
    (h₄ : decodeStage s₃ = .next s₄) (h₅ : fetchStage s₄ = .next s₅) : afterFront s = s₅ := by
  rw [executeStage_eq] at h₃
  rw [decodeStage_eq] at h₄
  rw [fetchStage_eq] at h₅
  cases h₃
  cases h₄
  exact Host.Outcome.next.inj h₅

/-- Settles O34: a step within the budget is the tick with its conclusion, and the tick is the five
procedures or, after a raise, the first two. -/
theorem stepIsOneTick : Obligations.StepIsOneTick := by
  intro s ho hp
  refine ⟨step_budgetExceeded ho hp, fun hc s₁ s₂ s₃ s₄ s₅ h₁ h₂ h₃ h₄ h₅ => ?_⟩
  have hback : afterBack s.beginTick = s₂ := afterBack_of_stages h₁ h₂
  have hfront : afterFront s₂ = s₅ := afterFront_of_stages h₃ h₄ h₅
  have hcback : s₂.cycle = s.cycle := hback ▸ afterBack_cycle s.beginTick
  have hcfront : s₅.cycle = s.cycle := hfront ▸ (afterFront_frame s₂).1.trans hcback
  have hrfront : s₅.endTick.hasRaised = s₂.hasRaised := hfront ▸ afterFront_hasRaised s₂
  have hraise := step_of_raise ho hp hc
  have hnoRaise := step_of_no_raise ho hp hc
  rw [hback] at hraise
  rw [hback, hfront] at hnoRaise
  refine ⟨fun f hf => ?_, fun hn hs => ?_, fun c hn hs => ?_⟩
  · rw [hraise (State.hasRaised_iff.2 ⟨f, hf⟩), ← hcback]
    rfl
  · rw [hnoRaise (State.hasRaised_eq_false hn), State.conclude_of_noStop (s := s₅.endTick) hs, ← hcfront]
    rfl
  · have hr := State.hasRaised_eq_false hn
    rw [hnoRaise hr, State.conclude_of_stop (hrfront.trans hr) hs, ← hcfront]
    rfl

/-! ### The run loop -/

theorem runLoop_ended (n : Nat) (h : s.outcome ≠ .running) : runLoop n s = .next s := by
  cases n <;> simp [runLoop, State.isRunning, h]

theorem runLoop_step {n : Nat} (ho : s.outcome = .running) (h : step s = .next t) :
    runLoop (n + 1) s = runLoop n t := by
  rw [runLoop, if_pos (State.isRunning_iff.2 ho)]
  unfold step at h
  rw [h]
  rfl

/-- Settles O45: neither the step nor the run does anything once the outcome is not running. -/
theorem endedRunStays : Obligations.EndedRunStays :=
  fun _ h => ⟨step_ended h, fun _ _ => if_neg (mt State.isRunning_iff.1 h)⟩

/-! ### The counters of a tick -/

/-- Writeback counts one retirement exactly when W holds an instruction (R151). -/
theorem afterTick_counts (s : State) :
    (afterTick s).retired = if s.latchW = .bubble then s.retired else s.retired + 1 := by
  rw [afterTick_retired]
  cases hW : s.latchW with
  | bubble => simp [afterWriteback_empty (s := s.beginTick) hW]
  | slot w => simp [writeback_counts (s := s.beginTick) hW]

/-- A step within the budget that is not refused is a tick and its conclusion. -/
theorem step_eq_tick (ho : s.outcome = .running) (hc : s.cycle < s.maxCycles) (h : step s = .next t) :
    s.prog ≠ [] ∧ t = (afterTick s).conclude := by
  rcases step_cases h with ⟨hr, -⟩ | ⟨-, -, hc', -⟩ | ⟨-, hp, -, e⟩
  · simp [State.isRunning, ho] at hr
  · omega
  · exact ⟨hp, e⟩

/-- Settles O47: the conclusion of a tick leaves both counters as the tick made them. -/
theorem countersPerTick : Obligations.CountersPerTick := by
  intro s t ho hc h
  obtain ⟨-, rfl⟩ := step_eq_tick ho hc h
  rw [State.conclude_eq]
  have hret := afterTick_counts s
  exact ⟨afterTick_cycle s, fun hW => hret.trans (if_pos hW), fun hW => hret.trans (if_neg hW)⟩

/-! ### Progress -/

theorem afterTick_retired_ge (s : State) : s.retired ≤ (afterTick s).retired := by
  rw [afterTick_counts]
  split <;> omega

theorem step_retired_ge (h : step s = .next t) : s.retired ≤ t.retired := by
  rcases step_cases h with ⟨-, rfl⟩ | ⟨-, -, -, rfl⟩ | ⟨-, -, -, rfl⟩
  · exact Nat.le_refl _
  · exact Nat.le_refl _
  · rw [State.conclude_eq]
    exact afterTick_retired_ge s

theorem step_prog (h : step s = .next t) : t.prog = s.prog :=
  (nothingRewritesTheProgram s t h).1

/-- A run of a launched program answers a next state, and no retirement is taken back. -/
theorem runLoop_answers (n : Nat) (hp : s.prog ≠ []) :
    ∃ t, runLoop n s = .next t ∧ s.retired ≤ t.retired := by
  induction n generalizing s with
  | zero => exact ⟨s, rfl, Nat.le_refl _⟩
  | succ n ih =>
    by_cases ho : s.outcome = .running
    · obtain ⟨t, ht⟩ := step_answers fun _ => hp
      obtain ⟨u, hu, hle⟩ := ih (s := t) (by rwa [step_prog ht])
      exact ⟨u, by rw [runLoop_step ho ht, hu], (step_retired_ge ht).trans hle⟩
    · exact ⟨s, runLoop_ended _ ho, Nat.le_refl _⟩

theorem ticksToRetire_le (s : State) : ticksToRetire s ≤ 8 := by
  unfold ticksToRetire
  repeat' split
  all_goals omega

theorem ticksToRetire_pos (h : s.BranchWaits) : 0 < ticksToRetire s := by
  have hwait : s.brWait ≤ 3 := h.1
  unfold ticksToRetire
  repeat' split
  all_goals omega

/-- A step of a running state retires an instruction, ends the run, or comes nearer to a retirement. -/
theorem step_progress (h : s.Inv) (ho : s.outcome = .running) (hp : s.prog ≠ []) (ht : step s = .next t) :
    s.retired < t.retired ∨ t.outcome ≠ .running ∨ ticksToRetire t < ticksToRetire s := by
  rcases step_cases ht with ⟨hr, -⟩ | ⟨-, -, -, rfl⟩ | ⟨-, -, -, rfl⟩
  · simp [State.isRunning, ho] at hr
  · exact .inr (.inl nofun)
  · rcases ticksToRetire_tick h ho hp with hlt | hr | hlt
    · rw [State.conclude_eq]
      exact .inl hlt
    · rw [← State.conclude_hasRaised] at hr
      exact .inr (.inl fun hrun => by simp [State.hasRaised_of_running hrun] at hr)
    · rw [State.conclude_eq]
      exact .inr (.inr hlt)

/-- A run of as many steps as there are ticks to the next retirement reaches one, or the end. -/
theorem runLoop_progress {n : Nat} (h : s.Inv) (ho : s.outcome = .running) (hp : s.prog ≠ [])
    (hn : ticksToRetire s ≤ n) :
    ∃ t, runLoop n s = .next t ∧ (s.retired < t.retired ∨ t.outcome ≠ .running) := by
  induction n generalizing s with
  | zero =>
    have hpos := ticksToRetire_pos h.branchWaits
    omega
  | succ n ih =>
    obtain ⟨t, ht⟩ := step_answers fun _ => hp
    have hpt : t.prog ≠ [] := by rwa [step_prog ht]
    rw [runLoop_step ho ht]
    by_cases hot : t.outcome = .running
    · rcases step_progress h ho hp ht with hlt | hend | hnear
      · obtain ⟨u, hu, hle⟩ := runLoop_answers n hpt
        exact ⟨u, hu, .inl (by omega)⟩
      · exact absurd hot hend
      · obtain ⟨u, hu, hlt | hend⟩ := ih (invariantKept s t h ht) hot hpt (by omega)
        · exact ⟨u, hu, .inl ((step_retired_ge ht).trans_lt hlt)⟩
        · exact ⟨u, hu, .inr hend⟩
    · exact ⟨t, runLoop_ended n hot, .inr hot⟩

/-- Settles O60: no state is more than eight ticks from a retirement. -/
theorem pipelineMakesProgress : Obligations.PipelineMakesProgress :=
  fun s h ho hp => runLoop_progress h ho hp (ticksToRetire_le s)

/-! ### Who can raise -/

theorem fetchInto_outcome (i : Instr) (s : State) : (s.fetchInto i).outcome = s.outcome := by
  unfold State.fetchInto
  split <;> rfl

theorem decodeOf_outcome (i : Instr) (s : State) : (decodeOf i s).outcome = s.outcome := by
  unfold decodeOf State.waitThenIssue State.issueWhenReady
  repeat' split
  all_goals simp

theorem State.compute_outcome (f : Slot → Word) (s : State) : (s.compute f).outcome = s.outcome := by
  unfold State.compute
  split <;> rfl

theorem State.computeTwice_outcome (f : Slot → Word) (s : State) :
    (s.computeTwice f).outcome = s.outcome := by
  unfold State.computeTwice
  (repeat' split) <;> rfl

theorem State.resolve_outcome (cond : State → Bool) (target : Slot → Word) (s : State) :
    (s.resolve cond target).outcome = s.outcome := by
  unfold State.resolve
  (repeat' split) <;> rfl

theorem State.beginDrain_outcome (s : State) : s.beginDrain.outcome = s.outcome := by
  unfold State.beginDrain
  split <;> rfl

theorem State.executeNothing_outcome (s : State) : s.executeNothing.outcome = s.outcome := by
  unfold State.executeNothing
  split <;> rfl

theorem executeOf_outcome (i : Instr) (s : State) : (executeOf i s).outcome = s.outcome := by
  cases i with
  | mul rd rs1 rs2 => exact s.computeTwice_outcome _
  | bz imm | bnz imm | jump rs1 imm => exact s.resolve_outcome _ _
  | halt => exact s.beginDrain_outcome
  | nop => exact s.executeNothing_outcome
  | _ => exact s.compute_outcome _

theorem writebackOf_outcome (i : Instr) (s : State) : (writebackOf i s).outcome = s.outcome := by
  cases hd : destOf i with
  | some rd =>
    rw [writebackOf_writer hd]
    unfold State.commit
    split <;> rfl
  | none =>
    rcases writebackOf_of_no_dest hd s with ⟨-, e⟩ | e <;> rw [e]
    · unfold State.retireHalt
      split <;> simp
    · unfold State.retireOnly
      split <;> rfl

/-- An operation of Memory leaves the run status, or it is a raise and nothing else. -/
def State.KeepsStatusOrRaises (s t : State) : Prop :=
  t.outcome = s.outcome ∨ ∃ m f, s.latchM = .slot m ∧ t = s.raise f

theorem State.dataLoad_keepsStatusOrRaises (s : State) : s.KeepsStatusOrRaises s.dataLoad := by
  cases hM : s.latchM with
  | bubble => exact .inl (by simp [State.dataLoad, hM, State.passOn])
  | slot m =>
    cases ha : s.dataAddrOK m.buf with
    | true => exact .inl (by simp [State.dataLoad, hM, ha])
    | false => exact .inr ⟨m, _, hM, State.dataLoad_raises hM ha⟩

theorem State.dataStore_keepsStatusOrRaises (s : State) : s.KeepsStatusOrRaises s.dataStore := by
  cases hM : s.latchM with
  | bubble => exact .inl (by simp [State.dataStore, hM, State.passOn])
  | slot m =>
    cases ha : s.dataAddrOK m.buf with
    | true => exact .inl (by simp [State.dataStore, hM, ha])
    | false => exact .inr ⟨m, _, hM, State.dataStore_raises hM ha⟩

theorem State.transfer_keepsStatusOrRaises (s : State) : s.KeepsStatusOrRaises s.transfer := by
  cases hM : s.latchM with
  | bubble => exact .inl (by simp [State.transfer, hM, State.passOn])
  | slot m =>
    cases ht : m.taken with
    | false => exact .inl (by simp [State.transfer, hM, ht, State.passOn])
    | true =>
      cases ha : s.instrAddrOK m.buf with
      | true => exact .inl (by simp [State.transfer, hM, ht, ha])
      | false => exact .inr ⟨m, _, hM, State.transfer_raises hM ht ha⟩

theorem State.drainInMemory_outcome (s : State) : s.drainInMemory.outcome = s.outcome := by
  unfold State.drainInMemory State.passOn
  split <;> simp

/-- Only LOAD, STORE and a transfer raise (R155, R311). -/
theorem memoryOf_keepsStatusOrRaises (i : Instr) (s : State) : s.KeepsStatusOrRaises (memoryOf i s) := by
  cases i with
  | load rd rs1 imm => exact s.dataLoad_keepsStatusOrRaises
  | store rs1 rs2 imm => exact s.dataStore_keepsStatusOrRaises
  | bz imm | bnz imm | jump rs1 imm => exact s.transfer_keepsStatusOrRaises
  | halt => exact .inl s.drainInMemory_outcome
  | _ => exact .inl rfl

/-- An instruction outside Memory leaves the run status. -/
theorem exec_outcome {i : Instr} (h : exec i s = .next t) (hs : s.stage ≠ .memory) :
    t.outcome = s.outcome := by
  rcases exec_cases h with ⟨-, rfl⟩ | ⟨-, rfl⟩ | ⟨-, rfl⟩ | ⟨hm, -⟩ | ⟨-, rfl⟩
  · exact fetchInto_outcome i s
  · exact decodeOf_outcome i s
  · exact executeOf_outcome i s
  · exact absurd hm hs
  · exact writebackOf_outcome i s

/-- Settles O44: a step answers a next state unless there is no program, and of the stages only Memory can
touch the run status. -/
theorem onlyMemoryRaises : Obligations.OnlyMemoryRaises := by
  refine ⟨fun s => ?_, fun i s => ?_⟩
  · by_cases hrefuse : s.outcome = .running ∧ s.prog = []
    · obtain ⟨ho, hp⟩ := hrefuse
      simp [step_refused ho hp, ho, hp]
    · obtain ⟨t, ht⟩ := step_answers fun ho hp => hrefuse ⟨ho, hp⟩
      simp [ht, hrefuse]
  · obtain ⟨t, ht⟩ := exec_answers_next i s
    refine ⟨t, ht, exec_outcome ht, ?_⟩
    by_cases hs : s.stage = .memory
    · rw [exec_unique ht (exec_in_memory i hs)]
      exact memoryOf_keepsStatusOrRaises i s
    · exact .inl (exec_outcome ht hs)

/-! ### How a run ends -/

theorem afterMemory_outcome (s : State) :
    (afterMemory s).outcome = s.outcome ∨ ∃ f, (afterMemory s).outcome = .aborted f := by
  cases hM : s.latchM with
  | bubble => exact .inl (by rw [afterMemory_empty hM]; rfl)
  | slot m =>
    simp only [afterMemory, hM]
    rcases memoryOf_keepsStatusOrRaises m.instr (s.atStage .memory) with h | ⟨m', f, -, h⟩
    · exact .inl h
    · exact .inr ⟨f, by rw [h]; rfl⟩

/-- A tick of a running state leaves it running or aborts it. -/
theorem afterTick_outcome (ho : s.outcome = .running) :
    (afterTick s).outcome = .running ∨ ∃ f, (afterTick s).outcome = .aborted f := by
  have hback : (afterBack s.beginTick).outcome = .running ∨
      ∃ f, (afterBack s.beginTick).outcome = .aborted f := by
    obtain ⟨-, -, -, -, -, hW, -⟩ := afterWriteback_frame s.beginTick
    rw [← ho, ← (show (afterWriteback s.beginTick).outcome = s.outcome from hW)]
    exact afterMemory_outcome (afterWriteback s.beginTick)
  cases hr : (afterBack s.beginTick).hasRaised with
  | true => rwa [afterTick_of_raise hr]
  | false =>
    rw [afterTick_of_no_raise hr]
    show (afterFront _).outcome = _ ∨ ∃ f, (afterFront _).outcome = _
    rwa [afterFront_outcome]

/-- The ways a run ends (R210): at the budget, by an error, with the stop flag as its cause. -/
def State.EndedBy (s : State) (budget : Nat) : Prop :=
  (s.outcome = .cycleBudgetExceeded ∧ s.cycle = budget ∧ s.stop = none) ∨
    (∃ f, s.outcome = .aborted f) ∨ ∃ c, s.outcome = .completedNormally c ∧ s.stop = some c

theorem State.EndedBy.not_running {budget : Nat} (h : s.EndedBy budget) : s.outcome ≠ .running := by
  rcases h with ⟨h, -⟩ | ⟨f, h⟩ | ⟨c, h, -⟩ <;> simp [h]

/-- After the tick the run goes on with no stop, or it has ended. -/
theorem afterTick_conclude_status (ho : s.outcome = .running) (budget : Nat) :
    ((afterTick s).conclude.outcome = .running ∧ (afterTick s).conclude.stop = none) ∨
      (afterTick s).conclude.EndedBy budget := by
  rcases (afterTick s).conclude_cases with ⟨hend, e⟩ | ⟨c, -, hs, e⟩ <;> rw [e]
  · rcases afterTick_outcome ho with hrun | habort
    · refine .inl ⟨hrun, hend.resolve_left ?_⟩
      simp [State.hasRaised_of_running hrun]
    · exact .inr (.inr (.inl habort))
  · exact .inr (.inr (.inr ⟨c, rfl, hs⟩))

/-- One step of a run within its budget: a tick after which the run goes on, or the end. -/
theorem step_in_run (ho : s.outcome = .running) (hp : s.prog ≠ []) (hs : s.stop = none)
    (hc : s.cycle ≤ s.maxCycles) :
    ∃ t, step s = .next t ∧ s.cycle ≤ t.cycle ∧ t.cycle ≤ s.maxCycles ∧
      ((t.outcome = .running ∧ t.stop = none ∧ t.cycle = s.cycle + 1) ∨ t.EndedBy s.maxCycles) := by
  rcases Nat.lt_or_ge s.cycle s.maxCycles with hlt | hge
  · have hcyc : (afterTick s).conclude.cycle = s.cycle + 1 := by
      rw [State.conclude_eq]
      exact afterTick_cycle s
    refine ⟨_, step_tick ho hp hlt, by omega, by omega, ?_⟩
    exact (afterTick_conclude_status ho s.maxCycles).imp_left fun ⟨hrun, hstop⟩ => ⟨hrun, hstop, hcyc⟩
  · exact ⟨_, step_budgetExceeded ho hp hge, Nat.le_refl _, hc,
      .inr (.inl ⟨rfl, Nat.le_antisymm hc hge, hs⟩)⟩

/-- The loop ends when its fuel exceeds the ticks that are left of the budget. -/
theorem runLoop_ends {n : Nat} (ho : s.outcome = .running) (hp : s.prog ≠ []) (hs : s.stop = none)
    (hc : s.cycle ≤ s.maxCycles) (hn : s.maxCycles - s.cycle < n) :
    ∃ t, runLoop n s = .next t ∧ s.cycle ≤ t.cycle ∧ t.cycle ≤ s.maxCycles ∧
      t.EndedBy s.maxCycles := by
  induction n generalizing s with
  | zero => omega
  | succ n ih =>
    obtain ⟨t, ht, hle, hmax, ⟨hrun, hstop, hcyc⟩ | hend⟩ := step_in_run ho hp hs hc
    · obtain ⟨hpt, -, hbt, -⟩ := nothingRewritesTheProgram s t ht
      obtain ⟨u, hu, hle', hmax', hend⟩ :=
        ih hrun (by rwa [hpt]) hstop (by rwa [hbt]) (by rw [hbt]; omega)
      rw [hbt] at hmax' hend
      exact ⟨u, by rw [runLoop_step ho ht, hu], hle.trans hle', hmax', hend⟩
    · exact ⟨t, by rw [runLoop_step ho ht, runLoop_ended n hend.not_running], hle, hmax, hend⟩

/-- Settles O46: the fuel of `run` is one more than the ticks that are left of its budget. -/
theorem everyRunEnds : Obligations.EveryRunEnds := by
  intro mode maxCycles s ho hp hs hc
  rw [run, if_pos (State.isRunning_iff.2 ho)]
  exact runLoop_ends (s := { s with maxCycles := maxCycles }) ho hp hs hc (Nat.lt_succ_self _)

end Sys2Proof.Machine
end

section
/-!
PROOFS. What several ticks of the pipeline do together: the two cycles of a MUL, the wait of a branch, the
discard of the wrong path (spec/40_pipeline.md R165, R170, R171, R181, R187, R221).
-/

namespace Sys2Proof.Machine

open Sys2Proof

variable {s t : State}

/-! ### A tick behind empty latches -/

/-- With W and M empty Writeback and Memory do nothing. -/
theorem afterBack_empty (hW : s.latchW = .bubble) (hM : s.latchM = .bubble) : afterBack s = s := by
  rw [afterBack, afterWriteback_empty hW, afterMemory_empty hM, ← hW, State.moveToW, ← hM]

/-- Fetch never writes over an instruction that waits in D. -/
theorem afterFetch_latchD (h : s.latchD ≠ .bubble) : (afterFetch s).latchD = s.latchD := by
  rcases afterFetch_cases s with e | ⟨-, -, -, hD, -⟩ | ⟨i, -, -, -, -, hD, -⟩ | ⟨i, -, -, -, -, -, e⟩ |
    ⟨-, -, -, -, hD, -⟩
  · rw [e]
  · exact absurd hD h
  · exact absurd hD h
  · rw [e]
    rfl
  · exact absurd hD h

/-- What the end of a tick, Fetch and the count, makes of the state that Decode left when Fetch can hand
nothing over (R202). -/
structure EndsTick (v t : State) : Prop where
  latchE : t.latchE = v.latchE
  latchM : t.latchM = v.latchM
  latchW : t.latchW = v.latchW
  latchD : t.latchD = v.latchD
  exState : t.exState = v.exState
  brWait : t.brWait = v.brWait
  z : t.z = v.z
  drain : t.drain = v.drain
  outcome : t.outcome = v.outcome
  prog : t.prog = v.prog
  stop : t.stop = v.stop
  cycle : t.cycle = v.cycle + 1
  maxCycles : t.maxCycles = v.maxCycles

theorem endsTick_of_latchD (h : s.latchD ≠ .bubble) : EndsTick s (afterFetch s).endTick := by
  obtain ⟨hp, -, -, -, hz, -, ho, hs, -, hW, hM, hE, hd, -, hx, -, hb, hc, hm⟩ := afterFetch_frame s
  exact ⟨hE, hM, hW, afterFetch_latchD h, hx, hb, hz, hd, ho, hp, hs, congrArg (· + 1) hc, hm⟩

/-- A state from which the run goes on, with W and M empty and an instruction in D. -/
structure State.WaitsInD (s : State) (d : Slot) : Prop where
  outcome : s.outcome = .running
  prog : s.prog ≠ []
  stop : s.stop = none
  latchW : s.latchW = .bubble
  latchM : s.latchM = .bubble
  latchD : s.latchD = .slot d

variable {d e : Slot}

/-- What waits in D behind empty W and M waits there after the end of the tick. -/
theorem EndsTick.waitsInD (he : EndsTick s t) (h : s.WaitsInD d) : t.WaitsInD d :=
  ⟨he.outcome.trans h.outcome, fun hn => h.prog (he.prog.symm.trans hn), he.stop.trans h.stop,
    he.latchW.trans h.latchW, he.latchM.trans h.latchM, he.latchD.trans h.latchD⟩

/-- With W and M empty a step is Execute, Decode, Fetch and the count. -/
theorem State.WaitsInD.step (h : s.WaitsInD d) (hc : s.cycle < s.maxCycles) :
    step s = .next (afterFront s.beginTick).endTick := by
  have hback : afterBack s.beginTick = s.beginTick := afterBack_empty h.latchW h.latchM
  have hr : (afterBack s.beginTick).hasRaised = false := by
    rw [hback]
    exact State.hasRaised_of_running h.outcome
  have hstop : (afterFront s.beginTick).endTick.stop = none :=
    (afterFront_frame s.beginTick).2.trans h.stop
  rw [step_of_no_raise h.outcome h.prog hc hr, hback, State.conclude_of_noStop hstop]

/-! ### The two cycles of a MUL -/

section
variable {rd rs1 rs2 : RegIdx} (hE : s.latchE = .slot e) (hi : e.instr = .mul rd rs1 rs2)
include hE hi

theorem afterExecute_mul_first (hx : s.exState = .idle) :
    afterExecute s =
      { (s.atStage .execute).setZ (e.v1 * e.v2) with
        mulBusy := true, latchE := .slot { e with buf := e.v1 * e.v2 }, latchM := .bubble,
        exState := .mul1 } := by
  simp [afterExecute, hE, hi, executeOf, State.computeTwice, hx]

theorem afterExecute_mul_second (hx : s.exState = .mul1) :
    afterExecute s =
      { (s.atStage .execute).moveToM e with mulBusy := true, exState := .idle } := by
  simp [afterExecute, hE, hi, executeOf, State.computeTwice, hx]

end

/-- In a MUL cycle Decode is held (R181), so that what waits in D stays there. -/
theorem endsTick_of_mulBusy (hb : (afterExecute s).mulBusy = true)
    (hD : (afterExecute s).latchD ≠ .bubble) : EndsTick (afterExecute s) (afterFront s).endTick := by
  rw [afterFront, afterDecode_idle (.inr (.inl hb))]
  exact endsTick_of_latchD hD

/-- Settles O48: both ticks are MUL cycles, which hold Decode, and Execute does its two halves. -/
theorem mulTakesTwoTicks : Obligations.MulTakesTwoTicks := by
  intro s e d rd rs1 rs2 ho hp hs hc hW hM hE hi hx hD
  have hstep : step s = .next (afterFront s.beginTick).endTick :=
    State.WaitsInD.step ⟨ho, hp, hs, hW, hM, hD⟩ (by omega)
  have hfirst := afterExecute_mul_first (s := s.beginTick) hE hi hx
  have ht : EndsTick (afterExecute s.beginTick) (afterFront s.beginTick).endTick :=
    endsTick_of_mulBusy (by rw [hfirst]) (by rw [hfirst]; simp [hD])
  rw [hfirst] at ht
  generalize (afterFront s.beginTick).endTick = t at hstep ht
  have hwait : t.WaitsInD d := ht.waitsInD ⟨ho, hp, hs, hW, rfl, hD⟩
  have htc : t.cycle = s.cycle + 1 := ht.cycle
  have hsecond := afterExecute_mul_second (s := t.beginTick) ht.latchE hi ht.exState
  have hu : EndsTick (afterExecute t.beginTick) (afterFront t.beginTick).endTick :=
    endsTick_of_mulBusy (by rw [hsecond]) (by rw [hsecond]; simp [hwait.latchD])
  rw [hsecond] at hu
  refine ⟨t, _, hstep, hwait.step (by rw [htc, ht.maxCycles]; exact hc), ht.latchE, ht.latchM,
    ht.exState, ht.z.trans (zeroFlag_eq _), hwait.latchD, ht.brWait, hu.latchE, hu.latchM, hu.exState,
    hu.latchD.trans hwait.latchD, hu.brWait.trans ht.brWait, ?_⟩
  rw [hu.cycle]
  exact congrArg (· + 1) htc

/-! ### The wait of a branch -/

/-- A BZ or BNZ in D behind an empty pipeline that has waited `k` ticks there. -/
structure State.BranchAlone (s : State) (d : Slot) (k : Nat) : Prop extends s.WaitsInD d where
  latchE : s.latchE = .bubble
  drain : s.drain = false
  brWait : s.brWait = k

/-- Execute has nothing to do and Decode takes the branch up. -/
theorem State.BranchAlone.front {k : Nat} (h : s.BranchAlone d k) :
    afterFront s.beginTick = afterFetch (decodeOf d.instr (s.beginTick.atStage .decode)) := by
  rw [afterFront, afterExecute_empty (s := s.beginTick) h.latchE,
    afterDecode_runs (s := s.beginTick) h.drain rfl h.latchD]

section
variable {k : Nat} (hd : isCondBranch d.instr = true) (h : s.BranchAlone d k)
include hd h

/-- The branch waits one tick more (R187). -/
theorem State.BranchAlone.waits (hk : k < 3) (hc : s.cycle < s.maxCycles) :
    ∃ t, step s = .next t ∧ t.BranchAlone d (k + 1) ∧ t.cycle = s.cycle + 1 ∧
      t.maxCycles = s.maxCycles := by
  refine ⟨_, h.step hc, ?_⟩
  rw [h.front, decodeOf_waits (s := s.beginTick.atStage .decode) hd h.latchD (h.brWait ▸ hk)]
  have hend := endsTick_of_latchD
    (s := { s.beginTick.atStage .decode with brWait := s.brWait + 1 }) (by simp [h.latchD])
  have hwait := hend.waitsInD ⟨h.outcome, h.prog, h.stop, h.latchW, h.latchM, h.latchD⟩
  exact ⟨⟨hwait, hend.latchE.trans h.latchE, hend.drain.trans h.drain,
    hend.brWait.trans (congrArg (· + 1) h.brWait)⟩, hend.cycle, hend.maxCycles⟩

/-- After the wait the branch issues (R187). -/
theorem State.BranchAlone.issues (hk : 3 ≤ k) (hc : s.cycle < s.maxCycles) :
    ∃ t, step s = .next t ∧ t.latchE = .slot d ∧ t.brWait = 0 := by
  refine ⟨_, h.step hc, ?_⟩
  rw [h.front, decodeOf_issues_branch (s := s.beginTick.atStage .decode) hd h.latchD (h.brWait ▸ hk)]
  obtain ⟨-, -, -, -, -, -, -, -, -, -, -, hE, -, -, -, -, hb, -⟩ := afterFetch_frame
    { s.beginTick.atStage .decode with brWait := 0, latchE := .slot d, latchD := .bubble }
  exact ⟨hE, hb⟩

end

/-- Settles O49: three ticks of waiting and the issue. -/
theorem branchWaitsThreeTicks : Obligations.BranchWaitsThreeTicks := by
  intro s d ho hp hs hc hW hM hE hdr hD hd hb
  have h₀ : s.BranchAlone d 0 := ⟨⟨ho, hp, hs, hW, hM, hD⟩, hE, hdr, hb⟩
  obtain ⟨t₁, e₁, h₁, hc₁, hm₁⟩ := h₀.waits hd (by omega) (by omega)
  obtain ⟨t₂, e₂, h₂, hc₂, hm₂⟩ := h₁.waits hd (by omega) (by omega)
  obtain ⟨t₃, e₃, h₃, hc₃, hm₃⟩ := h₂.waits hd (by omega) (by omega)
  obtain ⟨t₄, e₄, hE₄, hb₄⟩ := h₃.issues hd (by omega) (by omega)
  exact ⟨t₁, t₂, t₃, t₄, e₁, e₂, e₃, e₄, ⟨h₁.latchD, h₁.brWait, h₁.latchE⟩,
    ⟨h₂.latchD, h₂.brWait, h₂.latchE⟩, ⟨h₃.latchD, h₃.brWait, h₃.latchE⟩, hE₄, hb₄⟩

/-! ### The wrong path -/

/-- Writeback of anything but a HALT leaves M, E and the drain stall. -/
theorem afterWriteback_of_not_halt (h : ∀ w, s.latchW = .slot w → w.instr ≠ .halt) :
    (afterWriteback s).latchM = s.latchM ∧ (afterWriteback s).latchE = s.latchE ∧
      (afterWriteback s).drain = s.drain := by
  rcases afterWriteback_cases s with ⟨-, e⟩ | ⟨w, hW, hh, -⟩ | ⟨w, rd, -, -, e⟩ | ⟨w, -, -, -, e⟩
  · simp [e]
  · exact absurd hh (h w hW)
  · simp [e]
  · simp [e]

/-- Memory of a taken transfer to an address of the sequence redirects (R164, R165). -/
theorem afterMemory_redirects {m : Slot} (hM : s.latchM = .slot m) (hi : isTransfer m.instr = true)
    (ht : m.taken = true) (ha : s.instrAddrOK m.buf = true) :
    afterMemory s = ((s.atStage .memory).redirectTo m.buf).moveToW (.slot m) := by
  simp only [afterMemory, hM]
  rw [memoryOf_transfer hi, State.transfer_redirects (s := s.atStage .memory) hM ht ha]

/-- After a redirect Execute and Decode find nothing, and Fetch delivers the instruction at the target
(R165, R201). -/
theorem afterFront_redirected {a : Word} {i : Instr} (l : Latch) (hd : s.drain = false)
    (hb : s.mulBusy = false) (hi : s.imemRead a = some i) :
    afterFront ((s.redirectTo a).moveToW l) =
      { ((s.redirectTo a).moveToW l).atStage .fetch with
        latchF := .slot (newSlot i a), latchD := .slot (newSlot i a), pc := a + 4 } := by
  generalize hu : (s.redirectTo a).moveToW l = u
  have hE : u.latchE = .bubble := by simp [← hu]
  have hD : u.latchD = .bubble := by simp [← hu]
  have hpc : u.pc = a := by simp [← hu]
  have hread : u.imemRead u.pc = some i := by
    rw [State.imemRead_congr (b := s) (by simp [← hu]), hpc, hi]
  have hdeliver : (u.atStage .fetch).canDeliver = true :=
    State.canDeliver_iff.2 ⟨hD, by simp [← hu, hb]⟩
  rw [afterFront, afterExecute_empty hE, afterDecode_idle (.inr (.inr hD)),
    afterFetch_at (by simp [← hu, hd]) (by simp [← hu]) (by simp [← hu]) hread, State.fetchInto,
    if_pos hdeliver, ← hpc]
  rfl

/-- Behind a taken transfer that is in M nothing drains, and what is in W is no HALT. -/
theorem State.Inv.taken_in_M {m : Slot} (h : s.Inv) (ho : s.outcome = .running) (hM : s.latchM = .slot m)
    (ht : m.taken = true) :
    isTransfer m.instr = true ∧ (∀ w, s.latchW = .slot w → w.instr ≠ .halt) ∧ s.drain = false := by
  have htr : isTransfer m.instr = true := by
    have hmark := h.stallWhileTaken.2.1
    simpa [hM, ht] using hmark
  have hW : ∀ w, s.latchW = .slot w → w.instr ≠ .halt := by
    intro w hw hh
    have hempty := (h.inOrder.haltInW w hw hh).2
    simp [hM] at hempty
  refine ⟨htr, hW, ?_⟩
  by_contra hd
  obtain ⟨-, -, -, hstop | hhalt | hhalt⟩ := h.drainEmpties (by simpa using hd)
  · simp [h.statusAgrees.1 ho] at hstop
  · have hh : m.instr = .halt := by simpa [hM] using hhalt
    simp [hh, isTransfer] at htr
  · cases hw : s.latchW with
    | bubble => simp [hw] at hhalt
    | slot w => exact hW w hw (by simpa [hw] using hhalt)

/-- A tick whose Memory redirects from `u` ends with the instruction at the target in D. -/
theorem afterTick_redirected {u : State} {a : Word} {l : Latch} {i : Instr}
    (hback : afterBack s.beginTick = (u.redirectTo a).moveToW l) (ho : u.outcome = .running)
    (hd : u.drain = false) (hb : u.mulBusy = false) (hi : u.imemRead a = some i) :
    afterTick s = State.endTick
      { ((u.redirectTo a).moveToW l).atStage .fetch with
        latchF := .slot (newSlot i a), latchD := .slot (newSlot i a), pc := a + 4 } := by
  have hraised : (afterBack s.beginTick).hasRaised = false := by
    rw [hback]
    exact State.hasRaised_of_running (by simp [ho])
  rw [afterTick_of_no_raise hraised, hback, afterFront_redirected l hd hb hi]

/-- Settles O50: the redirect empties E and D before Execute and Decode come, and Fetch starts at the
target. -/
theorem wrongPathDiscarded : Obligations.WrongPathDiscarded := by
  intro s m i h ho hp hc hM ht hi
  obtain ⟨htr, hhalt, hdrain⟩ := h.taken_in_M ho hM ht
  obtain ⟨hMw, hEw, hdw⟩ := afterWriteback_of_not_halt (s := s.beginTick) hhalt
  obtain ⟨hpw, -, hmw, hzw, -, how, -, -, -, -, hbw⟩ := afterWriteback_frame s.beginTick
  have hread : (afterWriteback s.beginTick).imemRead m.buf = some i :=
    (State.imemRead_congr hpw m.buf).trans hi
  have hback := afterMemory_redirects (hMw.trans hM) htr ht (by rw [← State.imemRead_isSome, hread]; rfl)
  have htick := afterTick_redirected hback (how.trans ho) (hdw.trans hdrain) hbw hread
  generalize afterWriteback s.beginTick = s₁ at hEw hmw hzw htick
  refine ⟨_, step_tick ho hp hc, ?_⟩
  rw [State.conclude_eq]
  generalize (afterTick s).conclude.outcome = o
  rw [htick]
  refine ⟨rfl, by simp, rfl, by simpa using hzw, by simpa using hmw, rfl, rfl, by simp, by simp, by simp, ?_⟩
  intro r hr
  show State.isValid _ r = true
  rw [State.isValid_congr (b := (s₁.atStage .memory).releaseClaim s₁.latchE.dest?) (by simp),
    State.isValid_releaseClaim]
  exact if_pos ((congrArg Latch.dest? hEw).trans hr)

end Sys2Proof.Machine
end

section
/-!
PROOFS. The computational instructions, stage by stage, each stage as a whole next state (spec/41_alu.md
R230 to R236; spec/40_pipeline.md R150 to R152, R160, R170 to R172, R182 to R186).
-/

namespace Sys2Proof.Machine

open Sys2Proof

variable {i : Instr} {rd rs1 rs2 : RegIdx} {s : State} {c : Slot}

/-! ### Decode -/

theorem isCondBranch_of_dest (hrd : destOf i = some rd) : isCondBranch i = false :=
  Bool.eq_false_iff.2 fun hi => by simp [destOf_condBranch hi] at hrd

/-- An instruction that is not BZ or BNZ is held while it is not ready (R186). -/
theorem exec_holds (hi : isCondBranch i = false) (hs : s.stage = .decode)
    (hr : s.ready (src1Of i) (src2Of i) (destOf i) = false) : exec i s = .next s := by
  rw [exec_in_decode i hs, decodeOf_holds hi hr]

/-- An instruction that is not BZ or BNZ issues when it is ready (R183 to R185). -/
theorem exec_issues (hi : isCondBranch i = false) (hs : s.stage = .decode) (hD : s.latchD = .slot c)
    (hr : s.ready (src1Of i) (src2Of i) (destOf i) = true) :
    exec i s = .next { s.claim (destOf i) with
      latchE := .slot (s.readOperands (src1Of i) (src2Of i) c), latchD := .bubble } := by
  rw [exec_in_decode i hs, decodeOf_issues hi hD hr]

theorem State.ready_three (s : State) (rs1 rs2 rd : RegIdx) :
    s.ready (some rs1) (some rs2) (some rd) = (s.valid[rs1] && s.valid[rs2] && s.valid[rd]) :=
  rfl

section
variable (hrs1 : src1Of i = some rs1) (hrs2 : src2Of i = some rs2) (hrd : destOf i = some rd)
include hrs1 hrs2 hrd

theorem exec_holds_three (hs : s.stage = .decode)
    (hv : s.valid[rs1] = false ∨ s.valid[rs2] = false ∨ s.valid[rd] = false) : exec i s = .next s := by
  refine exec_holds (isCondBranch_of_dest hrd) hs ?_
  rw [hrs1, hrs2, hrd, State.ready_three]
  rcases hv with hv | hv | hv <;> simp [hv]

theorem exec_issues_three (hs : s.stage = .decode) (hD : s.latchD = .slot c) (hv1 : s.valid[rs1] = true)
    (hv2 : s.valid[rs2] = true) (hvd : s.valid[rd] = true) :
    exec i s = .next { s with valid := s.valid.set rd false,
                              latchE := .slot { c with v1 := s.x[rs1], v2 := s.x[rs2] },
                              latchD := .bubble } := by
  rw [exec_issues (isCondBranch_of_dest hrd) hs hD, hrs1, hrs2, hrd]
  · rfl
  · rw [hrs1, hrs2, hrd, State.ready_three, hv1, hv2, hvd]
    rfl

end

/-! ### Execute, Memory and Writeback -/

/-- A one-tick computation puts its result in the buffer, sets Z from it and moves on (R172). -/
theorem exec_computes {f : Slot → Word} (hf : executeOf i s = s.compute f) (hs : s.stage = .execute)
    (hE : s.latchE = .slot c) :
    exec i s = .next { s with z := decide (f c = 0), latchM := .slot { c with buf := f c },
                              latchE := .bubble } := by
  rw [exec_in_execute i hs, hf, State.compute, hE, ← zeroFlag_eq]
  rfl

/-- An instruction with nothing to do in Memory moves on (R160). -/
theorem exec_passesOn (hm : memoryOf i s = s.passOn) (hs : s.stage = .memory) (hM : s.latchM = .slot c) :
    exec i s = .next { s with latchM := .bubble, latchW := .slot c } := by
  rw [exec_in_memory i hs, hm, State.passOn, hM]
  rfl

/-- A writer commits its buffer and retires (R150 to R152). -/
theorem exec_commits (hrd : destOf i = some rd) (hs : s.stage = .writeback) (hW : s.latchW = .slot c) :
    exec i s =
      .next { s with x := s.x.set rd c.buf, valid := s.valid.set rd true, retired := s.retired + 1,
                     stop := if c.pc.toNat = 4000 + 4 * (s.prog.length - 1) then some .lastInstruction
                             else s.stop } := by
  rw [exec_in_writeback i hs, writebackOf_writer hrd, State.commit_slot hW]
  rfl

/-! ### The instructions -/

/-- Settles O15: a writer with no source, whose result is its immediate. -/
theorem movcEffect : Obligations.MovcEffect := by
  intro rd imm s c
  refine ⟨Laws.WordShape.movc rd imm, fun hs hD hv => ?_, fun hs _ hv => ?_,
    exec_computes (f := fun _ => imm + 0) rfl, exec_passesOn rfl, exec_commits rfl⟩
  · exact exec_issues rfl hs hD hv
  · exact exec_holds rfl hs hv

/-- What ADD, SUB, AND, OR and XOR share: two sources and a result computed from them in one tick
(R231, R232, R234 to R236). -/
theorem exec_three_register {f : Slot → Word} (hrs1 : src1Of i = some rs1) (hrs2 : src2Of i = some rs2)
    (hrd : destOf i = some rd) (hf : executeOf i s = s.compute f) (hm : memoryOf i s = s.passOn) :
    (s.stage = .decode → s.latchD = .slot c →
      s.valid[rs1] = true → s.valid[rs2] = true → s.valid[rd] = true →
      exec i s =
        .next { s with valid := s.valid.set rd false,
                       latchE := .slot { c with v1 := s.x[rs1], v2 := s.x[rs2] }, latchD := .bubble }) ∧
    (s.stage = .decode → s.latchD = .slot c →
      (s.valid[rs1] = false ∨ s.valid[rs2] = false ∨ s.valid[rd] = false) → exec i s = .next s) ∧
    (s.stage = .execute → s.latchE = .slot c →
      exec i s = .next { s with z := decide (f c = 0), latchM := .slot { c with buf := f c },
                                latchE := .bubble }) ∧
    (s.stage = .memory → s.latchM = .slot c →
      exec i s = .next { s with latchM := .bubble, latchW := .slot c }) ∧
    (s.stage = .writeback → s.latchW = .slot c →
      exec i s =
        .next { s with x := s.x.set rd c.buf, valid := s.valid.set rd true, retired := s.retired + 1,
                       stop := if c.pc.toNat = 4000 + 4 * (s.prog.length - 1) then some .lastInstruction
                               else s.stop }) :=
  ⟨exec_issues_three hrs1 hrs2 hrd, fun hs _ => exec_holds_three hrs1 hrs2 hrd hs, exec_computes hf,
    exec_passesOn hm, exec_commits hrd⟩

/-- Settles O16: a three-register computation of the sum. -/
theorem addEffect : Obligations.AddEffect := fun rd rs1 rs2 _ _ =>
  ⟨Laws.WordShape.add rd rs1 rs2, exec_three_register (f := fun e => e.v1 + e.v2) rfl rfl rfl rfl rfl⟩

/-- Settles O17: a three-register computation of the difference, which the model writes `v1 + (-v2)`. -/
theorem subEffect : Obligations.SubEffect := by
  intro rd rs1 rs2 s c
  have hf : executeOf (.sub rd rs1 rs2) s = s.compute fun e => e.v1 - e.v2 := by
    simp only [executeOf, BitVec.sub_eq_add_neg]
  exact ⟨Laws.WordShape.sub rd rs1 rs2, exec_three_register rfl rfl rfl hf rfl⟩

/-- The first Execute tick of a MUL computes, keeps E and empties M (R170). -/
theorem exec_mul_first (hs : s.stage = .execute) (hE : s.latchE = .slot c) (hx : s.exState = .idle) :
    exec (.mul rd rs1 rs2) s =
      .next { s with mulBusy := true, z := decide (c.v1 * c.v2 = 0),
                     latchE := .slot { c with buf := c.v1 * c.v2 }, latchM := .bubble,
                     exState := .mul1 } := by
  rw [exec_in_execute _ hs, executeOf, State.computeTwice, hE, hx, ← zeroFlag_eq]
  rfl

/-- The second Execute tick of a MUL moves it on (R171). -/
theorem exec_mul_second (hs : s.stage = .execute) (hE : s.latchE = .slot c) (hx : s.exState = .mul1) :
    exec (.mul rd rs1 rs2) s =
      .next { s with mulBusy := true, latchM := .slot c, latchE := .bubble, exState := .idle } := by
  rw [exec_in_execute _ hs, executeOf, State.computeTwice, hE, hx]
  rfl

/-- Settles O18: a three-register instruction that executes in two ticks. -/
theorem mulEffect : Obligations.MulEffect := fun rd rs1 rs2 _ _ =>
  ⟨Laws.WordShape.mul rd rs1 rs2, exec_issues_three rfl rfl rfl,
    fun hs _ => exec_holds_three rfl rfl rfl hs, exec_mul_first, exec_mul_second, exec_passesOn rfl,
    exec_commits rfl⟩

/-- Settles O19: a three-register computation of the bitwise and. -/
theorem andEffect : Obligations.AndEffect := fun rd rs1 rs2 _ _ =>
  ⟨Laws.WordShape.and rd rs1 rs2, exec_three_register (f := fun e => e.v1 &&& e.v2) rfl rfl rfl rfl rfl⟩

/-- Settles O20: a three-register computation of the bitwise or. -/
theorem orEffect : Obligations.OrEffect := fun rd rs1 rs2 _ _ =>
  ⟨Laws.WordShape.or rd rs1 rs2, exec_three_register (f := fun e => e.v1 ||| e.v2) rfl rfl rfl rfl rfl⟩

/-- Settles O21: a three-register computation of the bitwise exclusive or. -/
theorem xorEffect : Obligations.XorEffect := fun rd rs1 rs2 _ _ =>
  ⟨Laws.WordShape.xor rd rs1 rs2, exec_three_register (f := fun e => e.v1 ^^^ e.v2) rfl rfl rfl rfl rfl⟩

end Sys2Proof.Machine
end

section
/-!
PROOFS. LOAD and STORE, stage by stage, each stage as a whole next state (spec/42_loadstore.md R260 to R262;
spec/20_memory.md R82, R83; spec/40_pipeline.md R150 to R152, R162, R163, R182 to R186).
-/

namespace Sys2Proof.Machine

open Sys2Proof

variable {i : Instr} {rd rs1 rs2 : RegIdx} {imm : Word} {s : State} {c : Slot}

/-! ### Decode -/

/-- LOAD waits for its base and its destination (R182). -/
theorem State.ready_base_dest (s : State) (rs1 rd : RegIdx) :
    s.ready (some rs1) none (some rd) = (s.valid[rs1] && s.valid[rd]) :=
  congrArg (· && s.valid[rd]) (Bool.and_true _)

/-- STORE waits for its data and its base (R182). -/
theorem State.ready_two_sources (s : State) (rs1 rs2 : RegIdx) :
    s.ready (some rs1) (some rs2) none = (s.valid[rs1] && s.valid[rs2]) :=
  Bool.and_true _

theorem exec_load_issues (hs : s.stage = .decode) (hD : s.latchD = .slot c) (hv1 : s.valid[rs1] = true)
    (hvd : s.valid[rd] = true) :
    exec (.load rd rs1 imm) s =
      .next { s with valid := s.valid.set rd false, latchE := .slot { c with v1 := s.x[rs1] },
                     latchD := .bubble } :=
  exec_issues rfl hs hD ((s.ready_base_dest rs1 rd).trans (Bool.and_eq_true_iff.2 ⟨hv1, hvd⟩))

theorem exec_load_holds (hs : s.stage = .decode) (hv : s.valid[rs1] = false ∨ s.valid[rd] = false) :
    exec (.load rd rs1 imm) s = .next s :=
  exec_holds rfl hs ((s.ready_base_dest rs1 rd).trans (Bool.and_eq_false_iff.2 hv))

theorem exec_store_issues (hs : s.stage = .decode) (hD : s.latchD = .slot c) (hv1 : s.valid[rs1] = true)
    (hv2 : s.valid[rs2] = true) :
    exec (.store rs1 rs2 imm) s =
      .next { s with latchE := .slot { c with v1 := s.x[rs1], v2 := s.x[rs2] }, latchD := .bubble } :=
  exec_issues rfl hs hD ((s.ready_two_sources rs1 rs2).trans (Bool.and_eq_true_iff.2 ⟨hv1, hv2⟩))

theorem exec_store_holds (hs : s.stage = .decode) (hv : s.valid[rs1] = false ∨ s.valid[rs2] = false) :
    exec (.store rs1 rs2 imm) s = .next s :=
  exec_holds rfl hs ((s.ready_two_sources rs1 rs2).trans (Bool.and_eq_false_iff.2 hv))

/-! ### Memory -/

/-- `DataAddrOK` fails off the 4-unit grid and from 4N on (R82). -/
theorem dataAddrOK_eq_false_iff {a : Word} :
    s.dataAddrOK a = false ↔ a.toNat % 4 ≠ 0 ∨ 4 * s.dmemWords ≤ a.toNat := by
  rw [← Bool.not_eq_true, dataAddrOK_iff, not_and_or, not_lt]

/-- A LOAD whose address passes reads the word into its buffer and moves on (R162). -/
theorem State.dataLoad_reads (hM : s.latchM = .slot c) (ha : s.dataAddrOK c.buf = true) :
    s.dataLoad = s.moveToW (.slot { c with buf := s.memRead c.buf }) := by
  simp [State.dataLoad, hM, ha]

/-- A STORE whose address passes writes its data and moves on (R163). -/
theorem State.dataStore_writes (hM : s.latchM = .slot c) (ha : s.dataAddrOK c.buf = true) :
    s.dataStore = (s.memWrite c.buf c.v1).moveToW (.slot c) := by
  simp [State.dataStore, hM, ha]

theorem exec_load_reads (hs : s.stage = .memory) (hM : s.latchM = .slot c) (hgrid : c.buf.toNat % 4 = 0)
    (hlt : c.buf.toNat < 4 * s.dmemWords) :
    exec (.load rd rs1 imm) s =
      .next { s with latchM := .bubble,
                     latchW := .slot { c with buf := s.dmem.read c.buf.toNat } } := by
  rw [exec_in_memory _ hs, memoryOf, State.dataLoad_reads hM ((dataAddrOK_iff _).2 ⟨hgrid, hlt⟩)]
  rfl

theorem exec_store_writes (hs : s.stage = .memory) (hM : s.latchM = .slot c) (hgrid : c.buf.toNat % 4 = 0)
    (hlt : c.buf.toNat < 4 * s.dmemWords) :
    exec (.store rs1 rs2 imm) s =
      .next { s with dmem := s.dmem.write c.buf.toNat c.v1, latchM := .bubble, latchW := .slot c } := by
  rw [exec_in_memory _ hs, memoryOf, State.dataStore_writes hM ((dataAddrOK_iff _).2 ⟨hgrid, hlt⟩)]
  rfl

/-! ### Writeback -/

theorem State.retireOnly_slot (h : s.latchW = .slot c) : s.retireOnly = s.retire c := by
  simp [State.retireOnly, h]

/-- An instruction that only retires is counted and can stop the run (R151, R152). -/
theorem exec_retires (hw : writebackOf i s = s.retireOnly) (hs : s.stage = .writeback)
    (hW : s.latchW = .slot c) :
    exec i s =
      .next { s with retired := s.retired + 1,
                     stop := if c.pc.toNat = 4000 + 4 * (s.prog.length - 1) then some .lastInstruction
                             else s.stop } := by
  rw [exec_in_writeback i hs, hw, State.retireOnly_slot hW]
  rfl

/-! ### The instructions -/

/-- Settles O22: a writer with one source, which reads its word in Memory or raises there. -/
theorem loadEffect : Obligations.LoadEffect := by
  intro rd rs1 imm s c
  refine ⟨Laws.WordShape.load rd rs1 imm, exec_load_issues, fun hs _ => exec_load_holds hs,
    exec_computes (f := fun e => e.v1 + imm) rfl, exec_load_reads, fun hs hM hbad => ?_,
    exec_commits rfl⟩
  obtain ⟨hload, -⟩ := (dataAddressRule s c.buf).2 c hs hM rfl (dataAddrOK_eq_false_iff.2 hbad)
  exact hload rd rs1 imm

/-- Settles O23: two sources and no destination; Memory writes the word or raises. -/
theorem storeEffect : Obligations.StoreEffect := by
  intro rs1 rs2 imm s c
  refine ⟨Laws.WordShape.store rs1 rs2 imm, exec_store_issues, fun hs _ => exec_store_holds hs,
    exec_computes (f := fun e => e.v2 + imm) rfl, exec_store_writes, fun hs hM hbad => ?_,
    exec_retires rfl⟩
  obtain ⟨-, hstore⟩ := (dataAddressRule s c.buf).2 c hs hM rfl (dataAddrOK_eq_false_iff.2 hbad)
  exact hstore rs1 rs2 imm

end Sys2Proof.Machine
end

section
/-!
PROOFS. BZ, BNZ and JUMP, stage by stage, each stage as a whole next state (spec/43_control.md R280 to R282;
spec/40_pipeline.md R151, R152, R164, R165, R182 to R187).
-/

namespace Sys2Proof.Machine

open Sys2Proof

variable {i : Instr} {rs1 : RegIdx} {imm : Word} {s : State} {c : Slot}

/-! ### Decode -/

/-- BZ and BNZ wait in D (R187). -/
theorem exec_waits (hi : isCondBranch i = true) (hs : s.stage = .decode) (hD : s.latchD = .slot c)
    (hw : s.brWait < 3) : exec i s = .next { s with brWait := s.brWait + 1 } := by
  rw [exec_in_decode i hs, decodeOf_waits hi hD hw]

/-- BZ and BNZ issue after the wait, with no operand and no claim (R187). -/
theorem exec_issues_branch (hi : isCondBranch i = true) (hs : s.stage = .decode) (hD : s.latchD = .slot c)
    (hw : 3 ≤ s.brWait) :
    exec i s = .next { s with brWait := 0, latchE := .slot c, latchD := .bubble } := by
  rw [exec_in_decode i hs, decodeOf_issues_branch hi hD hw]

/-- JUMP waits for its base (R182). -/
theorem State.ready_base (s : State) (rs1 : RegIdx) : s.ready (some rs1) none none = s.valid[rs1] :=
  (Bool.and_true _).trans (Bool.and_true _)

theorem exec_jump_issues (hs : s.stage = .decode) (hD : s.latchD = .slot c) (hv1 : s.valid[rs1] = true) :
    exec (.jump rs1 imm) s =
      .next { s with latchE := .slot { c with v1 := s.x[rs1] }, latchD := .bubble } :=
  exec_issues rfl hs hD ((s.ready_base rs1).trans hv1)

theorem exec_jump_holds (hs : s.stage = .decode) (hv1 : s.valid[rs1] = false) :
    exec (.jump rs1 imm) s = .next s :=
  exec_holds rfl hs ((s.ready_base rs1).trans hv1)

/-! ### Execute -/

section
variable {cond : State → Bool} {target : Slot → Word}
  (hx : executeOf i s = s.resolve cond target) (hs : s.stage = .execute) (hE : s.latchE = .slot c)
include hx hs hE

/-- A transfer whose condition holds takes its target into the buffer, sets Z from it and stalls Fetch
(R280 to R282). -/
theorem exec_resolves_taken (hc : cond s = true) :
    exec i s = .next { s with z := decide (target c = 0),
                              latchM := .slot { c with buf := target c, taken := true },
                              latchE := .bubble, brStall := true } := by
  rw [exec_in_execute i hs, hx, State.resolve, hE, ← zeroFlag_eq]
  exact congrArg _ (if_pos hc)

/-- A transfer whose condition fails leaves Z and the buffer (R280, R281). -/
theorem exec_resolves_not_taken (hc : cond s = false) :
    exec i s = .next { s with latchM := .slot { c with taken := false }, latchE := .bubble } := by
  rw [exec_in_execute i hs, hx, State.resolve, hE]
  exact congrArg _ (if_neg (Bool.eq_false_iff.1 hc))

end

/-! ### Memory -/

/-- A transfer that is not taken only moves on (R164). -/
theorem State.transfer_passesOn (hM : s.latchM = .slot c) (ht : c.taken = false) :
    s.transfer = s.passOn := by
  simp [State.transfer, hM, ht]

section
variable (hi : isTransfer i = true) (hs : s.stage = .memory) (hM : s.latchM = .slot c)
include hi hs hM

/-- A taken transfer to an address of the sequence redirects and moves on (R165). -/
theorem exec_redirects (ht : c.taken = true) (ha : s.instrAddrOK c.buf = true) :
    exec i s = .next { s.redirectTo c.buf with latchM := .bubble, latchW := .slot c } := by
  rw [exec_in_memory i hs, memoryOf_transfer hi, State.transfer_redirects hM ht ha]
  rfl

/-- A taken transfer to any other address raises, and nothing else changes (R165). -/
theorem exec_transfer_raises (ht : c.taken = true) (ha : s.instrAddrOK c.buf = false) :
    exec i s = .next { s with outcome := .aborted (.instrOutOfRange c.buf c.pc) } :=
  (redirectRule i s c hi hs hM ht).1 ha

theorem exec_transfer_passesOn (ht : c.taken = false) :
    exec i s = .next { s with latchM := .bubble, latchW := .slot c } :=
  exec_passesOn ((memoryOf_transfer hi s).trans (State.transfer_passesOn hM ht)) hs hM

end

/-! ### The instructions -/

/-- Settles O24: a branch that waits in Decode and is taken on Z, relative to its own address. -/
theorem bzEffect : Obligations.BzEffect := by
  intro imm s c
  have hx : executeOf (.bz imm) s = s.resolve State.z fun e => e.pc + imm := rfl
  exact ⟨Laws.WordShape.bz imm, exec_waits rfl, exec_issues_branch rfl, exec_resolves_taken hx,
    exec_resolves_not_taken hx, exec_redirects rfl, exec_transfer_raises rfl, exec_transfer_passesOn rfl,
    exec_retires rfl⟩

/-- Settles O25: a branch that waits in Decode and is taken on the clear Z, relative to its own address. -/
theorem bnzEffect : Obligations.BnzEffect := by
  intro imm s c
  have hx : executeOf (.bnz imm) s = s.resolve (fun t => !t.z) fun e => e.pc + imm := rfl
  exact ⟨Laws.WordShape.bnz imm, exec_waits rfl, exec_issues_branch rfl,
    fun hs hE hz => exec_resolves_taken hx hs hE (congrArg (!·) hz),
    fun hs hE hz => exec_resolves_not_taken hx hs hE (congrArg (!·) hz),
    exec_redirects rfl, exec_transfer_raises rfl, exec_transfer_passesOn rfl, exec_retires rfl⟩

/-- Settles O26: a transfer with one source that does not wait for Z and is always taken. -/
theorem jumpEffect : Obligations.JumpEffect := by
  intro rs1 imm s c
  have hx : executeOf (.jump rs1 imm) s = s.resolve (fun _ => true) fun e => e.v1 + imm := rfl
  exact ⟨Laws.WordShape.jump rs1 imm, exec_jump_issues, fun hs _ => exec_jump_holds hs,
    fun hs hE => exec_resolves_taken hx hs hE rfl, exec_redirects rfl, exec_transfer_raises rfl,
    exec_retires rfl⟩

end Sys2Proof.Machine
end

section
/-!
PROOFS. HALT and NOP, stage by stage, each stage as a whole next state (spec/44_system.md R300, R301;
spec/40_pipeline.md R146, R147, R151 to R153, R166, R185).
-/

namespace Sys2Proof.Machine

open Sys2Proof

variable {i : Instr} {s : State} {c : Slot}

/-- An instruction with no operand and no destination is always ready and claims nothing (R182 to R185). -/
theorem exec_issues_always (hi : isCondBranch i = false) (hrs1 : src1Of i = none) (hrs2 : src2Of i = none)
    (hrd : destOf i = none) (hs : s.stage = .decode) (hD : s.latchD = .slot c) :
    exec i s = .next { s with latchE := .slot c, latchD := .bubble } := by
  have hr : s.ready (src1Of i) (src2Of i) (destOf i) = true := by
    rw [hrs1, hrs2, hrd]
    rfl
  rw [exec_issues hi hs hD hr, hrs1, hrs2, hrd]
  rfl

/-- NOP in Execute only moves on (R301). -/
theorem exec_nop_moves (hs : s.stage = .execute) (hE : s.latchE = .slot c) :
    exec .nop s = .next { s with latchM := .slot c, latchE := .bubble } := by
  rw [exec_in_execute _ hs, executeOf, State.executeNothing, hE]
  rfl

/-- Settles O28: a slot that issues at once, moves on twice and only retires. -/
theorem nopEffect : Obligations.NopEffect := fun _ _ =>
  ⟨Laws.WordShape.nop, exec_issues_always rfl rfl rfl rfl, exec_nop_moves, exec_passesOn rfl,
    exec_retires rfl⟩

/-! ### The three drains of HALT -/

/-- HALT in Execute asserts the drain stall and empties the front (R147, R300). -/
theorem exec_halt_begins_drain (hs : s.stage = .execute) (hE : s.latchE = .slot c) :
    exec .halt s =
      .next { s with drain := true, latchD := .bubble, brWait := 0, latchF := .bubble,
                     fstate := .normal, latchM := .slot c, latchE := .bubble } := by
  rw [exec_in_execute _ hs, executeOf, State.beginDrain, hE]
  rfl

/-- HALT in Memory squashes E and asserts the drain stall (R166). -/
theorem exec_halt_drains (hs : s.stage = .memory) (hM : s.latchM = .slot c) :
    exec .halt s = .next { s.squashE with drain := true, latchM := .bubble, latchW := .slot c } := by
  rw [exec_in_memory _ hs, memoryOf, State.drainInMemory, hM]
  rfl

theorem State.atStage_of_stage {st : Stage} (hs : s.stage = st) : s.atStage st = s := by
  rw [← hs]
  rfl

/-- A squash of M and E in Writeback does not depend on the count or the stop flag. -/
theorem State.squash_counted (hs : s.stage = .writeback) (n : Nat) (stop : Option StopCause) :
    ({ s with retired := n, stop := stop } : State).squashM.squashE =
      { s.squashM.squashE with retired := n, stop := stop } := by
  have hsquash := s.squash_retiring n stop
  have hstage : s.squashM.squashE.stage = .writeback := by simp [hs]
  rwa [State.atStage_of_stage hs, ← hstage] at hsquash

theorem State.retireHalt_slot (h : s.latchW = .slot c) :
    s.retireHalt =
      { ({ s with retired := s.retired + 1, stop := some .halt }).squashM.squashE.flushFront with
        drain := true } := by
  simp only [State.retireHalt, h]

/-- HALT in Writeback is counted, stops the run and flushes everything upstream (R151 to R153). -/
theorem exec_halt_retires (hs : s.stage = .writeback) (hW : s.latchW = .slot c) :
    exec .halt s =
      .next { s.squashM.squashE with retired := s.retired + 1, stop := some .halt, latchD := .bubble,
                                     brWait := 0, latchF := .bubble, fstate := .normal,
                                     drain := true } := by
  rw [exec_in_writeback _ hs, writebackOf, State.retireHalt_slot hW,
    State.squash_counted hs (s.retired + 1) (some .halt)]
  rfl

/-- Settles O27: a slot that issues at once and drains the pipeline in each later stage. -/
theorem haltEffect : Obligations.HaltEffect := fun _ _ =>
  ⟨Laws.WordShape.halt, exec_issues_always rfl rfl rfl rfl, exec_halt_begins_drain, exec_halt_drains,
    exec_halt_retires⟩

end Sys2Proof.Machine
end

section
/-!
PROOFS. The errors: which records are accepted and which error the launch reports first, and what an error
in Memory leaves of the machine (spec/60_exceptions.md R313 to R318; spec/40_pipeline.md R213).
-/

namespace Sys2Proof

variable {r : Record} {f : RegField}

/-! ### The checks of a record -/

theorem Record.regOK_iff :
    r.regOK f = true ↔ (r.op.usesReg f = true → 0 ≤ r.reg f ∧ r.reg f < 32) := by
  cases hu : r.op.usesReg f <;> simp [Record.regOK, hu]

theorem Record.immOK_iff :
    r.immOK = true ↔ (r.op.usesImm = true → -(2 ^ 31) ≤ r.imm ∧ r.imm < 2 ^ 32) := by
  cases hu : r.op.usesImm <;> simp [Record.immOK, hu]

theorem Record.wellFormed_iff : r.wellFormed = true ↔ (∀ f, r.regOK f = true) ∧ r.immOK = true := by
  simp only [Record.wellFormed, Bool.and_eq_true]
  constructor
  · rintro ⟨⟨⟨hrd, hrs1⟩, hrs2⟩, himm⟩
    exact ⟨fun f => by cases f <;> assumption, himm⟩
  · rintro ⟨hreg, himm⟩
    exact ⟨⟨⟨hreg _, hreg _⟩, hreg _⟩, himm⟩

/-! ### The instruction or the error of a record -/

theorem Record.toInstr_rd_error (hrd : r.regOK .rd = false) :
    r.toInstr = .error (.regOutOfRange .rd r.rd) := by
  simp [Record.toInstr, hrd]

theorem Record.toInstr_rs1_error (hrd : r.regOK .rd = true) (hrs1 : r.regOK .rs1 = false) :
    r.toInstr = .error (.regOutOfRange .rs1 r.rs1) := by
  simp [Record.toInstr, hrd, hrs1]

theorem Record.toInstr_rs2_error (hrd : r.regOK .rd = true) (hrs1 : r.regOK .rs1 = true)
    (hrs2 : r.regOK .rs2 = false) : r.toInstr = .error (.regOutOfRange .rs2 r.rs2) := by
  simp [Record.toInstr, hrd, hrs1, hrs2]

theorem Record.toInstr_imm_error (hreg : ∀ f, r.regOK f = true) (himm : r.immOK = false) :
    r.toInstr = .error (.immOutOfRange r.imm) := by
  simp [Record.toInstr, hreg, himm]

theorem Record.toInstr_of_wellFormed (h : r.wellFormed = true) :
    r.toInstr = .ok (r.op.build (Fin.ofNat 32 r.rd.toNat) (Fin.ofNat 32 r.rs1.toNat)
      (Fin.ofNat 32 r.rs2.toNat) (BitVec.ofInt 32 r.imm)) := by
  obtain ⟨hreg, himm⟩ := Record.wellFormed_iff.1 h
  simp [Record.toInstr, hreg, himm]

/-- A record gives an instruction only when every field its opcode uses is in range (R317). -/
theorem Record.wellFormed_of_toInstr {i : Instr} (h : r.toInstr = .ok i) : r.wellFormed = true := by
  unfold Record.toInstr at h
  split_ifs at h with hrd hrs1 hrs2 himm
  simp only [Bool.not_eq_true', Bool.not_eq_false] at hrd hrs1 hrs2 himm
  simp [Record.wellFormed, hrd, hrs1, hrs2, himm]

/-! ### The fields of the instruction -/

section
variable (op : Opcode) (rd rs1 rs2 : RegIdx) (imm : Word)

theorem build_op : (op.build rd rs1 rs2 imm).op = op := by
  cases op <;> rfl

theorem build_rdField (h : op.usesReg .rd = true) : (op.build rd rs1 rs2 imm).rdField = rd := by
  cases op <;> simp [Opcode.usesReg] at h <;> rfl

theorem build_rs1Field (h : op.usesReg .rs1 = true) : (op.build rd rs1 rs2 imm).rs1Field = rs1 := by
  cases op <;> simp [Opcode.usesReg] at h <;> rfl

theorem build_rs2Field (h : op.usesReg .rs2 = true) : (op.build rd rs1 rs2 imm).rs2Field = rs2 := by
  cases op <;> simp [Opcode.usesReg] at h <;> rfl

theorem build_immField (h : op.usesImm = true) : (op.build rd rs1 rs2 imm).immField = imm := by
  cases op <;> simp [Opcode.usesImm] at h <;> rfl

end

/-- A register number in 0..31 is its own index. -/
theorem regIdx_val_of_bounds {v : Int} (h : 0 ≤ v ∧ v < 32) :
    ((Fin.ofNat 32 v.toNat).val : Int) = v := by
  simp only [Fin.val_ofNat]
  omega

/-- w(imm) is the immediate modulo 2^32 (R13, R317). -/
theorem word_ofInt_toNat (v : Int) : ((BitVec.ofInt 32 v).toNat : Int) = v % 2 ^ 32 := by
  rw [BitVec.toNat_ofInt]
  omega

/-- Settles O7: a record gives an instruction exactly when it is well formed, and then the one that is built
of its fields. -/
theorem recordsChecked : Obligations.RecordsChecked := by
  intro r
  refine ⟨fun ⟨hreg, himm⟩ => ?_, fun f hu hout i hi => ?_, fun hu hout i hi => ?_⟩
  · have hok : r.wellFormed = true :=
      Record.wellFormed_iff.2 ⟨fun f => Record.regOK_iff.2 (hreg f), Record.immOK_iff.2 himm⟩
    refine ⟨_, Record.toInstr_of_wellFormed hok, build_op .., fun hu => ?_, fun hu => ?_, fun hu => ?_,
      fun hu => ?_⟩
    · rw [build_rdField _ _ _ _ _ hu]
      exact regIdx_val_of_bounds (hreg .rd hu)
    · rw [build_rs1Field _ _ _ _ _ hu]
      exact regIdx_val_of_bounds (hreg .rs1 hu)
    · rw [build_rs2Field _ _ _ _ _ hu]
      exact regIdx_val_of_bounds (hreg .rs2 hu)
    · rw [build_immField _ _ _ _ _ hu, word_ofInt_toNat]
  · have hin := Record.regOK_iff.1 ((Record.wellFormed_iff.1 (Record.wellFormed_of_toInstr hi)).1 f) hu
    omega
  · have hin := Record.immOK_iff.1 (Record.wellFormed_iff.1 (Record.wellFormed_of_toInstr hi)).2 hu
    omega

end Sys2Proof

namespace Sys2Proof.Machine

open Sys2Proof

variable {s t : State} {m : Slot} {f : Fault}

/-! ### The errors of the launch -/

theorem load_record_reg_error {r : Record} {field : RegField} {v : Int}
    (h : r.toInstr = .error (.regOutOfRange field v)) (k : Nat) :
    ProgramItem.load k (.record r) = .error (.regOutOfRange k field v) := by
  simp only [ProgramItem.load, h]

theorem load_record_imm_error {r : Record} {v : Int} (h : r.toInstr = .error (.immOutOfRange v))
    (k : Nat) : ProgramItem.load k (.record r) = .error (.immOutOfRange k v) := by
  simp only [ProgramItem.load, h]

/-- Settles O6: the launch reports the error of the first instruction that is not in order, and a record
that of its first field out of range. -/
theorem launchReportsFirstError : Obligations.LaunchReportsFirstError := by
  intro inp
  refine ⟨rfl, rfl, fun before after hbefore => ?_⟩
  have hrefuse (item : ProgramItem) (e : LaunchError) (h : item.load before.length = .error e) :=
    launch_error inp before after item hbefore h
  refine ⟨fun w hw => hrefuse _ _ (load_rec64_error (not_exists.2 hw) _), fun r => ⟨?_, ?_, ?_, ?_⟩⟩
  · exact fun hrd => hrefuse _ _ (load_record_reg_error (Record.toInstr_rd_error hrd) _)
  · exact fun hrd hrs1 => hrefuse _ _ (load_record_reg_error (Record.toInstr_rs1_error hrd hrs1) _)
  · exact fun hrd hrs1 hrs2 =>
      hrefuse _ _ (load_record_reg_error (Record.toInstr_rs2_error hrd hrs1 hrs2) _)
  · intro hrd hrs1 hrs2 himm
    have hreg (field : RegField) : r.regOK field = true := by cases field <;> assumption
    exact hrefuse _ _ (load_record_imm_error (Record.toInstr_imm_error hreg himm) _)

/-! ### An error in Memory -/

/-- An error is that of a LOAD or STORE at a bad address or of a taken transfer to a bad target (R162, R163,
R165). -/
theorem State.errorOf_eq_some_iff :
    s.errorOf m = some f ↔
      (f = .dataOutOfRange m.buf m.pc ∧ isAccess m.instr = true ∧ s.dataAddrOK m.buf = false) ∨
        (f = .instrOutOfRange m.buf m.pc ∧ isTransfer m.instr = true ∧ m.taken = true ∧
          s.instrAddrOK m.buf = false) := by
  have hcomm (g : Fault) : some g = some f ↔ f = g := by rw [Option.some_inj, eq_comm]
  unfold State.errorOf
  cases m.instr with
  | load rd rs1 imm | store rs1 rs2 imm =>
    cases s.dataAddrOK m.buf <;> simp [isAccess, isTransfer, hcomm]
  | bz imm | bnz imm | jump rs1 imm =>
    cases m.taken <;> cases s.instrAddrOK m.buf <;> simp [isAccess, isTransfer, hcomm]
  | _ => simp [isAccess, isTransfer]

theorem memoryOf_access_raises {i : Instr} (hi : isAccess i = true) (hM : s.latchM = .slot m)
    (ha : s.dataAddrOK m.buf = false) : memoryOf i s = s.raise (.dataOutOfRange m.buf m.pc) := by
  cases i with
  | load rd rs1 imm => exact State.dataLoad_raises hM ha
  | store rs1 rs2 imm => exact State.dataStore_raises hM ha
  | _ => cases hi

/-- Memory raises the error its instruction calls for (R162, R163, R165). -/
theorem afterMemory_of_errorOf (hM : s.latchM = .slot m) (hf : s.errorOf m = some f) :
    afterMemory s = (s.atStage .memory).raise f := by
  simp only [afterMemory, hM]
  rcases State.errorOf_eq_some_iff.1 hf with ⟨rfl, hi, ha⟩ | ⟨rfl, hi, ht, ha⟩
  · exact memoryOf_access_raises (s := s.atStage .memory) hi hM ha
  · rw [memoryOf_transfer hi]
    exact State.transfer_raises (s := s.atStage .memory) hM ht ha

/-- Settles O37: after the raise only the count of the tick is left, and a step of an aborted state answers
the state itself. -/
theorem abortEndsTheRun : Obligations.AbortEndsTheRun := by
  intro s u m f ho hp hc hu hM hf
  have hwriteback : afterWriteback s.beginTick = u :=
    Host.Outcome.next.inj ((writebackStage_eq s.beginTick).symm.trans hu)
  obtain ⟨-, -, -, -, -, -, hcycle, -⟩ := afterWriteback_frame s.beginTick
  rw [hwriteback, State.beginTick_cycle] at hcycle
  have hback : afterBack s.beginTick = (u.atStage .memory).raise f := by
    rw [afterBack, hwriteback, afterMemory_of_errorOf hM hf]
  have hstep := step_of_raise ho hp hc (by rw [hback]; rfl)
  rw [hback] at hstep
  refine ⟨_, hstep, ?_, hM, step_ended nofun⟩
  rw [← hcycle]
  rfl

/-! ### What an abort keeps -/

theorem afterWriteback_x_of_no_dest (h : s.latchW.dest? = none) : (afterWriteback s).x = s.x := by
  cases hW : s.latchW with
  | bubble => rw [afterWriteback_empty hW]
  | slot w =>
    rw [hW] at h
    simp only [afterWriteback, hW]
    exact writebackOf_x_of_no_dest h

theorem afterWriteback_readReg {w : Slot} {rd : RegIdx} (hW : s.latchW = .slot w)
    (hd : destOf w.instr = some rd) (q : RegIdx) :
    (afterWriteback s).readReg q = if q = rd then w.buf else s.readReg q := by
  rw [afterWriteback_commits hW hd]
  exact State.readReg_writeReg rd q w.buf (s.atStage .writeback)

/-- When something is in M after Writeback, no HALT was in W: it would have squashed M (R153). -/
theorem not_halt_of_afterWriteback_latchM (h : (afterWriteback s).latchM = .slot m) :
    ∀ w, s.latchW = .slot w → w.instr ≠ .halt := by
  intro w hW hh
  rw [afterWriteback_halts hW hh] at h
  simp at h

/-- A step that aborts a running state performs Writeback, raises the error of the instruction in M and
counts the tick (R314). -/
theorem step_aborts (ho : s.outcome = .running) (h : step s = .next t) (hf : t.outcome = .aborted f) :
    t = (((afterWriteback s.beginTick).atStage .memory).raise f).endTick ∧
      ∃ m, (afterWriteback s.beginTick).latchM = .slot m ∧
        (afterWriteback s.beginTick).errorOf m = some f := by
  rcases step_cases h with ⟨hr, -⟩ | ⟨-, -, -, rfl⟩ | ⟨-, -, -, rfl⟩
  · simp [State.isRunning, ho] at hr
  · cases hf
  have hraised : (afterTick s).hasRaised = true := by
    rw [← State.conclude_hasRaised, State.hasRaised_iff]
    exact ⟨f, hf⟩
  rw [State.conclude_of_raised hraised] at hf ⊢
  obtain ⟨hmem, htick⟩ := afterTick_raised hraised
  obtain ⟨-, -, -, -, -, hout, -⟩ := afterWriteback_frame s.beginTick
  obtain ⟨m, f', hM, hraise, hcause⟩ :=
    afterMemory_raised (State.hasRaised_of_running (hout.trans ho)) hmem
  rw [htick, hraise] at hf ⊢
  obtain rfl : f' = f := RunOutcome.aborted.inj hf
  exact ⟨rfl, m, hM, State.errorOf_eq_some_iff.2 hcause⟩

/-- In a state of the invariant, aborted or not, the claims of M and E are held (R222, R315). -/
theorem State.Inv.claimed_in_M_or_E (h : t.Inv) {r : RegIdx}
    (hd : t.latchM.dest? = some r ∨ t.latchE.dest? = some r) : t.valid[r] = false := by
  have hscore := h.scoreboard r
  have hclaim : t.claimCount r ≠ 0 := by
    unfold State.claimCount Latch.claims
    rcases hd with hd | hd <;> simp [hd]
  show t.isValid r = false
  by_contra hv
  rw [if_pos (Bool.not_eq_false _ ▸ hv)] at hscore
  exact hclaim hscore

/-- Settles O53: before the raise only Writeback has been at work, which commits W and keeps M, E, data memory,
pc and Z; and in the aborted state the invariant holds the claims of M and E. -/
theorem abortKeepsClaims : Obligations.AbortKeepsClaims := by
  intro s t f h ho hstep hf
  have hinv := invariantKept s t h hstep
  obtain ⟨ht, m, hMw, herror⟩ := step_aborts ho hstep hf
  obtain ⟨hM, hE, -⟩ :=
    afterWriteback_of_not_halt (s := s.beginTick) (not_halt_of_afterWriteback_latchM hMw)
  obtain ⟨hprog, hwords, hmem, hz, hpc, -⟩ := afterWriteback_frame s.beginTick
  have htM : t.latchM = s.latchM := by simp [ht, hM]
  have htE : t.latchE = s.latchE := by simp [ht, hE]
  have htread (q : RegIdx) : t.readReg q = (afterWriteback s.beginTick).readReg q := by
    simp [ht, State.readReg]
  have hsM : s.latchM = .slot m := hM.symm.trans hMw
  refine ⟨⟨htM, htE, ?_, ?_, ?_⟩, fun hW => ?_, fun w rd hW hd => ?_, ⟨m, hsM, ?_⟩,
    fun e r he hd => ?_⟩
  · simp [ht, hmem]
  · simp [ht, hpc]
  · simp [ht, hz]
  · have hx := afterWriteback_x_of_no_dest (s := s.beginTick) hW
    simp [ht, hx]
  · have hread (q : RegIdx) : t.readReg q = if q = rd then w.buf else s.readReg q :=
      (htread q).trans (afterWriteback_readReg (s := s.beginTick) hW hd q)
    exact ⟨(hread rd).trans (if_pos rfl), fun q hq => (hread q).trans (if_neg hq)⟩
  · rcases State.errorOf_eq_some_iff.1 herror with ⟨rfl, hi, ha⟩ | ⟨rfl, hi, htaken, ha⟩
    · refine .inl ⟨rfl, ?_, ?_⟩
      · rw [← Bool.not_eq_true, dataAddrOK_iff, hwords] at ha
        exact ha
      · have hclaimed (r : RegIdx) (hd : destOf m.instr = some r) : t.valid[r] = false :=
          hinv.claimed_in_M_or_E (.inl (by rw [htM, hsM]; exact hd))
        cases hinstr : m.instr with
        | load rd rs1 imm => exact .inl ⟨rd, rs1, imm, rfl, hclaimed rd (by rw [hinstr]; rfl)⟩
        | store rs1 rs2 imm => exact .inr ⟨rs1, rs2, imm, rfl⟩
        | _ => simp [hinstr, isAccess] at hi
    · refine .inr ⟨rfl, hi, htaken, ?_⟩
      rw [← State.imemRead_isSome, State.imemRead_congr (b := s) hprog] at ha
      simpa using ha
  · exact hinv.claimed_in_M_or_E (.inr (by rw [htE, he]; exact hd))

end Sys2Proof.Machine
end

section
/-!
PROOFS. The result of a run is that of executing the program in order, a taken transfer clears Z, and a step
behind empty latches is the Fetch of the instruction at `pc` (spec/40_pipeline.md R144, R201;
spec/70_reset_and_hazards.md R344, R350, R354).
-/

namespace Sys2Proof.Machine

open Sys2Proof

variable {s t : State} {i : Instr} {m : Slot} {f : Fault}

/-! ### The run is sequential -/

/-- A run of a launched program answers a state of the invariant, whose architectural state is that of the
sequential machine after some number of instructions: each step advances it by one or by none. -/
theorem runLoop_refines (n : Nat) (h : s.Inv) (hp : s.prog ≠ []) :
    ∃ t k, runLoop n s = .next t ∧ t.Inv ∧ seqRun s.prog s.dmemWords k s.arch = t.arch := by
  induction n generalizing s with
  | zero => exact ⟨s, 0, rfl, h, rfl⟩
  | succ n ih =>
    by_cases ho : s.outcome = .running
    · obtain ⟨u, hstep⟩ := step_answers fun _ => hp
      obtain ⟨hprog, hwords, -⟩ := nothingRewritesTheProgram s u hstep
      obtain ⟨t, k, hrun, ht, hk⟩ := ih (invariantKept s u h hstep) (by rwa [hprog])
      rw [hprog, hwords] at hk
      rw [runLoop_step ho hstep]
      rcases stepRefinesSequential s u h hstep with hsame | hnext
      · exact ⟨t, k, hrun, ht, by rw [← hsame, hk]⟩
      · exact ⟨t, k + 1, hrun, ht, by rw [seqRun, ← hnext, hk]⟩
    · exact ⟨s, 0, runLoop_ended _ ho, h, rfl⟩

/-- The sequential machine fails where Memory raises, with the same error (R162, R163, R165). -/
theorem finishM_of_errorOf (h : s.errorOf m = some f) (a : Arch) :
    Arch.finishM s.prog s.dmemWords (.slot m) a = { a with status := .failed f } := by
  rcases State.errorOf_eq_some_iff.1 h with ⟨rfl, hi, ha⟩ | ⟨rfl, hi, ht, ha⟩
  · rw [← Bool.not_eq_true, dataAddrOK_iff] at ha
    cases hj : m.instr with
    | load rd rs1 imm | store rs1 rs2 imm => simp only [Arch.finishM, hj, if_neg ha]
    | _ => simp [hj, isAccess] at hi
  · rw [← State.imemRead_isSome, ← seqFetch_eq] at ha
    cases hj : m.instr with
    | bz imm | bnz imm | jump rs1 imm => simp [Arch.finishM, hj, ht, ha]
    | _ => simp [hj, isTransfer] at hi

/-- After an abort the architectural state is what is committed, failed: what is in E is not completed
behind the error (R314). -/
theorem State.Inv.arch_aborted (h : s.Inv) (hf : s.outcome = .aborted f) :
    s.arch = { s.committed with status := .failed f } := by
  have hr : s.hasRaised = true := State.hasRaised_iff.2 ⟨f, hf⟩
  have hstop : s.stop = none := h.statusAgrees.2.2.2 hr
  have herror := h.abortInM f hf
  cases hM : s.latchM with
  | bubble => simp [hM] at herror
  | slot m =>
    have hfail := finishM_of_errorOf (s := s) (m := m) (f := f) (by simpa [hM] using herror) s.committed
    have hend := finishE_ended s.prog s.dmemWords s.latchE
      (a := { s.committed with status := .failed f }) nofun
    simp only [State.arch, hstop, hr, if_true, State.completeME, hM, hfail, hend, ite_self]

/-- The sequential machine starts where the launched one does: nothing is in flight. -/
theorem State.launched_arch {prog : List Instr} {x : Vector Word 32} {d : Memory} {n : Nat} {z : Bool}
    {budget : Nat} : (State.launched prog x d n z budget).arch = ⟨x, z, d, 0, .running 4000⟩ :=
  rfl

/-- Settles O59: every step of the run refines the sequential machine, and the architectural state that an
ended run stands for is its result. -/
theorem runsAreSequential : Obligations.RunsAreSequential := by
  intro inp s mode maxCycles hlaunch hfit
  have hmem := (invAtLaunch inp s hlaunch hfit).memoryOK
  obtain ⟨prog, hp, rfl⟩ := launch_next hlaunch
  obtain ⟨t, k, hrun, ht, hk⟩ := runLoop_refines (maxCycles - 0 + 1)
    (State.launched_inv (x := inp.rInit) (z := inp.zInit) (budget := maxCycles) hfit hmem) hp
  rw [State.launched_arch] at hk
  exact ⟨t, k, (if_pos rfl).trans hrun, fun c hc => hk.trans (arch_stop (ht.statusAgrees.2.1 c hc)),
    fun f hf => hk.trans (ht.arch_aborted hf)⟩

/-! ### A taken transfer clears Z -/

/-- In Execute every transfer is resolved, each by its own condition and target (R280 to R282). -/
theorem executeOf_transfer (h : isTransfer i = true) (s : State) :
    ∃ cond target, executeOf i s = s.resolve cond target := by
  cases i with
  | bz imm => exact ⟨State.z, fun e => e.pc + imm, rfl⟩
  | bnz imm => exact ⟨fun t => !t.z, fun e => e.pc + imm, rfl⟩
  | jump rs1 imm => exact ⟨fun _ => true, fun e => e.v1 + imm, rfl⟩
  | _ => cases h

/-- No instruction stands at address 0 (R85). -/
theorem ne_zero_of_instrAddrOK {a : Word} (h : s.instrAddrOK a = true) : a ≠ 0 := by
  rintro rfl
  have hbase := ((instrAddrOK_iff 0).1 h).1
  simp at hbase

/-- Settles O52: Z is set from the target, and no instruction stands at address 0. -/
theorem takenTransferClearsZ : Obligations.TakenTransferClearsZ := by
  intro i s t e m hs hE hexec hi hM htaken ha
  obtain ⟨cond, target, hresolve⟩ := executeOf_transfer hi s
  cases hc : cond s with
  | true =>
    rw [exec_resolves_taken hresolve hs hE hc] at hexec
    cases hexec
    cases hM
    exact decide_eq_false (ne_zero_of_instrAddrOK ha)
  | false =>
    rw [exec_resolves_not_taken hresolve hs hE hc] at hexec
    cases hexec
    cases hM
    cases htaken

/-! ### A step behind empty latches -/

/-- A state at rest whose next tick does nothing but fetch `i`. -/
structure State.FetchesAlone (s : State) (i : Instr) : Prop where
  outcome : s.outcome = .running
  budget : s.cycle < s.maxCycles
  stop : s.stop = none
  latchW : s.latchW = .bubble
  latchM : s.latchM = .bubble
  latchE : s.latchE = .bubble
  latchD : s.latchD = .bubble
  drain : s.drain = false
  brStall : s.brStall = false
  fstate : s.fstate = .normal
  mulBusy : s.mulBusy = false
  stage : s.stage = .fetch
  atPc : s.imemRead s.pc = some i

section
variable (h : s.FetchesAlone i)
include h

theorem State.FetchesAlone.prog_ne_nil : s.prog ≠ [] := by
  intro hn
  have hin := (State.imemRead_bounds h.atPc).2.2
  simp [hn] at hin

theorem State.FetchesAlone.beginTick_eq : s.beginTick = s := by
  rw [State.beginTick, ← h.mulBusy]

/-- Execute and Decode find nothing, and Fetch takes the instruction at `pc` (R201). -/
theorem State.FetchesAlone.afterFront_eq : afterFront s = s.fetchInto i := by
  have hstage : s.atStage .fetch = s := by rw [State.atStage, ← h.stage]
  rw [afterFront, afterExecute_empty h.latchE, afterDecode_idle (.inr (.inr h.latchD)),
    afterFetch_at h.drain h.brStall h.fstate h.atPc, hstage]

/-- After the Fetch of a state at rest the end of the tick only counts it. -/
theorem State.FetchesAlone.endTick_fetchInto :
    (s.fetchInto i).endTick = { s.fetchInto i with cycle := s.cycle + 1 } := by
  unfold State.fetchInto
  split <;> simp [State.endTick, h.mulBusy, h.stage]

/-- The step is `exec` of the instruction at `pc` and the count of the tick (R144, R344). -/
theorem State.FetchesAlone.step_eq_exec :
    ∃ t, exec i s = .next t ∧ step s = .next { t with cycle := s.cycle + 1 } := by
  have hback : afterBack s.beginTick = s := by
    rw [h.beginTick_eq, afterBack_empty h.latchW h.latchM]
  have hraised : (afterBack s.beginTick).hasRaised = false := by
    rw [hback]
    exact State.hasRaised_of_running h.outcome
  have hstop : (afterFront s).endTick.stop = none := (afterFront_frame s).2.trans h.stop
  refine ⟨_, exec_in_fetch i h.stage, ?_⟩
  rw [step_of_no_raise h.outcome h.prog_ne_nil h.budget hraised, hback, State.conclude_of_noStop hstop,
    h.afterFront_eq, h.endTick_fetchInto]

end

/-- After the launch of one instruction the next tick fetches it (R344). -/
theorem launched_fetchesAlone {x : Vector Word 32} {d : Memory} {n : Nat} {z : Bool} {budget : Nat}
    (hb : 0 < budget) : (State.launched [i] x d n z budget).FetchesAlone i := by
  refine ⟨rfl, hb, rfl, rfl, rfl, rfl, rfl, rfl, rfl, rfl, rfl, rfl, ?_⟩
  simp [State.launched, State.imemRead, State.instrAddrOK, instrIndex, Config.baseAddr, Config.iStride]

theorem decodeTableWord_of_decode {w : Nat} (hw : w < 2 ^ 64) (hd : decode (BitVec.ofNat 64 w) = .ok i) :
    decodeTableWord 64 w = some i := by
  rw [decodeTableWord, if_pos ⟨Nat.le_refl 64, hw⟩, hd]

/-- The launch of a word that decodes to `i` is that of the program `i`, with a budget of at least one tick (log
entry 3). -/
theorem withFetchWord_fetchesAlone {w : Nat} (hw : w < 2 ^ 64)
    (hd : decode (BitVec.ofNat 64 w) = .ok i) : (s.withFetchWord 64 w).FetchesAlone i := by
  rw [State.withFetchWord, State.launchWord, decodeTableWord_of_decode hw hd]
  exact launched_fetchesAlone (by omega)

/-- Settles O36: a launched word too stands at `pc` behind empty latches. -/
theorem stepRunsTheFetchedInstruction : Obligations.StepRunsTheFetchedInstruction := by
  refine ⟨fun s i ho hc hs hW hM hE hD hdr hb hf hbusy hst hi => ?_, fun s w i hw hd => ?_⟩
  · exact State.FetchesAlone.step_eq_exec ⟨ho, hc, hs, hW, hM, hE, hD, hdr, hb, hf, hbusy, hst, hi⟩
  · have hfetch : (s.withFetchWord 64 w).FetchesAlone i := withFetchWord_fetchesAlone hw hd
    exact ⟨hfetch.atPc, hfetch.step_eq_exec⟩

end Sys2Proof.Machine
end
